-- ==== Sys2Proof/Word.lean ====
section
/-! DEFINITION. The bit-vector types of BVCORE's ports and registers, at the widths the spec gives them.
Everything the spec defines by integer arithmetic (00_scope.md R7) is a `Nat`. -/

namespace Sys2Proof

/-- A command word `cmd[31:0]` (30_encoding.md R70). -/
abbrev CmdWord := BitVec 32

/-- A word of the data ports `opa`, `opb`, `rdata`, 64 bits (00_scope.md R14). -/
abbrev DataWord := BitVec 64

/-- The container of one stored block. A block has `W` bits (10_state.md R20) and `W` is at most 64, so the
block is the low `W` bits of the container; the bits above are zero in every state a run reaches
(assumption 6). -/
abbrev BlockWord := BitVec 64

/-- The width field `x[i].n`, 14 bits (10_state.md R20). -/
abbrev WidthField := BitVec 14

end Sys2Proof
end

