-- ==== Sys2Proof/Config.lean ====
section
/-! DEFINITION. The implementation parameters of BVCORE (00_scope.md R5, R6). -/

namespace Sys2Proof

/-- The legal values of the parameter `W`, bits per block: 8, 16, 32, 64 (00_scope.md R5). -/
inductive BlockWidth where
  | w8
  | w16
  | w32
  | w64
deriving DecidableEq, Repr

/-- The block width as an integer. -/
def BlockWidth.bits : BlockWidth → Nat
  | .w8 => 8
  | .w16 => 16
  | .w32 => 32
  | .w64 => 64

/-- A configuration of BVCORE: the block width `W` and `CAP`, the blocks of storage per vector register
(00_scope.md R5). -/
structure Config where
  width : BlockWidth
  cap : Nat
deriving DecidableEq, Repr

/-- `W`, bits per block. -/
abbrev Config.W (c : Config) : Nat := c.width.bits

/-- `NMAX = CAP*W`, the largest width a register can hold (00_scope.md R5). -/
def Config.nmax (c : Config) : Nat := c.cap * c.W

/-- The legal configurations: `CAP` from 1 to 255 and `CAP*W ≤ 16383` (00_scope.md R5); the legal values of `W`
are the constructors of `BlockWidth`. -/
def Config.legal (c : Config) : Bool := decide (1 ≤ c.cap ∧ c.cap ≤ 255 ∧ c.nmax ≤ 16383)

/-- `NREG`, the number of vector registers (00_scope.md R5). -/
def nreg : Nat := 16

/-- `VER`, the version of the command set (10_state.md R33). -/
def commandSetVersion : Nat := 1

/-- The reference configuration `REF`: `W = 32`, `CAP = 8` (00_scope.md R6). -/
def Config.ref : Config := { width := .w32, cap := 8 }

/-- The configuration `T8`: `W = 8`, `CAP = 8` (00_scope.md R6). -/
def Config.t8 : Config := { width := .w8, cap := 8 }

/-- The configuration `X64`: `W = 64`, `CAP = 4` (00_scope.md R6). -/
def Config.x64 : Config := { width := .w64, cap := 4 }

end Sys2Proof
end

