-- ==== Sys2Proof/Syntax.lean ====
section
/-! DEFINITION. The instructions of BVCORE: one constructor per row of the opcode map (30_encoding.md R74). -/

namespace Sys2Proof

/-- A vector register number, `x0` to `x15` (10_state.md R21). -/
abbrev Reg := Fin 16

/-- The immediate `cmd[13:0]`, an unsigned integer 0 to 16383 (30_encoding.md R73). -/
abbrev Imm := BitVec 14

/-- One instruction. Operands stand in the order of the assembler syntax (30_encoding.md R78): destinations, sources,
immediate. The data operands `opa`, `opb` belong to the transaction and not to the instruction. -/
inductive Instr where
  /-- format N: do nothing -/
  | nop
  /-- format Y: read system register `imm` -/
  | rdsr (imm : Imm)
  /-- format D: construct the zero vector of width `imm` -/
  | zero (rd : Reg) (imm : Imm)
  /-- format D: construct a vector of width `imm` from `opa` -/
  | ldi (rd : Reg) (imm : Imm)
  /-- format M: copy by value -/
  | mov (rd rs1 : Reg)
  /-- format I: convert to width `imm` -/
  | cvt (rd rs1 : Reg) (imm : Imm)
  /-- format D: store block `imm` of `rd` from `opa` -/
  | ldb (rd : Reg) (imm : Imm)
  /-- format J: read block `imm` of `rs1` -/
  | stb (rs1 : Reg) (imm : Imm)
  /-- format J: read bit `imm` of `rs1` -/
  | bget (rs1 : Reg) (imm : Imm)
  /-- format D: set bit `imm` of `rd` to `opa[0]` -/
  | bset (rd : Reg) (imm : Imm)
  /-- format D: invert bit `imm` of `rd` -/
  | bflip (rd : Reg) (imm : Imm)
  /-- format S: the width of `rs1` -/
  | size (rs1 : Reg)
  /-- format S: the number of set bits of `rs1` -/
  | count (rs1 : Reg)
  /-- format S: are all bits of `rs1` set -/
  | all (rs1 : Reg)
  /-- format S: is any bit of `rs1` set -/
  | any (rs1 : Reg)
  /-- format S: is no bit of `rs1` set -/
  | none (rs1 : Reg)
  /-- format S: the low 64 bits of `rs1` as a number -/
  | tonum (rs1 : Reg)
  /-- format P: `add_block` on the data ports -/
  | addb (cin : Bool)
  /-- format P: `subtract_block` on the data ports -/
  | subb (cin : Bool)
  /-- format I: whole-block shift left by `imm` blocks -/
  | bshl (rd rs1 : Reg) (imm : Imm)
  /-- format I: whole-block shift right by `imm` blocks -/
  | bshr (rd rs1 : Reg) (imm : Imm)
  /-- format I: sub-block shift left by `imm` bits -/
  | sshl (rd rs1 : Reg) (imm : Imm)
  /-- format I: sub-block shift right by `imm` bits -/
  | sshr (rd rs1 : Reg) (imm : Imm)
  /-- format I: shift left by `imm` bits -/
  | shl (rd rs1 : Reg) (imm : Imm)
  /-- format I: shift right by `imm` bits -/
  | shr (rd rs1 : Reg) (imm : Imm)
  /-- format R: addition, overflow signalled -/
  | add (rd rs1 rs2 : Reg)
  /-- format R: subtraction, wraps -/
  | sub (rd rs1 rs2 : Reg)
  /-- format M: two's complement -/
  | twoc (rd rs1 : Reg)
  /-- format R: multiplication -/
  | mul (rd rs1 rs2 : Reg)
  /-- format R: quotient -/
  | div (rd rs1 rs2 : Reg)
  /-- format R: remainder -/
  | rem (rd rs1 rs2 : Reg)
  /-- format Q: quotient to `rd`, remainder to `rd2` -/
  | divr (rd rd2 rs1 rs2 : Reg)
  /-- format R: bitwise AND -/
  | and (rd rs1 rs2 : Reg)
  /-- format R: bitwise OR -/
  | or (rd rs1 rs2 : Reg)
  /-- format M: bitwise negation -/
  | not (rd rs1 : Reg)
  /-- format C: unsigned compare -/
  | cmp (rs1 rs2 : Reg)
deriving DecidableEq, Repr

end Sys2Proof
end

