-- ==== Sys2Proof/WellFormed.lean ====
section
/-! DEFINITION. Well-formed instructions: the value conditions of 30_encoding.md R76, items 3 to 5, on the fields of an
instruction in a configuration. Items 1 and 2 (the opcode, the must-be-zero fields) are checks on the command word and
stand in the decoder; an `Instr` has no field that could break them. -/

namespace Sys2Proof

/-- No value condition of 30_encoding.md R76 fails: RDSR names system register 0 to 2, SSHL and SSHR shift by less
than `W`, and the two destinations of DIVR differ. -/
def Instr.wellFormed (c : Config) : Instr → Bool
  | .nop => true
  | .rdsr imm => decide (imm.toNat ≤ 2)
  | .zero _ _ => true
  | .ldi _ _ => true
  | .mov _ _ => true
  | .cvt _ _ _ => true
  | .ldb _ _ => true
  | .stb _ _ => true
  | .bget _ _ => true
  | .bset _ _ => true
  | .bflip _ _ => true
  | .size _ => true
  | .count _ => true
  | .all _ => true
  | .any _ => true
  | .none _ => true
  | .tonum _ => true
  | .addb _ => true
  | .subb _ => true
  | .bshl _ _ _ => true
  | .bshr _ _ _ => true
  | .sshl _ _ imm => decide (imm.toNat < c.W)
  | .sshr _ _ imm => decide (imm.toNat < c.W)
  | .shl _ _ _ => true
  | .shr _ _ _ => true
  | .add _ _ _ => true
  | .sub _ _ _ => true
  | .twoc _ _ => true
  | .mul _ _ _ => true
  | .div _ _ _ => true
  | .rem _ _ _ => true
  | .divr rd rd2 _ _ => decide (rd2 ≠ rd)
  | .and _ _ _ => true
  | .or _ _ _ => true
  | .not _ _ => true
  | .cmp _ _ => true

end Sys2Proof
end

