-- ==== Sys2Proof/Decode.lean ====
section
/-! DEFINITION. The decoder of command words and, after it, the encoder (30_encoding.md R70 to R76). -/

namespace Sys2Proof

/-- Why a command word is no instruction (30_encoding.md R76, items 1 and 2). Items 3 to 5 are value conditions on the
fields of an instruction: `Instr.wellFormed`. -/
inductive DecodeError where
  /-- the opcode is not in the opcode map (R76 item 1) -/
  | unassignedOpcode
  /-- a field the format requires to be zero is not zero (R76 item 2) -/
  | reservedField
deriving DecidableEq, Repr

/-- The formats of 30_encoding.md R72. -/
inductive Format where
  | n
  | y
  | d
  | m
  | i
  | r
  | q
  | s
  | j
  | c
  | p
deriving DecidableEq, Repr

/-- `opcode = cmd[31:26]` (30_encoding.md R71). -/
def opcodeField (w : CmdWord) : BitVec 6 := w.extractLsb' 26 6

/-- The raw field `rd = cmd[25:22]`. -/
def rdBits (w : CmdWord) : BitVec 4 := w.extractLsb' 22 4

/-- The raw field `rs1 = cmd[21:18]`. -/
def rs1Bits (w : CmdWord) : BitVec 4 := w.extractLsb' 18 4

/-- The raw field `rs2 = cmd[17:14]`. -/
def rs2Bits (w : CmdWord) : BitVec 4 := w.extractLsb' 14 4

/-- `imm = cmd[13:0]` (30_encoding.md R71, R73). -/
def immField (w : CmdWord) : Imm := w.extractLsb' 0 14

/-- A 4-bit register field as a register number. -/
def regOfBits (b : BitVec 4) : Reg := ⟨b.toNat, b.isLt⟩

/-- A register number as a 4-bit field. -/
def bitsOfReg (r : Reg) : BitVec 4 := BitVec.ofNat 4 r.val

/-- The destination register, `cmd[25:22]`. -/
def rdField (w : CmdWord) : Reg := regOfBits (rdBits w)

/-- The first source register, `cmd[21:18]`. -/
def rs1Field (w : CmdWord) : Reg := regOfBits (rs1Bits w)

/-- The second source register, `cmd[17:14]`. -/
def rs2Field (w : CmdWord) : Reg := regOfBits (rs2Bits w)

/-- The second destination of DIVR, `rd2 = imm[3:0]` (30_encoding.md R71). -/
def rd2Field (w : CmdWord) : Reg := regOfBits (w.extractLsb' 0 4)

/-- The carry-in or borrow-in of ADDB and SUBB, `cin = imm[0]` (30_encoding.md R71). -/
def cinField (w : CmdWord) : Bool := w.extractLsb' 0 1 == 1#1

/-- Every field the format requires to be zero is zero (30_encoding.md R72, column "Must be zero"). -/
def Format.reservedZero (f : Format) (w : CmdWord) : Bool :=
  match f with
  | .n => rdBits w == 0 && rs1Bits w == 0 && rs2Bits w == 0 && immField w == 0
  | .y => rdBits w == 0 && rs1Bits w == 0 && rs2Bits w == 0
  | .d => rs1Bits w == 0 && rs2Bits w == 0
  | .m => rs2Bits w == 0 && immField w == 0
  | .i => rs2Bits w == 0
  | .r => immField w == 0
  | .q => (immField w).extractLsb' 4 10 == 0
  | .s => rdBits w == 0 && rs2Bits w == 0 && immField w == 0
  | .j => rdBits w == 0 && rs2Bits w == 0
  | .c => rdBits w == 0 && immField w == 0
  | .p => rdBits w == 0 && rs1Bits w == 0 && rs2Bits w == 0 && (immField w).extractLsb' 1 13 == 0

/-- The instruction `i` read from `w` in format `f`, if the must-be-zero fields of `f` are zero. -/
def checkFormat (f : Format) (w : CmdWord) (i : Instr) : Except DecodeError Instr :=
  if f.reservedZero w then .ok i else .error .reservedField

/-- The decoder: the opcode map of 30_encoding.md R74 and the must-be-zero fields of R72. Total: every 32-bit word
selects one row or is rejected by name (R75). -/
def decode (w : CmdWord) : Except DecodeError Instr :=
  match (opcodeField w).toNat with
  | 0x01 => checkFormat .n w .nop
  | 0x02 => checkFormat .y w (.rdsr (immField w))
  | 0x08 => checkFormat .d w (.zero (rdField w) (immField w))
  | 0x09 => checkFormat .d w (.ldi (rdField w) (immField w))
  | 0x0A => checkFormat .m w (.mov (rdField w) (rs1Field w))
  | 0x0B => checkFormat .i w (.cvt (rdField w) (rs1Field w) (immField w))
  | 0x10 => checkFormat .d w (.ldb (rdField w) (immField w))
  | 0x11 => checkFormat .j w (.stb (rs1Field w) (immField w))
  | 0x12 => checkFormat .j w (.bget (rs1Field w) (immField w))
  | 0x13 => checkFormat .d w (.bset (rdField w) (immField w))
  | 0x14 => checkFormat .d w (.bflip (rdField w) (immField w))
  | 0x15 => checkFormat .s w (.size (rs1Field w))
  | 0x16 => checkFormat .s w (.count (rs1Field w))
  | 0x17 => checkFormat .s w (.all (rs1Field w))
  | 0x18 => checkFormat .s w (.any (rs1Field w))
  | 0x19 => checkFormat .s w (.none (rs1Field w))
  | 0x1A => checkFormat .s w (.tonum (rs1Field w))
  | 0x1C => checkFormat .p w (.addb (cinField w))
  | 0x1D => checkFormat .p w (.subb (cinField w))
  | 0x20 => checkFormat .i w (.bshl (rdField w) (rs1Field w) (immField w))
  | 0x21 => checkFormat .i w (.bshr (rdField w) (rs1Field w) (immField w))
  | 0x22 => checkFormat .i w (.sshl (rdField w) (rs1Field w) (immField w))
  | 0x23 => checkFormat .i w (.sshr (rdField w) (rs1Field w) (immField w))
  | 0x24 => checkFormat .i w (.shl (rdField w) (rs1Field w) (immField w))
  | 0x25 => checkFormat .i w (.shr (rdField w) (rs1Field w) (immField w))
  | 0x28 => checkFormat .r w (.add (rdField w) (rs1Field w) (rs2Field w))
  | 0x29 => checkFormat .r w (.sub (rdField w) (rs1Field w) (rs2Field w))
  | 0x2A => checkFormat .m w (.twoc (rdField w) (rs1Field w))
  | 0x2B => checkFormat .r w (.mul (rdField w) (rs1Field w) (rs2Field w))
  | 0x2C => checkFormat .r w (.div (rdField w) (rs1Field w) (rs2Field w))
  | 0x2D => checkFormat .r w (.rem (rdField w) (rs1Field w) (rs2Field w))
  | 0x2E => checkFormat .q w (.divr (rdField w) (rd2Field w) (rs1Field w) (rs2Field w))
  | 0x30 => checkFormat .r w (.and (rdField w) (rs1Field w) (rs2Field w))
  | 0x31 => checkFormat .r w (.or (rdField w) (rs1Field w) (rs2Field w))
  | 0x32 => checkFormat .m w (.not (rdField w) (rs1Field w))
  | 0x33 => checkFormat .c w (.cmp (rs1Field w) (rs2Field w))
  | _ => .error .unassignedOpcode

/-- A word of `nbits` bits with value `w`, bits above `nbits` zero, as a command word; a command is exactly 32 bits
(30_encoding.md R70), so a longer value is none. -/
def wordOfTable (nbits w : Nat) : Option CmdWord :=
  if w % 2 ^ nbits < 2 ^ 32 then some (BitVec.ofNat 32 (w % 2 ^ nbits)) else none

/-- The instruction the decoder reads from an instruction whose bits are `w`, numbered as the opcode table numbers
them. A command word has no bytes and no byte order: it is one word on the command port (20_memory.md R51). -/
def decodeTableWord (nbits w : Nat) : Option Instr :=
  match wordOfTable nbits w with
  | some cmd => (decode cmd).toOption
  | none => none

/-! The encoder, from the same tables. -/

/-- The command word with the given fields (30_encoding.md R71). -/
def commandWord (op : BitVec 6) (rd rs1 rs2 : Reg) (imm : Imm) : CmdWord :=
  op ++ bitsOfReg rd ++ bitsOfReg rs1 ++ bitsOfReg rs2 ++ imm

/-- The immediate of DIVR: `imm[3:0] = rd2`, `imm[13:4] = 0`. -/
def rd2Imm (rd2 : Reg) : Imm := BitVec.ofNat 14 rd2.val

/-- The immediate of ADDB and SUBB: `imm[0] = cin`, `imm[13:1] = 0`. -/
def cinImm (cin : Bool) : Imm := BitVec.ofNat 14 cin.toNat

/-- The opcode of an instruction (30_encoding.md R74). -/
def Instr.opcode : Instr → BitVec 6
  | .nop => 0x01#6
  | .rdsr _ => 0x02#6
  | .zero _ _ => 0x08#6
  | .ldi _ _ => 0x09#6
  | .mov _ _ => 0x0A#6
  | .cvt _ _ _ => 0x0B#6
  | .ldb _ _ => 0x10#6
  | .stb _ _ => 0x11#6
  | .bget _ _ => 0x12#6
  | .bset _ _ => 0x13#6
  | .bflip _ _ => 0x14#6
  | .size _ => 0x15#6
  | .count _ => 0x16#6
  | .all _ => 0x17#6
  | .any _ => 0x18#6
  | .none _ => 0x19#6
  | .tonum _ => 0x1A#6
  | .addb _ => 0x1C#6
  | .subb _ => 0x1D#6
  | .bshl _ _ _ => 0x20#6
  | .bshr _ _ _ => 0x21#6
  | .sshl _ _ _ => 0x22#6
  | .sshr _ _ _ => 0x23#6
  | .shl _ _ _ => 0x24#6
  | .shr _ _ _ => 0x25#6
  | .add _ _ _ => 0x28#6
  | .sub _ _ _ => 0x29#6
  | .twoc _ _ => 0x2A#6
  | .mul _ _ _ => 0x2B#6
  | .div _ _ _ => 0x2C#6
  | .rem _ _ _ => 0x2D#6
  | .divr _ _ _ _ => 0x2E#6
  | .and _ _ _ => 0x30#6
  | .or _ _ _ => 0x31#6
  | .not _ _ => 0x32#6
  | .cmp _ _ => 0x33#6

/-- The format of an instruction (30_encoding.md R74). -/
def Instr.format : Instr → Format
  | .nop => .n
  | .rdsr _ => .y
  | .zero _ _ => .d
  | .ldi _ _ => .d
  | .mov _ _ => .m
  | .cvt _ _ _ => .i
  | .ldb _ _ => .d
  | .stb _ _ => .j
  | .bget _ _ => .j
  | .bset _ _ => .d
  | .bflip _ _ => .d
  | .size _ => .s
  | .count _ => .s
  | .all _ => .s
  | .any _ => .s
  | .none _ => .s
  | .tonum _ => .s
  | .addb _ => .p
  | .subb _ => .p
  | .bshl _ _ _ => .i
  | .bshr _ _ _ => .i
  | .sshl _ _ _ => .i
  | .sshr _ _ _ => .i
  | .shl _ _ _ => .i
  | .shr _ _ _ => .i
  | .add _ _ _ => .r
  | .sub _ _ _ => .r
  | .twoc _ _ => .m
  | .mul _ _ _ => .r
  | .div _ _ _ => .r
  | .rem _ _ _ => .r
  | .divr _ _ _ _ => .q
  | .and _ _ _ => .r
  | .or _ _ _ => .r
  | .not _ _ => .m
  | .cmp _ _ => .c

/-- The command word of an instruction (30_encoding.md R71, R72, R74). -/
def encode : Instr → CmdWord
  | .nop => commandWord 0x01#6 0 0 0 0
  | .rdsr imm => commandWord 0x02#6 0 0 0 imm
  | .zero rd imm => commandWord 0x08#6 rd 0 0 imm
  | .ldi rd imm => commandWord 0x09#6 rd 0 0 imm
  | .mov rd rs1 => commandWord 0x0A#6 rd rs1 0 0
  | .cvt rd rs1 imm => commandWord 0x0B#6 rd rs1 0 imm
  | .ldb rd imm => commandWord 0x10#6 rd 0 0 imm
  | .stb rs1 imm => commandWord 0x11#6 0 rs1 0 imm
  | .bget rs1 imm => commandWord 0x12#6 0 rs1 0 imm
  | .bset rd imm => commandWord 0x13#6 rd 0 0 imm
  | .bflip rd imm => commandWord 0x14#6 rd 0 0 imm
  | .size rs1 => commandWord 0x15#6 0 rs1 0 0
  | .count rs1 => commandWord 0x16#6 0 rs1 0 0
  | .all rs1 => commandWord 0x17#6 0 rs1 0 0
  | .any rs1 => commandWord 0x18#6 0 rs1 0 0
  | .none rs1 => commandWord 0x19#6 0 rs1 0 0
  | .tonum rs1 => commandWord 0x1A#6 0 rs1 0 0
  | .addb cin => commandWord 0x1C#6 0 0 0 (cinImm cin)
  | .subb cin => commandWord 0x1D#6 0 0 0 (cinImm cin)
  | .bshl rd rs1 imm => commandWord 0x20#6 rd rs1 0 imm
  | .bshr rd rs1 imm => commandWord 0x21#6 rd rs1 0 imm
  | .sshl rd rs1 imm => commandWord 0x22#6 rd rs1 0 imm
  | .sshr rd rs1 imm => commandWord 0x23#6 rd rs1 0 imm
  | .shl rd rs1 imm => commandWord 0x24#6 rd rs1 0 imm
  | .shr rd rs1 imm => commandWord 0x25#6 rd rs1 0 imm
  | .add rd rs1 rs2 => commandWord 0x28#6 rd rs1 rs2 0
  | .sub rd rs1 rs2 => commandWord 0x29#6 rd rs1 rs2 0
  | .twoc rd rs1 => commandWord 0x2A#6 rd rs1 0 0
  | .mul rd rs1 rs2 => commandWord 0x2B#6 rd rs1 rs2 0
  | .div rd rs1 rs2 => commandWord 0x2C#6 rd rs1 rs2 0
  | .rem rd rs1 rs2 => commandWord 0x2D#6 rd rs1 rs2 0
  | .divr rd rd2 rs1 rs2 => commandWord 0x2E#6 rd rs1 rs2 (rd2Imm rd2)
  | .and rd rs1 rs2 => commandWord 0x30#6 rd rs1 rs2 0
  | .or rd rs1 rs2 => commandWord 0x31#6 rd rs1 rs2 0
  | .not rd rs1 => commandWord 0x32#6 rd rs1 0 0
  | .cmp rs1 rs2 => commandWord 0x33#6 0 rs1 rs2 0

/-- The mask of a format: the opcode and every must-be-zero bit (30_encoding.md R72). -/
def Format.mask : Format → CmdWord
  | .n => 0xFFFFFFFF#32
  | .y => 0xFFFFC000#32
  | .d => 0xFC3FC000#32
  | .m => 0xFC03FFFF#32
  | .i => 0xFC03C000#32
  | .r => 0xFC003FFF#32
  | .q => 0xFC003FF0#32
  | .s => 0xFFC3FFFF#32
  | .j => 0xFFC3C000#32
  | .c => 0xFFC03FFF#32
  | .p => 0xFFFFFFFE#32

/-- The `match` column of the opcode map: `opcode * 2^26` (30_encoding.md R74). -/
def matchWord (op : BitVec 6) : CmdWord := BitVec.ofNat 32 (op.toNat * 2 ^ 26)

/-- The rows of the opcode map: opcode and format (30_encoding.md R74). The decoder does not read this table; it
stands here to be compared with it. -/
def opcodeRows : List (BitVec 6 × Format) :=
  List.flatten [
    [(0x01#6, Format.n), (0x02#6, Format.y), (0x08#6, Format.d), (0x09#6, Format.d), (0x0A#6, Format.m)],
    [(0x0B#6, Format.i), (0x10#6, Format.d), (0x11#6, Format.j), (0x12#6, Format.j), (0x13#6, Format.d)],
    [(0x14#6, Format.d), (0x15#6, Format.s), (0x16#6, Format.s), (0x17#6, Format.s), (0x18#6, Format.s)],
    [(0x19#6, Format.s), (0x1A#6, Format.s), (0x1C#6, Format.p), (0x1D#6, Format.p), (0x20#6, Format.i)],
    [(0x21#6, Format.i), (0x22#6, Format.i), (0x23#6, Format.i), (0x24#6, Format.i), (0x25#6, Format.i)],
    [(0x28#6, Format.r), (0x29#6, Format.r), (0x2A#6, Format.m), (0x2B#6, Format.r), (0x2C#6, Format.r)],
    [(0x2D#6, Format.r), (0x2E#6, Format.q), (0x30#6, Format.r), (0x31#6, Format.r), (0x32#6, Format.m)],
    [(0x33#6, Format.c)]]

end Sys2Proof
end

