-- ==== Sys2Proof/Machine/State.lean ====
section
/-! DEFINITION. The state of BVCORE (10_state.md), the reasons a step can stop, and the state after reset. -/

namespace Sys2Proof.Machine

/-- One vector register (10_state.md R20, R21): the width field `n`, 0 when the register is unconstructed (R22), and
the blocks `blk[0]` to `blk[CAP-1]`, block 0 least significant (R23). -/
structure VReg where
  n : WidthField
  blk : List BlockWord
deriving DecidableEq, Repr

/-- One transaction as the host presents it: the command word and two data operands (00_scope.md R14). -/
structure Transaction where
  cmd : CmdWord
  opa : DataWord
  opb : DataWord
deriving DecidableEq, Repr

/-- What the host can do to the block: present a command, or assert the reset input (00_scope.md R19,
70_reset_and_hazards.md R300). -/
inductive HostEvent where
  | command (t : Transaction)
  | rst
deriving DecidableEq, Repr

/-- The six faults of BVCORE (60_exceptions.md R270). -/
inductive Cause where
  | outOfRange
  | divisionByZero
  | overflow
  | illegalCommand
  | unconstructed
  | widthError
deriving DecidableEq, Repr

/-- The status of a response: completed, faulted, or refused in the FAULTED state (60_exceptions.md R270, R271). The
reserved codes 7 to 14 are never produced and have no constructor. -/
inductive Status where
  | ok
  | fault (f : Cause)
  | halted
deriving DecidableEq, Repr

/-- The response to a command: `(status, flag, rdata)` (00_scope.md R14). -/
structure Response where
  status : Status
  flag : Bool
  rdata : DataWord
deriving DecidableEq, Repr

/-- The state. `x`, `fsr` and `fcmd` are the whole architectural state (10_state.md R20). The other four fields are the
model's own: the configuration, which no step changes (assumption 1), and the command port (assumption 3). -/
structure State where
  /-- the configuration `W`, `CAP`; `CFG` (10_state.md R33) is computed from it -/
  config : Config
  /-- the sixteen vector registers -/
  x : Vector VReg 16
  /-- `FSR`, the fault status (10_state.md R34) -/
  fsr : BitVec 8
  /-- `FCMD`, the command word that faulted (10_state.md R35) -/
  fcmd : CmdWord
  /-- what the host is going to present, first first -/
  pending : List HostEvent
  /-- the transaction on the command port: the last one presented -/
  port : Transaction
  /-- the last response, if any command has been answered since reset -/
  response : Option Response
deriving DecidableEq, Repr

/-- A stop of the machine with a fault. There is none: every fault of BVCORE is a next state, the FAULTED state
(60_exceptions.md R272, R279), and the host always receives a response (70_reset_and_hazards.md R306). Safe: nobody
raises one. -/
inductive Fault where
deriving DecidableEq, Repr

/-- Why the model has no meaning for what it is given. -/
inductive Refusal where
  /-- raised by exec's arm for an instruction without a meaning. Safe: nothing is claimed of the instruction. No arm
  raises it. -/
  | notModelled (mnemonic : String)
  /-- raised by step in a configuration outside the legal ranges, which is no configuration of the model
  (93_implementation_defined.md U19; assumption 5). Safe: nothing is claimed of it. -/
  | illegalConfig
deriving DecidableEq, Repr

/-- An unconstructed register as reset leaves it: `n = 0` (10_state.md R39). Its blocks are unspecified and
unobservable; the model holds them at zero, as 93_implementation_defined.md U16 permits (DESIGN CHOICE, assumption 2;
unsafe). -/
def VReg.unconstructed (c : Config) : VReg :=
  { n := 0, blk := List.replicate c.cap 0 }

/-- A command port on which nothing has been presented: all zero (DESIGN CHOICE, assumption 3; safe, the port is no
state of the spec). -/
def Transaction.idle : Transaction := { cmd := 0, opa := 0, opb := 0 }

/-- The state after reset in configuration `c` (10_state.md R39): all sixteen registers unconstructed, `FSR = 0`,
`FCMD = 0`. -/
def State.resetIn (c : Config) : State :=
  { config := c
    x := Vector.replicate 16 (VReg.unconstructed c)
    fsr := 0
    fcmd := 0
    pending := []
    port := Transaction.idle
    response := none }

/-- The machine right after reset, in the reference configuration (00_scope.md R5, R6; DESIGN CHOICE, assumption 1). -/
def State.reset : State := State.resetIn Config.ref

end Sys2Proof.Machine
end

