-- ==== Sys2Proof/Machine/Vec.lean ====
section
/-! DEFINITION. Vector values on blocks and the functions on them that every rule uses (00_scope.md R7 to R12). A block
is an integer here, as in the rules; the containers of State are met in `VReg.toVec` and `Vec.toReg` only. -/

namespace Sys2Proof.Machine

/-- A vector value as block storage: the width and the array `blk[0..CAP-1]` (00_scope.md R8, R9). -/
structure Vec where
  n : Nat
  blk : List Nat
deriving DecidableEq, Repr

/-- The integer a block array stands for: the sum of `blk[k] * 2^(W*k)` (10_state.md R24). -/
def valueOf (W : Nat) : List Nat → Nat
  | [] => 0
  | b :: bs => b + 2 ^ W * valueOf W bs

/-- `val(v)` (00_scope.md R8, 10_state.md R24). -/
def Vec.val (c : Config) (v : Vec) : Nat := valueOf c.W v.blk

/-- `B(n) = ceil(n / W)`, the number of blocks a width-`n` vector uses (00_scope.md R9). -/
def blockCount (c : Config) (n : Nat) : Nat := (n + (c.W - 1)) / c.W

/-- The array `blk[j] = (x div 2^(W*j)) mod 2^W`, `j = 0..CAP-1` (00_scope.md R9). -/
def blocksOf (c : Config) (x : Nat) : List Nat :=
  (List.range c.cap).map fun j => x / 2 ^ (c.W * j) % 2 ^ c.W

/-- `mk(n, x)` (00_scope.md R8). -/
def mkVec (c : Config) (n x : Nat) : Vec := { n := n, blk := blocksOf c x }

/-- Block `j` of `trim_n` (00_scope.md R9). -/
def trimBlock (W n j b : Nat) : Nat :=
  if n ≤ W * j then 0 else if n < W * (j + 1) then b % 2 ^ (n - W * j) else b

/-- `trim_n(blk)`: every bit at vector position `n` and above cleared (00_scope.md R9). -/
def trimTo (c : Config) (n : Nat) (blk : List Nat) : List Nat := blk.mapIdx (trimBlock c.W n)

/-- Bit `i` of an integer (00_scope.md R7). -/
def bitOf (v i : Nat) : Nat := v / 2 ^ i % 2

/-- `cvt_n(v)` on blocks: the width replaced and the blocks trimmed, which is zero-extension when `n` is not below
the width and truncation otherwise (00_scope.md R10, 40_construct_convert.md R104). -/
def Vec.convert (c : Config) (v : Vec) (n : Nat) : Vec := { n := n, blk := trimTo c n v.blk }

/-- `popcount`: the number of set bits below position `n` of `x` (00_scope.md R11). -/
def popcount (n x : Nat) : Nat := ((List.range n).map (bitOf x)).sum

/-- `msb`: the largest `i` with bit `i` of `x` set, for `x` not zero (00_scope.md R11). -/
def msb (x : Nat) : Nat := Nat.log2 x

/-- `shlW(b, r) = (b * 2^r) mod 2^W` (00_scope.md R12). -/
def shlW (W b r : Nat) : Nat := b * 2 ^ r % 2 ^ W

/-- `shrW(b, r) = b div 2^r` (00_scope.md R12). -/
def shrW (b r : Nat) : Nat := b / 2 ^ r

/-- The blocks a width-`n` vector uses, `blk[0..B(n)-1]` (10_state.md R23). -/
def Vec.used (c : Config) (v : Vec) : List Nat := v.blk.take (blockCount c v.n)

/-- An array of used blocks filled up to `CAP` blocks with zero blocks (10_state.md R25: the unused blocks are
zero). -/
def padBlocks (c : Config) (u : List Nat) : List Nat := u ++ List.replicate (c.cap - u.length) 0

/-- The vector of width `n` whose used blocks are `u`, trimmed: `(n, trim_n(u))`. -/
def Vec.ofUsed (c : Config) (n : Nat) (u : List Nat) : Vec := { n := n, blk := trimTo c n (padBlocks c u) }

/-- A block array with bit `p` set to `d`, all other bits unchanged: bit `p` is bit `p mod W` of block `p div W`
(20_memory.md R51, R54). -/
def setBitOf (c : Config) (blk : List Nat) (p d : Nat) : List Nat :=
  blk.modify (p / c.W) fun b => b - bitOf b (p % c.W) * 2 ^ (p % c.W) + d * 2 ^ (p % c.W)

/-- Bit `p` of a block array (20_memory.md R51, R54). -/
def getBitOf (c : Config) (blk : List Nat) (p : Nat) : Nat := bitOf (blk.getD (p / c.W) 0) (p % c.W)

/-- The content of a register as a vector value (10_state.md R24). -/
def VReg.toVec (r : VReg) : Vec := { n := r.n.toNat, blk := r.blk.map BitVec.toNat }

/-- A vector value as the content of a register (10_state.md R26). -/
def Vec.toReg (v : Vec) : VReg := { n := BitVec.ofNat 14 v.n, blk := v.blk.map (BitVec.ofNat 64) }

end Sys2Proof.Machine
end

