-- ==== Sys2Proof/Machine/Ops.lean ====
section
/-! DEFINITION. The operations over State every meaning is made of: reading and writing registers (00_scope.md R13,
10_state.md R26, R27), block and bit access (20_memory.md R52 to R54), the response (00_scope.md R14), fault entry
(60_exceptions.md R272), the FAULTED state (R279), reset (70_reset_and_hazards.md R300) and the command port. BVCORE has
no return from a fault (60_exceptions.md R280): reset is the only way out. -/

namespace Sys2Proof.Machine

/-! Registers. -/

/-- `x[i] <- v`: width and blocks replaced together (10_state.md R26). -/
def writeVec (s : State) (i : Reg) (v : Vec) : State := { s with x := s.x.set i.val v.toReg i.isLt }

/-- The raw content of register `i`. -/
def regAt (s : State) (i : Reg) : VReg := s.x[i.val]

/-- Register `i` holds no value: `n = 0` (10_state.md R27). -/
def isUnconstructed (s : State) (i : Reg) : Bool := (regAt s i).n == 0

/-- `x[i]` as a source: raises `Unconstructed` when the register holds no value (00_scope.md R13). -/
def readVec (s : State) (i : Reg) : Except Cause Vec :=
  if isUnconstructed s i then .error .unconstructed else .ok (regAt s i).toVec

/-! Block and bit access. -/

/-- `MemRead((i,k), W)` (20_memory.md R52). -/
def memReadBlock (s : State) (i : Reg) (k : Nat) : Except Cause Nat := do
  let v ← readVec s i
  if blockCount s.config v.n ≤ k then .error .outOfRange else .ok (v.blk.getD k 0)

/-- `MemWrite((i,k), W, d)`: the block is replaced and the register trimmed (20_memory.md R53). -/
def memWriteBlock (s : State) (i : Reg) (k d : Nat) : Except Cause State := do
  let v ← readVec s i
  if blockCount s.config v.n ≤ k then .error .outOfRange
  else .ok (writeVec s i { n := v.n, blk := trimTo s.config v.n (v.blk.set k d) })

/-- `MemRead((i,p), 1)` (20_memory.md R54). -/
def memReadBit (s : State) (i : Reg) (p : Nat) : Except Cause Nat := do
  let v ← readVec s i
  if v.n ≤ p then .error .outOfRange else .ok (getBitOf s.config v.blk p)

/-- `MemWrite((i,p), 1, d)` (20_memory.md R54). -/
def memWriteBit (s : State) (i : Reg) (p d : Nat) : Except Cause State := do
  let v ← readVec s i
  if v.n ≤ p then .error .outOfRange
  else .ok (writeVec s i { n := v.n, blk := setBitOf s.config v.blk p d })

/-- The capacity check: a width of 0 or above `NMAX` raises `WidthError` (40_construct_convert.md R106). -/
def checkWidth (c : Config) (n : Nat) : Except Cause Unit :=
  if n = 0 ∨ c.nmax < n then .error .widthError else .ok ()

/-! The response. -/

/-- `respond(flag, rdata)`: the command completes with status `OK` (00_scope.md R13, R14). -/
def respond (s : State) (flag : Bool) (rdata : Nat) : State :=
  { s with response := some { status := .ok, flag := flag, rdata := BitVec.ofNat 64 rdata } }

/-! Fault entry and the FAULTED state. -/

/-- The status code of a fault, which is also what `FSR.CAUSE` holds (60_exceptions.md R270). -/
def Cause.code : Cause → BitVec 4
  | .outOfRange => 1
  | .divisionByZero => 2
  | .overflow => 3
  | .illegalCommand => 4
  | .unconstructed => 5
  | .widthError => 6

/-- `status[3:0]` (60_exceptions.md R270). -/
def Status.code : Status → BitVec 4
  | .ok => 0
  | .fault f => f.code
  | .halted => 15

/-- `FSR.H`, bit 0 (10_state.md R34). -/
def fsrH (fsr : BitVec 8) : Bool := fsr.extractLsb' 0 1 == 1#1

/-- `FSR.CAUSE`, bits 7:4 (10_state.md R34). -/
def fsrCause (fsr : BitVec 8) : BitVec 4 := fsr.extractLsb' 4 4

/-- `FSR[3:1]`, reserved, read as 0 (10_state.md R34). -/
def fsrReserved (fsr : BitVec 8) : BitVec 3 := fsr.extractLsb' 1 3

/-- `FSR` with `H` set to 1 and `CAUSE` to the code; the reserved bits keep their value. -/
def fsrFaulted (fsr : BitVec 8) (code : BitVec 4) : BitVec 8 := code ++ fsrReserved fsr ++ 1#1

/-- The block is in the FAULTED state, `FSR.H = 1`; also the level output `halted` (60_exceptions.md R279). -/
def isHalted (s : State) : Bool := fsrH s.fsr

/-- Fault entry: no vector register is written, `FSR.H <- 1`, `FSR.CAUSE <- code`, `FCMD <- cmd`, and the answer is the
fault's code with `flag = 0`, `rdata = 0` (60_exceptions.md R272). -/
def enterFault (s : State) (f : Cause) : State :=
  { s with
    fsr := fsrFaulted s.fsr f.code
    fcmd := s.port.cmd
    response := some { status := .fault f, flag := false, rdata := 0 } }

/-- The answer in the FAULTED state: `Halted`, and nothing else changes (60_exceptions.md R279). -/
def answerHalted (s : State) : State :=
  { s with response := some { status := .halted, flag := false, rdata := 0 } }

/-- One command that is not a legal RDSR: refused with `Halted` in the FAULTED state; else it completes with all its
effects or raises one fault with none of them (30_encoding.md R75, 60_exceptions.md R271). -/
def runCommand (s : State) (body : Except Cause State) : Host.Outcome State Fault Refusal :=
  if isHalted s then .next (answerHalted s)
  else
    match body with
    | .ok t => .next t
    | .error f => .next (enterFault s f)

/-- The answer to a command word the decoder rejects (30_encoding.md R75, step 2; R76). -/
def rejectCommand (s : State) : Host.Outcome State Fault Refusal := runCommand s (.error .illegalCommand)

/-! System registers. -/

/-- `CFG`: `VER` 31:24, `NREG` 23:16, `CAP` 15:8, `W` 7:0 (10_state.md R33). -/
def cfgWord (c : Config) : BitVec 32 :=
  BitVec.ofNat 8 commandSetVersion ++ BitVec.ofNat 8 nreg ++ BitVec.ofNat 8 c.cap ++ BitVec.ofNat 8 c.W

/-- The value of system register `k`, if it exists (10_state.md R33 to R36). -/
def systemRegister (s : State) (k : Nat) : Option Nat :=
  match k with
  | 0 => some (cfgWord s.config).toNat
  | 1 => some s.fsr.toNat
  | 2 => some s.fcmd.toNat
  | _ => none

/-! The command port and reset. -/

/-- The host's next event is taken from the pending ones. -/
def dropEvent (s : State) : State := { s with pending := s.pending.tail }

/-- A transaction is put before every pending event: it is what the host presents next. -/
def presentNext (s : State) (t : Transaction) : State := { s with pending := .command t :: s.pending }

/-- A transaction stands on the command port. -/
def presentTransaction (s : State) (t : Transaction) : State := { s with port := t }

/-- Reset, from any state: all registers unconstructed, `FSR = 0`, `FCMD = 0`, no response (70_reset_and_hazards.md
R300). The configuration is no state, and what the host is going to present is not the block's to change. -/
def applyReset (s : State) : State := { State.resetIn s.config with pending := s.pending }

end Sys2Proof.Machine
end

