-- ==== Sys2Proof/Machine/Operands.lean ====
section
/-! DEFINITION. The operand forms of a command: source registers, immediate and data operands (00_scope.md R13,
30_encoding.md R73, R79). The immediate is `imm.toNat`: an unsigned integer, never extended, scaled or shifted (R73). -/

namespace Sys2Proof.Machine

/-- A value condition of 30_encoding.md R76 on the fields of the command: if it fails the command raises
`IllegalCommand`, before any register is read (60_exceptions.md R275, R283). -/
def requireLegal (condition : Bool) : Except Cause Unit :=
  if condition then .ok () else .error .illegalCommand

/-- The two source registers of a binary operation, `rs1` before `rs2` (60_exceptions.md R283). -/
def readVecs (s : State) (rs1 rs2 : Reg) : Except Cause (Vec × Vec) := do
  let a ← readVec s rs1
  let b ← readVec s rs2
  .ok (a, b)

/-- `opa[63:0]` as an unsigned integer (LDI; 30_encoding.md R79). -/
def opaNumber (s : State) : Nat := s.port.opa.toNat

/-- `opa[W-1:0]`; `opa[63:W]` is ignored (LDB, ADDB, SUBB; 30_encoding.md R79). -/
def opaBlock (s : State) : Nat := s.port.opa.toNat % 2 ^ s.config.W

/-- `opb[W-1:0]`; `opb[63:W]` is ignored (ADDB, SUBB; 30_encoding.md R79). -/
def opbBlock (s : State) : Nat := s.port.opb.toNat % 2 ^ s.config.W

/-- `opa[0]`; `opa[63:1]` is ignored (BSET; 30_encoding.md R79). -/
def opaBit (s : State) : Nat := bitOf s.port.opa.toNat 0

/-- The result width of a binary operation of `max(N1, N2)` (40_construct_convert.md R100). -/
def promotedWidth (a b : Vec) : Nat := max a.n b.n

end Sys2Proof.Machine
end

