-- ==== Sys2Proof/Machine/Flags.lean ====
section
/-! DEFINITION. What a command puts into the response's `flag` bit and, for CMP, into `rdata`. BVCORE has no persistent
flag and no condition code (10_state.md R31): these are outputs of one command. -/

namespace Sys2Proof.Machine

/-- The flag of BGET: the bit read (41_storage_access.md R122). -/
def flagOfBit (b : Nat) : Bool := b == 1

/-- The flag of ALL: every one of the `n` bits is set (41_storage_access.md R127). -/
def allFlag (c : Config) (a : Vec) : Bool := a.val c == 2 ^ a.n - 1

/-- The flag of ANY: at least one bit is set (41_storage_access.md R128). -/
def anyFlag (c : Config) (a : Vec) : Bool := a.val c != 0

/-- The flag of NONE: no bit is set (41_storage_access.md R129). -/
def noneFlag (c : Config) (a : Vec) : Bool := a.val c == 0

/-- `ucmp`: the values compared as unsigned integers, whatever the widths (00_scope.md R11). -/
def ucmp (c : Config) (a b : Vec) : Ordering := compare (a.val c) (b.val c)

/-- The flag of CMP: 1 exactly when the values are equal (47_logic_compare.md R243). -/
def cmpFlag (o : Ordering) : Bool := o == .eq

/-- `rdata` of CMP: 0 equal, 1 less, 2 greater (47_logic_compare.md R243). -/
def cmpNumber : Ordering → Nat
  | .eq => 0
  | .lt => 1
  | .gt => 2

end Sys2Proof.Machine
end

