-- ==== Sys2Proof/Machine/BlockPrimitives.lean ====
section
/-! DEFINITION. The block arithmetic primitives and the commands ADDB and SUBB (42_block_primitives.md). -/

namespace Sys2Proof.Machine

/-- `add_block(a, b, c)`: the sum modulo `2^W` and the new carry (42_block_primitives.md R150). -/
def addBlock (W a b : Nat) (c : Bool) : Nat × Bool :=
  let t := a + b + c.toNat
  (t % 2 ^ W, decide (2 ^ W ≤ t))

/-- `subtract_block(a, b, w)`: the difference modulo `2^W` and the new borrow, `a < b + w` with `b + w` computed exactly
(42_block_primitives.md R151). -/
def subtractBlock (W a b : Nat) (w : Bool) : Nat × Bool :=
  ((((a : Int) - b - w.toNat) % 2 ^ W).toNat, decide (a < b + w.toNat))

/-- ADDB (42_block_primitives.md R152). -/
def execAddb (cin : Bool) (s : State) : Host.Outcome State Fault Refusal :=
  let r := addBlock s.config.W (opaBlock s) (opbBlock s) cin
  runCommand s (.ok (respond s r.2 r.1))

/-- SUBB (42_block_primitives.md R153). -/
def execSubb (cin : Bool) (s : State) : Host.Outcome State Fault Refusal :=
  let r := subtractBlock s.config.W (opaBlock s) (opbBlock s) cin
  runCommand s (.ok (respond s r.2 r.1))

end Sys2Proof.Machine
end

