-- ==== Sys2Proof/Machine/Logic.lean ====
section
/-! DEFINITION. Bitwise logic and comparison: AND, OR, NOT, CMP (47_logic_compare.md). -/

namespace Sys2Proof.Machine

/-- The first `m` blocks of a vector, the blocks beyond its own width being zero (40_construct_convert.md R105). -/
def firstBlocks (m : Nat) (a : Vec) : List Nat := a.blk.take m

/-- `f` on the blocks of both operands at the working width `max(N1, N2)`: already trimmed (47_logic_compare.md R240,
R241). -/
def blockwise (c : Config) (f : Nat → Nat → Nat) (a b : Vec) : Vec :=
  let n := promotedWidth a b
  let m := blockCount c n
  { n := n, blk := padBlocks c (List.zipWith f (firstBlocks m a) (firstBlocks m b)) }

/-- Bitwise AND (47_logic_compare.md R240). -/
def andVec (c : Config) (a b : Vec) : Vec := blockwise c (fun p q => p &&& q) a b

/-- Bitwise OR (47_logic_compare.md R241). -/
def orVec (c : Config) (a b : Vec) : Vec := blockwise c (fun p q => p ||| q) a b

/-- Bitwise negation: `2^W - 1 - block`, then the trim that clears the flipped padding (47_logic_compare.md R242). -/
def notVec (c : Config) (a : Vec) : Vec :=
  Vec.ofUsed c a.n ((a.used c).map fun b => 2 ^ c.W - 1 - b)

/-- AND (47_logic_compare.md R240). -/
def execAnd (rd rs1 rs2 : Reg) (s : State) : Host.Outcome State Fault Refusal :=
  runCommand s do
    let (a, b) ← readVecs s rs1 rs2
    .ok (respond (writeVec s rd (andVec s.config a b)) false 0)

/-- OR (47_logic_compare.md R241). -/
def execOr (rd rs1 rs2 : Reg) (s : State) : Host.Outcome State Fault Refusal :=
  runCommand s do
    let (a, b) ← readVecs s rs1 rs2
    .ok (respond (writeVec s rd (orVec s.config a b)) false 0)

/-- NOT (47_logic_compare.md R242). -/
def execNot (rd rs1 : Reg) (s : State) : Host.Outcome State Fault Refusal :=
  runCommand s do
    let a ← readVec s rs1
    .ok (respond (writeVec s rd (notVec s.config a)) false 0)

/-- CMP (47_logic_compare.md R243). -/
def execCmp (rs1 rs2 : Reg) (s : State) : Host.Outcome State Fault Refusal :=
  runCommand s do
    let (a, b) ← readVecs s rs1 rs2
    let o := ucmp s.config a b
    .ok (respond s (cmpFlag o) (cmpNumber o))

end Sys2Proof.Machine
end

