-- ==== Sys2Proof/Machine/AddSub.lean ====
section
/-! DEFINITION. The multi-block adder and subtractor and the commands ADD, SUB, TWOC (44_add_sub.md). -/

namespace Sys2Proof.Machine

/-- The adder's loop: `add_block` on the blocks of both operands from block 0 upward, the carry threaded; the sum blocks
and the final carry (44_add_sub.md R193). -/
def addChain (W : Nat) : List Nat → List Nat → Bool → List Nat × Bool
  | a :: as, b :: bs, c =>
    let r := addBlock W a b c
    let rest := addChain W as bs r.2
    (r.1 :: rest.1, rest.2)
  | _, _, c => ([], c)

/-- The subtractor's loop: `subtract_block` from block 0 upward, the borrow threaded; the difference blocks and the final
borrow (44_add_sub.md R194). -/
def subChain (W : Nat) : List Nat → List Nat → Bool → List Nat × Bool
  | a :: as, b :: bs, w =>
    let r := subtractBlock W a b w
    let rest := subChain W as bs r.2
    (r.1 :: rest.1, rest.2)
  | _, _, w => ([], w)

/-- `add_v(a, b)`: the sum at width `max(N1, N2)`, or `Overflow` when a carry remains or a bit beyond the width is set
(44_add_sub.md R193, R195). -/
def addVec (c : Config) (a b : Vec) : Except Cause Vec :=
  let n := promotedWidth a b
  let m := blockCount c n
  let r := addChain c.W (firstBlocks m a) (firstBlocks m b) false
  if r.2 ∨ trimTo c n r.1 ≠ r.1 then .error .overflow
  else .ok { n := n, blk := padBlocks c r.1 }

/-- `sub_v(a, b)`: the difference at width `max(N1, N2)`, trimmed; the final borrow is discarded (44_add_sub.md
R194). -/
def subVec (c : Config) (a b : Vec) : Vec :=
  let n := promotedWidth a b
  let m := blockCount c n
  Vec.ofUsed c n (subChain c.W (firstBlocks m a) (firstBlocks m b) false).1

/-- Two's complement: flip all bits, then add 1 under the overflow policy (44_add_sub.md R192, R195). -/
def twosComplement (c : Config) (a : Vec) : Except Cause Vec := addVec c (notVec c a) (mkVec c a.n 1)

/-- ADD (44_add_sub.md R190). -/
def execAdd (rd rs1 rs2 : Reg) (s : State) : Host.Outcome State Fault Refusal :=
  runCommand s do
    let (a, b) ← readVecs s rs1 rs2
    let r ← addVec s.config a b
    .ok (respond (writeVec s rd r) false 0)

/-- SUB (44_add_sub.md R191). -/
def execSub (rd rs1 rs2 : Reg) (s : State) : Host.Outcome State Fault Refusal :=
  runCommand s do
    let (a, b) ← readVecs s rs1 rs2
    .ok (respond (writeVec s rd (subVec s.config a b)) false 0)

/-- TWOC (44_add_sub.md R192). -/
def execTwoc (rd rs1 : Reg) (s : State) : Host.Outcome State Fault Refusal :=
  runCommand s do
    let a ← readVec s rs1
    let r ← twosComplement s.config a
    .ok (respond (writeVec s rd r) false 0)

end Sys2Proof.Machine
end

