-- ==== Sys2Proof/Machine/Construct.lean ====
section
/-! DEFINITION. Construction, copy, width promotion and truncation: ZERO, LDI, MOV, CVT (40_construct_convert.md). -/

namespace Sys2Proof.Machine

/-- The bit-by-bit decomposition of LDI: the integer whose bit `p`, for `p` below `n`, is the `p`-th remainder modulo 2,
least significant first (40_construct_convert.md R102). -/
def decompose : Nat → Nat → Nat
  | 0, _ => 0
  | n + 1, v => v % 2 + 2 * decompose n (v / 2)

/-- ZERO (40_construct_convert.md R101). -/
def execZero (rd : Reg) (imm : Imm) (s : State) : Host.Outcome State Fault Refusal :=
  runCommand s do
    let n := imm.toNat
    checkWidth s.config n
    .ok (respond (writeVec s rd (mkVec s.config n 0)) false 0)

/-- LDI (40_construct_convert.md R102). -/
def execLdi (rd : Reg) (imm : Imm) (s : State) : Host.Outcome State Fault Refusal :=
  runCommand s do
    let n := imm.toNat
    checkWidth s.config n
    .ok (respond (writeVec s rd (mkVec s.config n (decompose n (opaNumber s)))) false 0)

/-- MOV (40_construct_convert.md R103). -/
def execMov (rd rs1 : Reg) (s : State) : Host.Outcome State Fault Refusal :=
  runCommand s do
    let a ← readVec s rs1
    .ok (respond (writeVec s rd a) false 0)

/-- CVT (40_construct_convert.md R104). -/
def execCvt (rd rs1 : Reg) (imm : Imm) (s : State) : Host.Outcome State Fault Refusal :=
  runCommand s do
    let a ← readVec s rs1
    let n := imm.toNat
    checkWidth s.config n
    .ok (respond (writeVec s rd (a.convert s.config n)) false 0)

end Sys2Proof.Machine
end

