-- ==== Sys2Proof/Machine/Shift.lean ====
section
/-! DEFINITION. The shift engine and the commands BSHL, BSHR, SSHL, SSHR, SHL, SHR (43_shift.md). The stage functions act
on the array of the blocks a vector uses. -/

namespace Sys2Proof.Machine

/-- Whole-block left shift `blkshl(t, k)` (43_shift.md R161). -/
def blockShiftLeft (t : List Nat) (k : Nat) : List Nat :=
  (List.range t.length).map fun i => if k ≤ i then t.getD (i - k) 0 else 0

/-- Whole-block right shift `blkshr(t, k)` (43_shift.md R162). -/
def blockShiftRight (t : List Nat) (k : Nat) : List Nat :=
  (List.range t.length).map fun i => if i + k < t.length then t.getD (i + k) 0 else 0

/-- Sub-block left shift `subshl(t, r)`, `r < W` (43_shift.md R163). -/
def subShiftLeft (W : Nat) (t : List Nat) (r : Nat) : List Nat :=
  if r = 0 then t
  else (List.range t.length).map fun i =>
    if 1 ≤ i then shlW W (t.getD i 0) r ||| shrW (t.getD (i - 1) 0) (W - r)
    else shlW W (t.getD 0 0) r

/-- Sub-block right shift `subshr(t, r)`, `r < W` (43_shift.md R164). -/
def subShiftRight (W : Nat) (t : List Nat) (r : Nat) : List Nat :=
  if r = 0 then t
  else (List.range t.length).map fun i =>
    if i + 1 < t.length then shrW (t.getD i 0) r ||| shlW W (t.getD (i + 1) 0) (W - r)
    else shrW (t.getD i 0) r

/-- The composed left shift `shl_v(a, s)` (43_shift.md R165, R160). -/
def shlVec (c : Config) (a : Vec) (s : Nat) : Vec :=
  if a.n ≤ s then mkVec c a.n 0
  else Vec.ofUsed c a.n (subShiftLeft c.W (blockShiftLeft (a.used c) (s / c.W)) (s % c.W))

/-- The composed right shift `shr_v(a, s)` (43_shift.md R165, R160). -/
def shrVec (c : Config) (a : Vec) (s : Nat) : Vec :=
  if a.n ≤ s then mkVec c a.n 0
  else Vec.ofUsed c a.n (subShiftRight c.W (blockShiftRight (a.used c) (s / c.W)) (s % c.W))

/-- BSHL (43_shift.md R166, R173). -/
def execBshl (rd rs1 : Reg) (imm : Imm) (s : State) : Host.Outcome State Fault Refusal :=
  runCommand s do
    let a ← readVec s rs1
    let u := blockShiftLeft (a.used s.config) imm.toNat
    .ok (respond (writeVec s rd (Vec.ofUsed s.config a.n u)) false 0)

/-- BSHR: the result is already trimmed (43_shift.md R167, R173). -/
def execBshr (rd rs1 : Reg) (imm : Imm) (s : State) : Host.Outcome State Fault Refusal :=
  runCommand s do
    let a ← readVec s rs1
    let u := blockShiftRight (a.used s.config) imm.toNat
    .ok (respond (writeVec s rd { n := a.n, blk := padBlocks s.config u }) false 0)

/-- SSHL: `imm ≥ W` is an illegal command, checked before the register is read (43_shift.md R168, R173). -/
def execSshl (rd rs1 : Reg) (imm : Imm) (s : State) : Host.Outcome State Fault Refusal :=
  runCommand s do
    requireLegal (decide (imm.toNat < s.config.W))
    let a ← readVec s rs1
    let u := subShiftLeft s.config.W (a.used s.config) imm.toNat
    .ok (respond (writeVec s rd (Vec.ofUsed s.config a.n u)) false 0)

/-- SSHR: `imm ≥ W` is an illegal command; the result is already trimmed (43_shift.md R169, R173). -/
def execSshr (rd rs1 : Reg) (imm : Imm) (s : State) : Host.Outcome State Fault Refusal :=
  runCommand s do
    requireLegal (decide (imm.toNat < s.config.W))
    let a ← readVec s rs1
    let u := subShiftRight s.config.W (a.used s.config) imm.toNat
    .ok (respond (writeVec s rd { n := a.n, blk := padBlocks s.config u }) false 0)

/-- SHL (43_shift.md R170, R173). -/
def execShl (rd rs1 : Reg) (imm : Imm) (s : State) : Host.Outcome State Fault Refusal :=
  runCommand s do
    let a ← readVec s rs1
    .ok (respond (writeVec s rd (shlVec s.config a imm.toNat)) false 0)

/-- SHR (43_shift.md R171, R173). -/
def execShr (rd rs1 : Reg) (imm : Imm) (s : State) : Host.Outcome State Fault Refusal :=
  runCommand s do
    let a ← readVec s rs1
    .ok (respond (writeVec s rd (shrVec s.config a imm.toNat)) false 0)

end Sys2Proof.Machine
end

