-- ==== Sys2Proof/Machine/Divide.lean ====
section
/-! DEFINITION. The restoring long divider and the commands DIV, REM, DIVR (46_divide.md). -/

namespace Sys2Proof.Machine

/-- The divider's loop with `k` iterations left, so that the quotient bit of the next one is bit `k - 1`: the divisor
`d`, the quotient `q` and the running remainder `r` (46_divide.md R220). -/
def divLoop (c : Config) : Nat → Vec → Vec → Vec → Vec × Vec
  | 0, _, q, r => (q, r)
  | k + 1, d, q, r =>
    if ucmp c d r = .lt ∨ ucmp c d r = .eq then
      divLoop c k (shrVec c d 1) { n := q.n, blk := setBitOf c q.blk k 1 } (subVec c r d)
    else divLoop c k (shrVec c d 1) q r

/-- `divrem_v(a, b)`: quotient and remainder at the dividend's width, or `DivisionByZero`; the four special cases are
tested in the rule's order, on values (46_divide.md R220). -/
def divRemVec (c : Config) (a b : Vec) : Except Cause (Vec × Vec) :=
  if b.val c = 0 then .error .divisionByZero
  else if a.val c = 0 then .ok (mkVec c a.n 0, mkVec c a.n 0)
  else if ucmp c a b = .eq then .ok (mkVec c a.n 1, mkVec c a.n 0)
  else if ucmp c a b = .lt then .ok (mkVec c a.n 0, a)
  else
    let sh := msb (a.val c) - msb (b.val c)
    .ok (divLoop c (sh + 1) (shlVec c (b.convert c a.n) sh) (mkVec c a.n 0) a)

/-- DIV (46_divide.md R222). -/
def execDiv (rd rs1 rs2 : Reg) (s : State) : Host.Outcome State Fault Refusal :=
  runCommand s do
    let (a, b) ← readVecs s rs1 rs2
    let (q, _) ← divRemVec s.config a b
    .ok (respond (writeVec s rd q) false 0)

/-- REM (46_divide.md R223). -/
def execRem (rd rs1 rs2 : Reg) (s : State) : Host.Outcome State Fault Refusal :=
  runCommand s do
    let (a, b) ← readVecs s rs1 rs2
    let (_, r) ← divRemVec s.config a b
    .ok (respond (writeVec s rd r) false 0)

/-- DIVR: `rd2 = rd` is an illegal command, before any register is read (46_divide.md R224). -/
def execDivr (rd rd2 rs1 rs2 : Reg) (s : State) : Host.Outcome State Fault Refusal :=
  runCommand s do
    requireLegal (decide (rd2 ≠ rd))
    let (a, b) ← readVecs s rs1 rs2
    let (q, r) ← divRemVec s.config a b
    .ok (respond (writeVec (writeVec s rd q) rd2 r) false 0)

end Sys2Proof.Machine
end

