-- ==== Sys2Proof/Machine/Multiply.lean ====
section
/-! DEFINITION. The shift-and-add multiplier and the command MUL (45_multiply.md). -/

namespace Sys2Proof.Machine

/-- The multiplier's loop over the bit positions of the driving operand: for each set bit `i` of `drv` the other operand
shifted left by `i` is added to the accumulator, under the overflow policy of the adder (45_multiply.md R211). -/
def mulLoop (c : Config) (drv other : Vec) : List Nat → Vec → Except Cause Vec
  | [], acc => .ok acc
  | i :: is, acc =>
    if getBitOf c drv.blk i = 1 then
      match addVec c acc (shlVec c other i) with
      | .ok acc' => mulLoop c drv other is acc'
      | .error f => .error f
    else mulLoop c drv other is acc

/-- `mul_v(a, b)`: the operand with fewer set bits drives, the first one on a tie; the accumulator has width `N1 + N2`
(45_multiply.md R211). -/
def mulVec (c : Config) (a b : Vec) : Except Cause Vec :=
  let n := a.n + b.n
  if popcount b.n (b.val c) < popcount a.n (a.val c) then
    mulLoop c b (a.convert c n) (List.range b.n) (mkVec c n 0)
  else
    mulLoop c a (b.convert c n) (List.range a.n) (mkVec c n 0)

/-- MUL (45_multiply.md R210). -/
def execMul (rd rs1 rs2 : Reg) (s : State) : Host.Outcome State Fault Refusal :=
  runCommand s do
    let (a, b) ← readVecs s rs1 rs2
    checkWidth s.config (a.n + b.n)
    let r ← mulVec s.config a b
    .ok (respond (writeVec s rd r) false 0)

end Sys2Proof.Machine
end

