-- ==== Sys2Proof/Machine/Storage.lean ====
section
/-! DEFINITION. Storage access and queries: LDB, STB, BGET, BSET, BFLIP, SIZE, COUNT, ALL, ANY, NONE, TONUM
(41_storage_access.md). -/

namespace Sys2Proof.Machine

/-- LDB (41_storage_access.md R120). -/
def execLdb (rd : Reg) (imm : Imm) (s : State) : Host.Outcome State Fault Refusal :=
  runCommand s do
    let t ← memWriteBlock s rd imm.toNat (opaBlock s)
    .ok (respond t false 0)

/-- STB (41_storage_access.md R121). -/
def execStb (rs1 : Reg) (imm : Imm) (s : State) : Host.Outcome State Fault Refusal :=
  runCommand s do
    let d ← memReadBlock s rs1 imm.toNat
    .ok (respond s false d)

/-- BGET (41_storage_access.md R122). -/
def execBget (rs1 : Reg) (imm : Imm) (s : State) : Host.Outcome State Fault Refusal :=
  runCommand s do
    let b ← memReadBit s rs1 imm.toNat
    .ok (respond s (flagOfBit b) 0)

/-- BSET (41_storage_access.md R123). -/
def execBset (rd : Reg) (imm : Imm) (s : State) : Host.Outcome State Fault Refusal :=
  runCommand s do
    let t ← memWriteBit s rd imm.toNat (opaBit s)
    .ok (respond t false 0)

/-- BFLIP (41_storage_access.md R124). -/
def execBflip (rd : Reg) (imm : Imm) (s : State) : Host.Outcome State Fault Refusal :=
  runCommand s do
    let b ← memReadBit s rd imm.toNat
    let t ← memWriteBit s rd imm.toNat (1 - b)
    .ok (respond t false 0)

/-- SIZE (41_storage_access.md R125). -/
def execSize (rs1 : Reg) (s : State) : Host.Outcome State Fault Refusal :=
  runCommand s do
    let a ← readVec s rs1
    .ok (respond s false a.n)

/-- COUNT (41_storage_access.md R126). -/
def execCount (rs1 : Reg) (s : State) : Host.Outcome State Fault Refusal :=
  runCommand s do
    let a ← readVec s rs1
    .ok (respond s false (popcount a.n (a.val s.config)))

/-- ALL (41_storage_access.md R127). -/
def execAll (rs1 : Reg) (s : State) : Host.Outcome State Fault Refusal :=
  runCommand s do
    let a ← readVec s rs1
    .ok (respond s (allFlag s.config a) 0)

/-- ANY (41_storage_access.md R128). -/
def execAny (rs1 : Reg) (s : State) : Host.Outcome State Fault Refusal :=
  runCommand s do
    let a ← readVec s rs1
    .ok (respond s (anyFlag s.config a) 0)

/-- NONE (41_storage_access.md R129). -/
def execNone (rs1 : Reg) (s : State) : Host.Outcome State Fault Refusal :=
  runCommand s do
    let a ← readVec s rs1
    .ok (respond s (noneFlag s.config a) 0)

/-- TONUM: `val mod 2^64` (41_storage_access.md R130). -/
def execTonum (rs1 : Reg) (s : State) : Host.Outcome State Fault Refusal :=
  runCommand s do
    let a ← readVec s rs1
    .ok (respond s false (a.val s.config % 2 ^ 64))

end Sys2Proof.Machine
end

