-- ==== Sys2Proof/Machine/System.lean ====
section
/-! DEFINITION. The system commands NOP and RDSR (48_system.md). -/

namespace Sys2Proof.Machine

/-- NOP (48_system.md R260). -/
def execNop (s : State) : Host.Outcome State Fault Refusal :=
  runCommand s (.ok (respond s false 0))

/-- RDSR: the one command that executes in the FAULTED state too. A number above 2 is an illegal command: refused with
`Halted` in the FAULTED state, else `IllegalCommand` (48_system.md R261, 60_exceptions.md R279). -/
def execRdsr (imm : Imm) (s : State) : Host.Outcome State Fault Refusal :=
  match systemRegister s imm.toNat with
  | some v => .next (respond s false v)
  | none => rejectCommand s

end Sys2Proof.Machine
end

