-- ==== Sys2Proof/Machine/Dispatch.lean ====
section
/-! DEFINITION. The meaning of every instruction: one arm per constructor of Instr, each a direct call. -/

namespace Sys2Proof.Machine

def exec (i : Instr) (s : State) : Host.Outcome State Fault Refusal :=
  match i with
  | .nop => Sys2Proof.Machine.execNop s
  | .rdsr imm => Sys2Proof.Machine.execRdsr imm s
  | .zero rd imm => Sys2Proof.Machine.execZero rd imm s
  | .ldi rd imm => Sys2Proof.Machine.execLdi rd imm s
  | .mov rd rs1 => Sys2Proof.Machine.execMov rd rs1 s
  | .cvt rd rs1 imm => Sys2Proof.Machine.execCvt rd rs1 imm s
  | .ldb rd imm => Sys2Proof.Machine.execLdb rd imm s
  | .stb rs1 imm => Sys2Proof.Machine.execStb rs1 imm s
  | .bget rs1 imm => Sys2Proof.Machine.execBget rs1 imm s
  | .bset rd imm => Sys2Proof.Machine.execBset rd imm s
  | .bflip rd imm => Sys2Proof.Machine.execBflip rd imm s
  | .size rs1 => Sys2Proof.Machine.execSize rs1 s
  | .count rs1 => Sys2Proof.Machine.execCount rs1 s
  | .all rs1 => Sys2Proof.Machine.execAll rs1 s
  | .any rs1 => Sys2Proof.Machine.execAny rs1 s
  | .none rs1 => Sys2Proof.Machine.execNone rs1 s
  | .tonum rs1 => Sys2Proof.Machine.execTonum rs1 s
  | .addb cin => Sys2Proof.Machine.execAddb cin s
  | .subb cin => Sys2Proof.Machine.execSubb cin s
  | .bshl rd rs1 imm => Sys2Proof.Machine.execBshl rd rs1 imm s
  | .bshr rd rs1 imm => Sys2Proof.Machine.execBshr rd rs1 imm s
  | .sshl rd rs1 imm => Sys2Proof.Machine.execSshl rd rs1 imm s
  | .sshr rd rs1 imm => Sys2Proof.Machine.execSshr rd rs1 imm s
  | .shl rd rs1 imm => Sys2Proof.Machine.execShl rd rs1 imm s
  | .shr rd rs1 imm => Sys2Proof.Machine.execShr rd rs1 imm s
  | .add rd rs1 rs2 => Sys2Proof.Machine.execAdd rd rs1 rs2 s
  | .sub rd rs1 rs2 => Sys2Proof.Machine.execSub rd rs1 rs2 s
  | .twoc rd rs1 => Sys2Proof.Machine.execTwoc rd rs1 s
  | .mul rd rs1 rs2 => Sys2Proof.Machine.execMul rd rs1 rs2 s
  | .div rd rs1 rs2 => Sys2Proof.Machine.execDiv rd rs1 rs2 s
  | .rem rd rs1 rs2 => Sys2Proof.Machine.execRem rd rs1 rs2 s
  | .divr rd rd2 rs1 rs2 => Sys2Proof.Machine.execDivr rd rd2 rs1 rs2 s
  | .and rd rs1 rs2 => Sys2Proof.Machine.execAnd rd rs1 rs2 s
  | .or rd rs1 rs2 => Sys2Proof.Machine.execOr rd rs1 rs2 s
  | .not rd rs1 => Sys2Proof.Machine.execNot rd rs1 s
  | .cmp rs1 rs2 => Sys2Proof.Machine.execCmp rs1 rs2 s

end Sys2Proof.Machine
end

