-- ==== Sys2Proof/Machine/Step.lean ====
section
/-! DEFINITION. One step of BVCORE: one whole command, or reset (00_scope.md R19; 70_reset_and_hazards.md R300). -/

namespace Sys2Proof.Machine

/-- The command on the port is decoded and executed, or rejected (30_encoding.md R75). -/
def runPort (s : State) : Host.Outcome State Fault Refusal :=
  match decode s.port.cmd with
  | .ok i => exec i s
  | .error _ => rejectCommand s

/-- One step. The host's next event is taken: a command is put on the port and answered, reset is applied. With nothing
pending the block is idle and nothing changes (60_exceptions.md R281: nothing but a command or reset ever changes the
state). An illegal configuration is refused (93_implementation_defined.md U19). -/
def step (s : State) : Host.Outcome State Fault Refusal :=
  if s.config.legal then
    match s.pending with
    | [] => .next s
    | .rst :: _ => .next (applyReset (dropEvent s))
    | .command t :: _ => runPort (presentTransaction (dropEvent s) t)
  else .refused .illegalConfig

/-- The state in which the host presents next the command whose bits are `w`, with the data operands that stand on the
port (assumption 3). -/
def State.withFetchWord (s : State) (nbits w : Nat) : State :=
  presentNext s { s.port with cmd := BitVec.ofNat 32 (w % 2 ^ nbits) }

end Sys2Proof.Machine
end

