-- ==== Sys2Proof/Safety.lean ====
section
/-! DEFINITION. The terms claims are stated in: well-formed vectors and registers, the invariant of every state a run
reaches, what a register holds, which registers a command reads and writes, which fault a command raises, and what counts
as a clean answer. -/

namespace Sys2Proof.Machine

/-- A well-formed vector value in configuration `c`: a width from 1 to `NMAX`, `CAP` blocks of `W` bits, trimmed
(00_scope.md R8; 10_state.md R22, R23, R25). -/
abbrev Vec.Wf (c : Config) (v : Vec) : Prop :=
  1 ≤ v.n ∧ v.n ≤ c.nmax ∧ v.blk.length = c.cap ∧ (∀ b ∈ v.blk, b < 2 ^ c.W) ∧ trimTo c v.n v.blk = v.blk

/-- A register is unconstructed or holds a well-formed vector (10_state.md R22, R25). -/
abbrev VReg.Wf (c : Config) (r : VReg) : Prop := r.n = 0 ∨ Vec.Wf c r.toVec

/-- The fault registers: the reserved bits of `FSR` are 0, `CAUSE` and `FCMD` are 0 while `H` is 0, and `CAUSE` is a
fault's code, 1 to 6, while `H` is 1 (10_state.md R34, R35; 60_exceptions.md R270). -/
abbrev FaultRegsWf (s : State) : Prop :=
  fsrReserved s.fsr = 0 ∧
  if isHalted s then 1 ≤ (fsrCause s.fsr).toNat ∧ (fsrCause s.fsr).toNat ≤ 6
  else fsrCause s.fsr = 0 ∧ s.fcmd = 0

/-- The invariant of BVCORE: a legal configuration, every register well formed (the trim invariant, 10_state.md R25, and
the width bound, R22), and the fault registers well formed. -/
abbrev Inv (s : State) : Prop :=
  s.config.legal = true ∧ (∀ r : Reg, VReg.Wf s.config (regAt s r)) ∧ FaultRegsWf s

/-- Register `r` is constructed and holds the vector `mk(n, x)` (00_scope.md R8). -/
abbrev Holds (s : State) (r : Reg) (n x : Nat) : Prop :=
  1 ≤ n ∧ n ≤ s.config.nmax ∧ x < 2 ^ n ∧ regAt s r = (mkVec s.config n x).toReg

/-- A legal configuration, and the block is not in the FAULTED state: the premise under which a command executes
(60_exceptions.md R280). -/
abbrev Ready (s : State) : Prop := s.config.legal = true ∧ isHalted s = false

/-! Which registers a command reads and writes (10_state.md R28). -/

/-- The registers a command writes, with a new value or in place. -/
def destinations : Instr → List Reg
  | .nop => []
  | .rdsr _ => []
  | .zero rd _ => [rd]
  | .ldi rd _ => [rd]
  | .mov rd _ => [rd]
  | .cvt rd _ _ => [rd]
  | .ldb rd _ => [rd]
  | .stb _ _ => []
  | .bget _ _ => []
  | .bset rd _ => [rd]
  | .bflip rd _ => [rd]
  | .size _ => []
  | .count _ => []
  | .all _ => []
  | .any _ => []
  | .none _ => []
  | .tonum _ => []
  | .addb _ => []
  | .subb _ => []
  | .bshl rd _ _ => [rd]
  | .bshr rd _ _ => [rd]
  | .sshl rd _ _ => [rd]
  | .sshr rd _ _ => [rd]
  | .shl rd _ _ => [rd]
  | .shr rd _ _ => [rd]
  | .add rd _ _ => [rd]
  | .sub rd _ _ => [rd]
  | .twoc rd _ => [rd]
  | .mul rd _ _ => [rd]
  | .div rd _ _ => [rd]
  | .rem rd _ _ => [rd]
  | .divr rd rd2 _ _ => [rd, rd2]
  | .and rd _ _ => [rd]
  | .or rd _ _ => [rd]
  | .not rd _ => [rd]
  | .cmp _ _ => []

/-- The registers a command reads as sources, `rs1` and `rs2`. -/
def sources : Instr → List Reg
  | .nop => []
  | .rdsr _ => []
  | .zero _ _ => []
  | .ldi _ _ => []
  | .mov _ rs1 => [rs1]
  | .cvt _ rs1 _ => [rs1]
  | .ldb _ _ => []
  | .stb rs1 _ => [rs1]
  | .bget rs1 _ => [rs1]
  | .bset _ _ => []
  | .bflip _ _ => []
  | .size rs1 => [rs1]
  | .count rs1 => [rs1]
  | .all rs1 => [rs1]
  | .any rs1 => [rs1]
  | .none rs1 => [rs1]
  | .tonum rs1 => [rs1]
  | .addb _ => []
  | .subb _ => []
  | .bshl _ rs1 _ => [rs1]
  | .bshr _ rs1 _ => [rs1]
  | .sshl _ rs1 _ => [rs1]
  | .sshr _ rs1 _ => [rs1]
  | .shl _ rs1 _ => [rs1]
  | .shr _ rs1 _ => [rs1]
  | .add _ rs1 rs2 => [rs1, rs2]
  | .sub _ rs1 rs2 => [rs1, rs2]
  | .twoc _ rs1 => [rs1]
  | .mul _ rs1 rs2 => [rs1, rs2]
  | .div _ rs1 rs2 => [rs1, rs2]
  | .rem _ rs1 rs2 => [rs1, rs2]
  | .divr _ _ rs1 rs2 => [rs1, rs2]
  | .and _ rs1 rs2 => [rs1, rs2]
  | .or _ rs1 rs2 => [rs1, rs2]
  | .not _ rs1 => [rs1]
  | .cmp rs1 rs2 => [rs1, rs2]

/-- The registers a command modifies in place. -/
def inPlace : Instr → List Reg
  | .nop => []
  | .rdsr _ => []
  | .zero _ _ => []
  | .ldi _ _ => []
  | .mov _ _ => []
  | .cvt _ _ _ => []
  | .ldb rd _ => [rd]
  | .stb _ _ => []
  | .bget _ _ => []
  | .bset rd _ => [rd]
  | .bflip rd _ => [rd]
  | .size _ => []
  | .count _ => []
  | .all _ => []
  | .any _ => []
  | .none _ => []
  | .tonum _ => []
  | .addb _ => []
  | .subb _ => []
  | .bshl _ _ _ => []
  | .bshr _ _ _ => []
  | .sshl _ _ _ => []
  | .sshr _ _ _ => []
  | .shl _ _ _ => []
  | .shr _ _ _ => []
  | .add _ _ _ => []
  | .sub _ _ _ => []
  | .twoc _ _ => []
  | .mul _ _ _ => []
  | .div _ _ _ => []
  | .rem _ _ _ => []
  | .divr _ _ _ _ => []
  | .and _ _ _ => []
  | .or _ _ _ => []
  | .not _ _ => []
  | .cmp _ _ => []

/-! Which fault a command raises, on the values its registers hold (60_exceptions.md R273 to R278). -/

/-- The width field of a register as an integer. -/
abbrev widthOf (s : State) (r : Reg) : Nat := (regAt s r).n.toNat

/-- The value of a register: the sum of `blk[k] * 2^(W*k)` (10_state.md R24). -/
abbrev valueAt (s : State) (r : Reg) : Nat := (regAt s r).toVec.val s.config

/-- A width no register can hold (40_construct_convert.md R106). -/
def widthIllegal (c : Config) (n : Nat) : Bool := decide (n = 0 ∨ c.nmax < n)

/-- The command's width is one no register can hold (60_exceptions.md R277). -/
def widthFails (s : State) : Instr → Bool
  | .nop => false
  | .rdsr _ => false
  | .zero _ imm => widthIllegal s.config imm.toNat
  | .ldi _ imm => widthIllegal s.config imm.toNat
  | .mov _ _ => false
  | .cvt _ _ imm => widthIllegal s.config imm.toNat
  | .ldb _ _ => false
  | .stb _ _ => false
  | .bget _ _ => false
  | .bset _ _ => false
  | .bflip _ _ => false
  | .size _ => false
  | .count _ => false
  | .all _ => false
  | .any _ => false
  | .none _ => false
  | .tonum _ => false
  | .addb _ => false
  | .subb _ => false
  | .bshl _ _ _ => false
  | .bshr _ _ _ => false
  | .sshl _ _ _ => false
  | .sshr _ _ _ => false
  | .shl _ _ _ => false
  | .shr _ _ _ => false
  | .add _ _ _ => false
  | .sub _ _ _ => false
  | .twoc _ _ => false
  | .mul _ rs1 rs2 => widthIllegal s.config (widthOf s rs1 + widthOf s rs2)
  | .div _ _ _ => false
  | .rem _ _ _ => false
  | .divr _ _ _ _ => false
  | .and _ _ _ => false
  | .or _ _ _ => false
  | .not _ _ => false
  | .cmp _ _ => false

/-- The command's block or bit index lies outside the register (60_exceptions.md R273). -/
def indexFails (s : State) : Instr → Bool
  | .nop => false
  | .rdsr _ => false
  | .zero _ _ => false
  | .ldi _ _ => false
  | .mov _ _ => false
  | .cvt _ _ _ => false
  | .ldb rd imm => decide (blockCount s.config (widthOf s rd) ≤ imm.toNat)
  | .stb rs1 imm => decide (blockCount s.config (widthOf s rs1) ≤ imm.toNat)
  | .bget rs1 imm => decide (widthOf s rs1 ≤ imm.toNat)
  | .bset rd imm => decide (widthOf s rd ≤ imm.toNat)
  | .bflip rd imm => decide (widthOf s rd ≤ imm.toNat)
  | .size _ => false
  | .count _ => false
  | .all _ => false
  | .any _ => false
  | .none _ => false
  | .tonum _ => false
  | .addb _ => false
  | .subb _ => false
  | .bshl _ _ _ => false
  | .bshr _ _ _ => false
  | .sshl _ _ _ => false
  | .sshr _ _ _ => false
  | .shl _ _ _ => false
  | .shr _ _ _ => false
  | .add _ _ _ => false
  | .sub _ _ _ => false
  | .twoc _ _ => false
  | .mul _ _ _ => false
  | .div _ _ _ => false
  | .rem _ _ _ => false
  | .divr _ _ _ _ => false
  | .and _ _ _ => false
  | .or _ _ _ => false
  | .not _ _ => false
  | .cmp _ _ => false

/-- The command divides by the zero vector (60_exceptions.md R274). -/
def divisorIsZero (s : State) : Instr → Bool
  | .nop => false
  | .rdsr _ => false
  | .zero _ _ => false
  | .ldi _ _ => false
  | .mov _ _ => false
  | .cvt _ _ _ => false
  | .ldb _ _ => false
  | .stb _ _ => false
  | .bget _ _ => false
  | .bset _ _ => false
  | .bflip _ _ => false
  | .size _ => false
  | .count _ => false
  | .all _ => false
  | .any _ => false
  | .none _ => false
  | .tonum _ => false
  | .addb _ => false
  | .subb _ => false
  | .bshl _ _ _ => false
  | .bshr _ _ _ => false
  | .sshl _ _ _ => false
  | .sshr _ _ _ => false
  | .shl _ _ _ => false
  | .shr _ _ _ => false
  | .add _ _ _ => false
  | .sub _ _ _ => false
  | .twoc _ _ => false
  | .mul _ _ _ => false
  | .div _ _ rs2 => valueAt s rs2 == 0
  | .rem _ _ rs2 => valueAt s rs2 == 0
  | .divr _ _ _ rs2 => valueAt s rs2 == 0
  | .and _ _ _ => false
  | .or _ _ _ => false
  | .not _ _ => false
  | .cmp _ _ => false

/-- The command's sum does not fit the result width (60_exceptions.md R278). -/
def sumOverflows (s : State) : Instr → Bool
  | .nop => false
  | .rdsr _ => false
  | .zero _ _ => false
  | .ldi _ _ => false
  | .mov _ _ => false
  | .cvt _ _ _ => false
  | .ldb _ _ => false
  | .stb _ _ => false
  | .bget _ _ => false
  | .bset _ _ => false
  | .bflip _ _ => false
  | .size _ => false
  | .count _ => false
  | .all _ => false
  | .any _ => false
  | .none _ => false
  | .tonum _ => false
  | .addb _ => false
  | .subb _ => false
  | .bshl _ _ _ => false
  | .bshr _ _ _ => false
  | .sshl _ _ _ => false
  | .sshr _ _ _ => false
  | .shl _ _ _ => false
  | .shr _ _ _ => false
  | .add _ rs1 rs2 => decide (2 ^ max (widthOf s rs1) (widthOf s rs2) ≤ valueAt s rs1 + valueAt s rs2)
  | .sub _ _ _ => false
  | .twoc _ rs1 => valueAt s rs1 == 0
  | .mul _ _ _ => false
  | .div _ _ _ => false
  | .rem _ _ _ => false
  | .divr _ _ _ _ => false
  | .and _ _ _ => false
  | .or _ _ _ => false
  | .not _ _ => false
  | .cmp _ _ => false

/-- The fault a command raises in a state that is not FAULTED: the first in the order of 60_exceptions.md R283, none if no
condition holds. -/
def firstFault (s : State) (i : Instr) : Option Cause :=
  if !i.wellFormed s.config then some .illegalCommand
  else if (sources i ++ inPlace i).any (isUnconstructed s) then some .unconstructed
  else if widthFails s i then some .widthError
  else if indexFails s i then some .outOfRange
  else if divisorIsZero s i then some .divisionByZero
  else if sumOverflows s i then some .overflow
  else none

/-! What an outcome may depend on. -/

/-- Two transactions agree on the data operand bits the command uses (30_encoding.md R79). -/
def sameOperands (c : Config) (p q : Transaction) : Instr → Prop
  | .nop => True
  | .rdsr _ => True
  | .zero _ _ => True
  | .ldi _ _ => p.opa = q.opa
  | .mov _ _ => True
  | .cvt _ _ _ => True
  | .ldb _ _ => p.opa.toNat % 2 ^ c.W = q.opa.toNat % 2 ^ c.W
  | .stb _ _ => True
  | .bget _ _ => True
  | .bset _ _ => p.opa.toNat % 2 = q.opa.toNat % 2
  | .bflip _ _ => True
  | .size _ => True
  | .count _ => True
  | .all _ => True
  | .any _ => True
  | .none _ => True
  | .tonum _ => True
  | .addb _ => p.opa.toNat % 2 ^ c.W = q.opa.toNat % 2 ^ c.W ∧ p.opb.toNat % 2 ^ c.W = q.opb.toNat % 2 ^ c.W
  | .subb _ => p.opa.toNat % 2 ^ c.W = q.opa.toNat % 2 ^ c.W ∧ p.opb.toNat % 2 ^ c.W = q.opb.toNat % 2 ^ c.W
  | .bshl _ _ _ => True
  | .bshr _ _ _ => True
  | .sshl _ _ _ => True
  | .sshr _ _ _ => True
  | .shl _ _ _ => True
  | .shr _ _ _ => True
  | .add _ _ _ => True
  | .sub _ _ _ => True
  | .twoc _ _ => True
  | .mul _ _ _ => True
  | .div _ _ _ => True
  | .rem _ _ _ => True
  | .divr _ _ _ _ => True
  | .and _ _ _ => True
  | .or _ _ _ => True
  | .not _ _ => True
  | .cmp _ _ => True

/-- The commands whose result depends on the block width (00_scope.md R6). -/
def blockWidthDependent : Instr → Bool
  | .nop => false
  | .rdsr _ => true
  | .zero _ _ => false
  | .ldi _ _ => false
  | .mov _ _ => false
  | .cvt _ _ _ => false
  | .ldb _ _ => true
  | .stb _ _ => true
  | .bget _ _ => false
  | .bset _ _ => false
  | .bflip _ _ => false
  | .size _ => false
  | .count _ => false
  | .all _ => false
  | .any _ => false
  | .none _ => false
  | .tonum _ => false
  | .addb _ => true
  | .subb _ => true
  | .bshl _ _ _ => true
  | .bshr _ _ _ => true
  | .sshl _ _ _ => true
  | .sshr _ _ _ => true
  | .shl _ _ _ => false
  | .shr _ _ _ => false
  | .add _ _ _ => false
  | .sub _ _ _ => false
  | .twoc _ _ => false
  | .mul _ _ _ => false
  | .div _ _ _ => false
  | .rem _ _ _ => false
  | .divr _ _ _ _ => false
  | .and _ _ _ => false
  | .or _ _ _ => false
  | .not _ _ => false
  | .cmp _ _ => false

/-- Two states that differ at most in the blocks of registers that are unconstructed in both (10_state.md R27, R39). -/
abbrev SameObservable (s t : State) : Prop :=
  t.config = s.config ∧ t.fsr = s.fsr ∧ t.fcmd = s.fcmd ∧ t.pending = s.pending ∧ t.port = s.port ∧
  t.response = s.response ∧
  ∀ r : Reg, (regAt t r).n = (regAt s r).n ∧ ((regAt s r).n ≠ 0 → regAt t r = regAt s r)

/-- Register `r` is unconstructed in both states, or holds the same vector value in both, whatever their block widths. -/
abbrev SameVector (s t : State) (r : Reg) : Prop :=
  ((regAt s r).n = 0 ∧ (regAt t r).n = 0) ∨ ∃ n x, Holds s r n x ∧ Holds t r n x

/-- The answer in the response of a state has status `OK`. -/
def answeredOk (s : State) : Bool :=
  match s.response with
  | some r => r.status == .ok
  | none => false

/-- The state after `k` steps, each of which answered a next state. -/
def afterSteps : Nat → State → Option State
  | 0, s => some s
  | k + 1, s =>
    match step s with
    | .next t => afterSteps k t
    | .fault _ => none
    | .refused _ => none

/-- The next `k` steps are clean: a safe run (70_reset_and_hazards.md R307). -/
def runIsClean : Nat → State → Bool
  | 0, _ => true
  | k + 1, s =>
    match step s with
    | .next t => !isHalted t && runIsClean k t
    | .fault _ => false
    | .refused _ => false

end Sys2Proof.Machine
end

