-- ==== Sys2Proof/Certificates/Slice0/Obligations.lean ====
section
/-! DEFINITION. The statements for the provers. Each docstring names the rule of spec/ a statement formalises or says that it
is the model's own. A statement that is "derived" rests on a law the spec itself derives or supplies, or on a choice of the
model that its docstring names. -/

section

open Sys2Proof Sys2Proof.Machine

/-! Command words. -/

/-- 30_encoding.md R71, R72, R74: no bit of an encoding is dropped. Every instruction, with every operand at every value. -/
def Obligations.DecodeOfEncode : Prop := ∀ i : Instr, decode (encode i) = .ok i

/-- 30_encoding.md R71, R72, R74: every accepted word is the encoding of what it decodes to, so that no word is accepted
with a bit that means nothing. -/
def Obligations.EncodeOfDecode : Prop := ∀ (w : CmdWord) (i : Instr), decode w = .ok i → encode i = w

/-- 30_encoding.md R72, R74, R75: the decoder accepts a word exactly when some row of the opcode map matches it under the
mask of the row's format, and no word matches two rows. -/
def Obligations.EveryWordMatchesAtMostOneRow : Prop :=
  ∀ w : CmdWord,
    ((∃ i, decode w = .ok i) ↔ ∃ row ∈ opcodeRows, w &&& row.2.mask = matchWord row.1) ∧
    ∀ p ∈ opcodeRows, ∀ q ∈ opcodeRows,
      w &&& p.2.mask = matchWord p.1 → w &&& q.2.mask = matchWord q.1 → p = q

/-- 30_encoding.md R76: the words that raise `IllegalCommand`, in exactly the five cases of the rule, from the command word
and the configuration alone. -/
def Obligations.IllegalCommandExactly : Prop :=
  ∀ s : State, isHalted s = false →
    (runPort s = .next (enterFault s .illegalCommand) ↔
      (opcodeField s.port.cmd).toNat ∈
          [0x00, 0x03, 0x04, 0x05, 0x06, 0x07, 0x0C, 0x0D, 0x0E, 0x0F, 0x1B, 0x1E, 0x1F, 0x26, 0x27, 0x2F]
            ++ [0x34, 0x35, 0x36, 0x37, 0x38, 0x39, 0x3A, 0x3B, 0x3C, 0x3D, 0x3E, 0x3F] ∨
      (∃ row ∈ opcodeRows, opcodeField s.port.cmd = row.1 ∧ s.port.cmd &&& row.2.mask ≠ matchWord row.1) ∨
      ((opcodeField s.port.cmd = 0x22#6 ∨ opcodeField s.port.cmd = 0x23#6) ∧
        s.config.W ≤ (immField s.port.cmd).toNat) ∨
      (opcodeField s.port.cmd = 0x02#6 ∧ 2 < (immField s.port.cmd).toNat) ∨
      (opcodeField s.port.cmd = 0x2E#6 ∧ rdBits s.port.cmd = s.port.cmd.extractLsb' 0 4))

/-- Words of the spec's examples, at least one of each format, decode to the instruction they stand for. -/
def Obligations.ExampleWordsDecode : Prop :=
  decode 0x04000000#32 = .ok .nop ∧ decode 0x08000001#32 = .ok (.rdsr 1) ∧
  decode 0x24400020#32 = .ok (.ldi 1 32) ∧ decode 0x28840000#32 = .ok (.mov 2 1) ∧
  decode 0x2CC40010#32 = .ok (.cvt 3 1 16) ∧ decode 0xA0C48000#32 = .ok (.add 3 1 2) ∧
  decode 0xB8C48004#32 = .ok (.divr 3 4 1 2) ∧ decode 0x54040000#32 = .ok (.size 1) ∧
  decode 0x48040003#32 = .ok (.bget 1 3) ∧ decode 0xCC048000#32 = .ok (.cmp 1 2) ∧
  decode 0x70000001#32 = .ok (.addb true) ∧ decode 0x00000000#32 = .error .unassignedOpcode ∧
  decode 0xFFFFFFFF#32 = .error .unassignedOpcode

/-! The step. -/

/-- A step runs the decoded instruction: the host's next command is put on the port, and the step is `exec` of what it
decodes to. 00_scope.md R19: "A step of the model is one whole command"; the port and the pending events are the model's
(assumption 3). -/
def Obligations.StepRunsDecodedInstruction : Prop :=
  ∀ (s : State) (t : Transaction) (rest : List HostEvent) (i : Instr),
    s.config.legal = true → s.pending = .command t :: rest → decode t.cmd = .ok i →
      step s = exec i { s with pending := rest, port := t }

/-- A word that decodes to nothing raises `IllegalCommand`, or is refused with `Halted` in the FAULTED state
(30_encoding.md R75, steps 1 and 2). -/
def Obligations.StepRejectsUndecodableWord : Prop :=
  ∀ (s : State) (t : Transaction) (rest : List HostEvent) (e : DecodeError),
    s.config.legal = true → s.pending = .command t :: rest → decode t.cmd = .error e →
      step s = .next (if isHalted s then answerHalted { s with pending := rest, port := t }
        else enterFault { s with pending := rest, port := t } .illegalCommand)

/-- Reset, from any state including the FAULTED state (70_reset_and_hazards.md R300, 10_state.md R39). That the reset is an
event between steps, and what it does to the port, the response and the pending events, is the model's choice
(assumptions 3 and 4). -/
def Obligations.StepAppliesReset : Prop :=
  ∀ (s : State) (rest : List HostEvent), s.config.legal = true → s.pending = .rst :: rest →
    ∃ t, step s = .next t ∧ t.config = s.config ∧ t.pending = rest ∧ t.response = none ∧
      (∀ r : Reg, (regAt t r).n = 0) ∧ fsrH t.fsr = false ∧ fsrCause t.fsr = 0 ∧ fsrReserved t.fsr = 0 ∧ t.fcmd = 0 ∧
      systemRegister t 0 = systemRegister s 0

/-- The model's own conventions for a step that the spec does not name: with nothing pending nothing changes
(assumption 3; 60_exceptions.md R281: nothing but a command or reset changes the state), and an illegal configuration is
refused (assumption 5; 93_implementation_defined.md U19). -/
def Obligations.IdleStepAndIllegalConfiguration : Prop :=
  ∀ s : State,
    (s.config.legal = true → s.pending = [] → step s = .next s) ∧
    (s.config.legal = false → step s = .refused .illegalConfig)

/-- The state after reset (10_state.md R39): the values the spec gives, in `State.reset` and in every legal configuration,
`CFG` at its constant value (R33). Nothing is said of the blocks, which the rule leaves unspecified. -/
def Obligations.ResetValues : Prop :=
  ∀ s : State, s = State.reset ∨ (∃ c : Config, c.legal = true ∧ s = State.resetIn c) →
    (∀ r : Reg, (regAt s r).n = 0) ∧ fsrH s.fsr = false ∧ fsrCause s.fsr = 0 ∧ fsrReserved s.fsr = 0 ∧ s.fcmd = 0 ∧
    systemRegister s 0 = some (1 * 2 ^ 24 + 16 * 2 ^ 16 + s.config.cap * 2 ^ 8 + s.config.W)

/-! Outcomes and faults. -/

/-- 60_exceptions.md R271, 70_reset_and_hazards.md R306: every command on the port is answered, and the answer is one of
three: completed with `OK`, faulted, or refused in the FAULTED state. -/
def Obligations.ThreeOutcomesOfEveryCommand : Prop :=
  ∀ s : State, ∃ t, runPort s = .next t ∧
    ((∃ flag d, t.response = some { status := .ok, flag := flag, rdata := d } ∧ t.fsr = s.fsr ∧ t.fcmd = s.fcmd) ∨
     (isHalted s = false ∧ ∃ f, t = enterFault s f) ∨
     (isHalted s = true ∧ t = answerHalted s))

/-- 60_exceptions.md R272, with the codes of R270: what fault entry leaves. -/
def Obligations.FaultEntryEffects : Prop :=
  ∀ (s t : State) (f : Cause) (flag : Bool) (d : DataWord), isHalted s = false → runPort s = .next t →
    t.response = some { status := .fault f, flag := flag, rdata := d } →
      (∀ r : Reg, regAt t r = regAt s r) ∧ fsrH t.fsr = true ∧ fsrReserved t.fsr = fsrReserved s.fsr ∧
      (f, fsrCause t.fsr) ∈ [(Cause.outOfRange, 1#4), (.divisionByZero, 2#4), (.overflow, 3#4), (.illegalCommand, 4#4),
        (.unconstructed, 5#4), (.widthError, 6#4)] ∧
      t.fcmd = s.port.cmd ∧ flag = false ∧ d = 0 ∧
      t.config = s.config ∧ t.pending = s.pending ∧ t.port = s.port

/-- 60_exceptions.md R279: in the FAULTED state a legal RDSR executes, and every other transaction answers `Halted` and
changes nothing. -/
def Obligations.FaultedStateRefusesAllButRdsr : Prop :=
  ∀ s : State, fsrH s.fsr = true →
    (s.port.cmd &&& 0xFFFFC000#32 = 0x08000000#32 → (immField s.port.cmd).toNat ≤ 2 →
      ∃ v, systemRegister s (immField s.port.cmd).toNat = some v ∧ runPort s = .next (respond s false v)) ∧
    (¬(s.port.cmd &&& 0xFFFFC000#32 = 0x08000000#32 ∧ (immField s.port.cmd).toNat ≤ 2) →
      runPort s = .next { s with response := some { status := .halted, flag := false, rdata := 0 } })

/-- 70_reset_and_hazards.md R301: reset leaves the FAULTED state and makes registers unconstructed, and nothing else
does. That a reset is an event between steps is the model's choice (assumption 4). -/
def Obligations.OnlyResetLeavesFaultedOrUnconstructs : Prop :=
  (∀ s t : State, step s = .next t →
    ((isHalted s = true ∧ isHalted t = false) ∨ ∃ r : Reg, (regAt s r).n ≠ 0 ∧ (regAt t r).n = 0) →
      ∃ rest, s.pending = .rst :: rest) ∧
  (∀ (s : State) (rest : List HostEvent), s.config.legal = true → s.pending = .rst :: rest →
    ∃ t, step s = .next t ∧ isHalted t = false ∧ ∀ r : Reg, (regAt t r).n = 0)

/-- 70_reset_and_hazards.md R307: a run of commands that is FAULTED at its end has a first faulting step; the registers are
those before that step, and `FSR` and `FCMD` those it wrote. -/
def Obligations.FirstFaultFreezesTheRun : Prop :=
  ∀ (k : Nat) (s t : State), (∀ e ∈ s.pending, e ≠ .rst) → isHalted s = false → afterSteps k s = some t →
    isHalted t = true →
      ∃ j u v f, j < k ∧ runIsClean j s = true ∧ afterSteps j s = some u ∧ isHalted u = false ∧ step u = .next v ∧
        v.response = some { status := .fault f, flag := false, rdata := 0 } ∧
        (∀ r : Reg, regAt t r = regAt u r) ∧ t.fsr = v.fsr ∧ t.fcmd = v.fcmd

/-- 60_exceptions.md R273: the commands that raise `OutOfRange`, and when; the index is in the low 14 bits of `FCMD`. -/
def Obligations.OutOfRangeExactly : Prop :=
  ∀ (i : Instr) (s : State), isHalted s = false →
    (exec i s = .next (enterFault s .outOfRange) ↔
      (∃ r imm, (i = .bget r imm ∨ i = .bset r imm ∨ i = .bflip r imm) ∧ (regAt s r).n ≠ 0 ∧
        (regAt s r).n.toNat ≤ imm.toNat) ∨
      (∃ r imm, (i = .ldb r imm ∨ i = .stb r imm) ∧ (regAt s r).n ≠ 0 ∧
        blockCount s.config (regAt s r).n.toNat ≤ imm.toNat)) ∧
    (s.port.cmd = encode i → ∀ r imm, (i = .bget r imm ∨ i = .bset r imm ∨ i = .bflip r imm ∨ i = .ldb r imm ∨
      i = .stb r imm) → immField (enterFault s .outOfRange).fcmd = imm)

/-- 60_exceptions.md R274: the commands that raise `DivisionByZero`, and when: whatever the dividend. -/
def Obligations.DivisionByZeroExactly : Prop :=
  ∀ (i : Instr) (s : State), isHalted s = false →
    (exec i s = .next (enterFault s .divisionByZero) ↔
      ∃ rd rs1 rs2, (i = .div rd rs1 rs2 ∨ i = .rem rd rs1 rs2 ∨ ∃ rd2, rd2 ≠ rd ∧ i = .divr rd rd2 rs1 rs2) ∧
        (regAt s rs1).n ≠ 0 ∧ (regAt s rs2).n ≠ 0 ∧ valueAt s rs2 = 0)

/-- 60_exceptions.md R276: `Unconstructed` is raised exactly when a register read as a source or modified in place holds no
value; a destination that is only written is never checked. -/
def Obligations.UnconstructedExactly : Prop :=
  ∀ (i : Instr) (s : State), isHalted s = false →
    (exec i s = .next (enterFault s .unconstructed) ↔
      i.wellFormed s.config = true ∧ ∃ r ∈ sources i ++ inPlace i, (regAt s r).n = 0)

/-- 60_exceptions.md R277: the commands that raise `WidthError`, and when. -/
def Obligations.WidthErrorExactly : Prop :=
  ∀ (i : Instr) (s : State), isHalted s = false →
    (exec i s = .next (enterFault s .widthError) ↔
      (∃ rd imm, (i = .zero rd imm ∨ i = .ldi rd imm) ∧ (imm.toNat = 0 ∨ s.config.nmax < imm.toNat)) ∨
      (∃ rd rs1 imm, i = .cvt rd rs1 imm ∧ (regAt s rs1).n ≠ 0 ∧ (imm.toNat = 0 ∨ s.config.nmax < imm.toNat)) ∨
      (∃ rd rs1 rs2, i = .mul rd rs1 rs2 ∧ (regAt s rs1).n ≠ 0 ∧ (regAt s rs2).n ≠ 0 ∧
        s.config.nmax < widthOf s rs1 + widthOf s rs2))

/-- 60_exceptions.md R278: the commands that raise `Overflow`, and when; in particular MUL never does. -/
def Obligations.OverflowExactly : Prop :=
  ∀ (i : Instr) (s : State), Inv s → isHalted s = false →
    (exec i s = .next (enterFault s .overflow) ↔
      (∃ rd rs1 rs2, i = .add rd rs1 rs2 ∧ (regAt s rs1).n ≠ 0 ∧ (regAt s rs2).n ≠ 0 ∧
        2 ^ max (widthOf s rs1) (widthOf s rs2) ≤ valueAt s rs1 + valueAt s rs2) ∨
      (∃ rd rs1, i = .twoc rd rs1 ∧ (regAt s rs1).n ≠ 0 ∧ valueAt s rs1 = 0))

/-- 60_exceptions.md R283: exactly one fault is reported, the first in the rule's order (`firstFault`), and a command with
no fault condition completes with `OK`; the `Halted` refusal comes before all of them. The last clause is the command word
that is no instruction. -/
def Obligations.FaultPriority : Prop :=
  (∀ (i : Instr) (s : State), Inv s →
    (isHalted s = true → (∀ imm, i = .rdsr imm → 2 < imm.toNat) → exec i s = .next (answerHalted s)) ∧
    (isHalted s = false →
      (∀ f, firstFault s i = some f → exec i s = .next (enterFault s f)) ∧
      (firstFault s i = none →
        ∃ t flag d, exec i s = .next t ∧ t.response = some { status := .ok, flag := flag, rdata := d }))) ∧
  ∀ (s : State) (e : DecodeError), decode s.port.cmd = .error e →
    runPort s = .next (if isHalted s then answerHalted s else enterFault s .illegalCommand)

/-! The invariant. -/

/-- The state after reset satisfies the invariant, in every legal configuration. -/
def Obligations.ResetSatisfiesInvariant : Prop :=
  Inv State.reset ∧ ∀ c : Config, c.legal = true → Inv (State.resetIn c)

/-- 10_state.md R22, R25, R34, R35, from every state and not only from those a run reaches: a step keeps every register
unconstructed or trimmed with a width from 1 to `NMAX`, and the fault registers well formed. -/
def Obligations.StepKeepsInvariant : Prop := ∀ s t : State, Inv s → step s = .next t → Inv t

/-- 10_state.md R24, R25: in a state of the invariant a constructed register holds exactly one vector value, its width field
and the weighted sum of its blocks; the per-instruction statements speak of such registers. -/
def Obligations.ConstructedRegisterHoldsOneVector : Prop :=
  ∀ (s : State) (r : Reg), Inv s → (regAt s r).n ≠ 0 →
    Holds s r (widthOf s r) (valueAt s r) ∧ ∀ n x, Holds s r n x → n = widthOf s r ∧ x = valueAt s r

/-! What a command may change and what it may depend on. -/

/-- 10_state.md R26, R28, R29: the frame of every instruction. A command changes no register but its destinations, keeps
the width of a register it modifies in place, and changes `FSR` and `FCMD` only by fault entry. -/
def Obligations.CommandChangesOnlyItsDestinations : Prop :=
  ∀ (i : Instr) (s t : State), exec i s = .next t →
    (∀ r : Reg, r ∉ destinations i → regAt t r = regAt s r) ∧
    (∀ r ∈ inPlace i, (regAt t r).n = (regAt s r).n) ∧
    ((t.fsr = s.fsr ∧ t.fcmd = s.fcmd) ∨ ∃ f, isHalted s = false ∧ t = enterFault s f) ∧
    t.config = s.config ∧ t.pending = s.pending ∧ t.port = s.port

/-- 10_state.md R28, R37: a command's answer and the values it writes depend on no register but its sources and the one it
modifies in place, and on no earlier response. -/
def Obligations.CommandReadsOnlyItsSources : Prop :=
  ∀ (i : Instr) (s t : State), t.config = s.config → t.fsr = s.fsr → t.fcmd = s.fcmd → t.port = s.port →
    (∀ r ∈ sources i ++ inPlace i, regAt t r = regAt s r) →
      ∃ s' t', exec i s = .next s' ∧ exec i t = .next t' ∧ t'.response = s'.response ∧ t'.fsr = s'.fsr ∧
        t'.fcmd = s'.fcmd ∧ (answeredOk s' = true → ∀ r ∈ destinations i, regAt t' r = regAt s' r)

/-- 10_state.md R27, R39: the blocks of an unconstructed register are not observable. States that differ in nothing else
answer alike and stay alike. -/
def Obligations.UnconstructedBlocksUnobservable : Prop :=
  ∀ (i : Instr) (s t : State), SameObservable s t →
    ∃ s' t', exec i s = .next s' ∧ exec i t = .next t' ∧ SameObservable s' t'

/-- 30_encoding.md R79, 93_implementation_defined.md U18: the bits of `opa` and `opb` a command does not use are
ignored. -/
def Obligations.UnusedOperandBitsIgnored : Prop :=
  ∀ (i : Instr) (s : State) (p q : Transaction), p.cmd = q.cmd → sameOperands s.config p q i →
    ∃ t : State, exec i { s with port := p } = .next { t with port := p } ∧
      exec i { s with port := q } = .next { t with port := q }

/-- 00_scope.md R6: the result of every command but nine is independent of `W`. Two blocks of the same `NMAX` whose
registers hold the same vector values give the same answer, and their registers hold the same values again. -/
def Obligations.ResultsIndependentOfBlockWidth : Prop :=
  ∀ (i : Instr) (s t : State), blockWidthDependent i = false → s.config.legal = true → t.config.legal = true →
    s.config.nmax = t.config.nmax → s.fsr = t.fsr → s.fcmd = t.fcmd → s.port = t.port → (∀ r : Reg, SameVector s t r) →
      ∃ s' t', exec i s = .next s' ∧ exec i t = .next t' ∧ s'.response = t'.response ∧ s'.fsr = t'.fsr ∧
        s'.fcmd = t'.fcmd ∧ ∀ r : Reg, SameVector s' t' r

/-! The instructions, one by one. In each statement the first clause is the encoding, then come the faults in the order of
their checks, then completion: the whole next state, so that nothing else changes. -/

/-- 48_system.md R260: NOP. -/
def Obligations.NopCompletes : Prop :=
  decode 0x04000000#32 = .ok .nop ∧
  (∀ w : CmdWord, opcodeField w = 0x01#6 → w ≠ 0x04000000#32 → decode w = .error .reservedField) ∧
  ∀ s : State,
    (isHalted s = true → exec .nop s = .next (answerHalted s)) ∧
    (isHalted s = false → exec .nop s = .next (respond s false 0))

/-- 48_system.md R261, with the fields of `CFG` of 10_state.md R33: RDSR, in and out of the FAULTED state. -/
def Obligations.RdsrReadsSystemRegisters : Prop :=
  (∀ imm, decode (commandWord 0x02#6 0 0 0 imm) = .ok (.rdsr imm)) ∧
  ∀ s : State, s.config.legal = true →
    exec (.rdsr 0) s = .next (respond s false (1 * 2 ^ 24 + 16 * 2 ^ 16 + s.config.cap * 2 ^ 8 + s.config.W)) ∧
    exec (.rdsr 1) s = .next (respond s false s.fsr.toNat) ∧
    exec (.rdsr 2) s = .next (respond s false s.fcmd.toNat) ∧
    ∀ imm : Imm, 2 < imm.toNat →
      (isHalted s = false → exec (.rdsr imm) s = .next (enterFault s .illegalCommand)) ∧
      (isHalted s = true → exec (.rdsr imm) s = .next (answerHalted s))

/-- 40_construct_convert.md R101, R102: ZERO and LDI. -/
def Obligations.ZeroAndLdiConstruct : Prop :=
  ∀ (s : State) (rd : Reg) (imm : Imm), Ready s →
    decode (commandWord 0x08#6 rd 0 0 imm) = .ok (.zero rd imm) ∧
    decode (commandWord 0x09#6 rd 0 0 imm) = .ok (.ldi rd imm) ∧
    (imm.toNat = 0 ∨ s.config.nmax < imm.toNat →
      exec (.zero rd imm) s = .next (enterFault s .widthError) ∧
      exec (.ldi rd imm) s = .next (enterFault s .widthError)) ∧
    (1 ≤ imm.toNat → imm.toNat ≤ s.config.nmax →
      exec (.zero rd imm) s = .next (respond (writeVec s rd (mkVec s.config imm.toNat 0)) false 0) ∧
      exec (.ldi rd imm) s
        = .next (respond (writeVec s rd (mkVec s.config imm.toNat (s.port.opa.toNat % 2 ^ imm.toNat))) false 0))

/-- 40_construct_convert.md R103: MOV. -/
def Obligations.MovCopiesTheVector : Prop :=
  ∀ (s : State) (rd rs1 : Reg) (n x : Nat), Ready s →
    decode (commandWord 0x0A#6 rd rs1 0 0) = .ok (.mov rd rs1) ∧
    ((regAt s rs1).n = 0 → exec (.mov rd rs1) s = .next (enterFault s .unconstructed)) ∧
    (Holds s rs1 n x → exec (.mov rd rs1) s = .next (respond (writeVec s rd (mkVec s.config n x)) false 0))

/-- 40_construct_convert.md R104: CVT; the source is checked before the width. -/
def Obligations.CvtTruncatesOrExtends : Prop :=
  ∀ (s : State) (rd rs1 : Reg) (imm : Imm) (n x : Nat), Ready s →
    decode (commandWord 0x0B#6 rd rs1 0 imm) = .ok (.cvt rd rs1 imm) ∧
    ((regAt s rs1).n = 0 → exec (.cvt rd rs1 imm) s = .next (enterFault s .unconstructed)) ∧
    (Holds s rs1 n x →
      (imm.toNat = 0 ∨ s.config.nmax < imm.toNat → exec (.cvt rd rs1 imm) s = .next (enterFault s .widthError)) ∧
      (1 ≤ imm.toNat → imm.toNat ≤ s.config.nmax →
        exec (.cvt rd rs1 imm) s
          = .next (respond (writeVec s rd (mkVec s.config imm.toNat (x % 2 ^ imm.toNat))) false 0)))

/-- 41_storage_access.md R120: LDB. Block `k` of the value is `x div 2^(W*k) mod 2^W` (00_scope.md R9). -/
def Obligations.LdbStoresOneBlock : Prop :=
  ∀ (s : State) (rd : Reg) (k : Imm) (n x : Nat), Ready s →
    decode (commandWord 0x10#6 rd 0 0 k) = .ok (.ldb rd k) ∧
    ((regAt s rd).n = 0 → exec (.ldb rd k) s = .next (enterFault s .unconstructed)) ∧
    (Holds s rd n x →
      (blockCount s.config n ≤ k.toNat → exec (.ldb rd k) s = .next (enterFault s .outOfRange)) ∧
      (k.toNat < blockCount s.config n →
        exec (.ldb rd k) s = .next (respond (writeVec s rd (mkVec s.config n
          ((x - x / 2 ^ (s.config.W * k.toNat) % 2 ^ s.config.W * 2 ^ (s.config.W * k.toNat)
            + s.port.opa.toNat % 2 ^ s.config.W * 2 ^ (s.config.W * k.toNat)) % 2 ^ n))) false 0)))

/-- 41_storage_access.md R121: STB. -/
def Obligations.StbReadsOneBlock : Prop :=
  ∀ (s : State) (rs1 : Reg) (k : Imm) (n x : Nat), Ready s →
    decode (commandWord 0x11#6 0 rs1 0 k) = .ok (.stb rs1 k) ∧
    ((regAt s rs1).n = 0 → exec (.stb rs1 k) s = .next (enterFault s .unconstructed)) ∧
    (Holds s rs1 n x →
      (blockCount s.config n ≤ k.toNat → exec (.stb rs1 k) s = .next (enterFault s .outOfRange)) ∧
      (k.toNat < blockCount s.config n →
        exec (.stb rs1 k) s = .next (respond s false (x / 2 ^ (s.config.W * k.toNat) % 2 ^ s.config.W))))

/-- 41_storage_access.md R122: BGET. -/
def Obligations.BgetReadsOneBit : Prop :=
  ∀ (s : State) (rs1 : Reg) (p : Imm) (n x : Nat), Ready s →
    decode (commandWord 0x12#6 0 rs1 0 p) = .ok (.bget rs1 p) ∧
    ((regAt s rs1).n = 0 → exec (.bget rs1 p) s = .next (enterFault s .unconstructed)) ∧
    (Holds s rs1 n x →
      (n ≤ p.toNat → exec (.bget rs1 p) s = .next (enterFault s .outOfRange)) ∧
      (p.toNat < n → exec (.bget rs1 p) s = .next (respond s (x.testBit p.toNat) 0)))

/-- 41_storage_access.md R123, R124: BSET and BFLIP replace one bit and no other. That `set` stores and `flip` inverts is
supplied by the spec from general knowledge (93_implementation_defined.md G2; assumption 14). -/
def Obligations.BsetAndBflipChangeOneBit : Prop :=
  ∀ (s : State) (rd : Reg) (p : Imm) (n x : Nat), Ready s →
    decode (commandWord 0x13#6 rd 0 0 p) = .ok (.bset rd p) ∧
    decode (commandWord 0x14#6 rd 0 0 p) = .ok (.bflip rd p) ∧
    ((regAt s rd).n = 0 → exec (.bset rd p) s = .next (enterFault s .unconstructed) ∧
      exec (.bflip rd p) s = .next (enterFault s .unconstructed)) ∧
    (Holds s rd n x →
      (n ≤ p.toNat → exec (.bset rd p) s = .next (enterFault s .outOfRange) ∧
        exec (.bflip rd p) s = .next (enterFault s .outOfRange)) ∧
      (p.toNat < n →
        (∃ y, y < 2 ^ n ∧ (∀ q, y.testBit q = if q = p.toNat then s.port.opa.getLsbD 0 else x.testBit q) ∧
          exec (.bset rd p) s = .next (respond (writeVec s rd (mkVec s.config n y)) false 0)) ∧
        (∃ y, y < 2 ^ n ∧ (∀ q, y.testBit q = if q = p.toNat then !x.testBit q else x.testBit q) ∧
          exec (.bflip rd p) s = .next (respond (writeVec s rd (mkVec s.config n y)) false 0))))

/-- 41_storage_access.md R125, R126, R128, R129: SIZE, COUNT, ANY and NONE. Their meanings are supplied by the spec from
general knowledge (93_implementation_defined.md G2; assumption 14). -/
def Obligations.SizeCountAnyNoneAnswer : Prop :=
  ∀ (s : State) (rs1 : Reg) (n x : Nat), Ready s →
    decode (commandWord 0x15#6 0 rs1 0 0) = .ok (.size rs1) ∧
    decode (commandWord 0x16#6 0 rs1 0 0) = .ok (.count rs1) ∧
    decode (commandWord 0x18#6 0 rs1 0 0) = .ok (.any rs1) ∧
    decode (commandWord 0x19#6 0 rs1 0 0) = .ok (.none rs1) ∧
    ((regAt s rs1).n = 0 → ∀ i ∈ [Instr.size rs1, .count rs1, .any rs1, .none rs1],
      exec i s = .next (enterFault s .unconstructed)) ∧
    (Holds s rs1 n x →
      exec (.size rs1) s = .next (respond s false n) ∧
      exec (.count rs1) s = .next (respond s false ((List.range n).filter fun p => x.testBit p).length) ∧
      exec (.any rs1) s = .next (respond s (decide (x ≠ 0)) 0) ∧
      exec (.none rs1) s = .next (respond s (decide (x = 0)) 0))

/-- 41_storage_access.md R127: ALL. -/
def Obligations.AllTestsEveryBit : Prop :=
  ∀ (s : State) (rs1 : Reg) (n x : Nat), Ready s →
    decode (commandWord 0x17#6 0 rs1 0 0) = .ok (.all rs1) ∧
    ((regAt s rs1).n = 0 → exec (.all rs1) s = .next (enterFault s .unconstructed)) ∧
    (Holds s rs1 n x →
      exec (.all rs1) s = .next (respond s (decide (x = 2 ^ n - 1)) 0) ∧
      (x = 2 ^ n - 1 ↔ ∀ p, p < n → x.testBit p = true))

/-- 41_storage_access.md R130: TONUM. -/
def Obligations.TonumAnswersLow64Bits : Prop :=
  ∀ (s : State) (rs1 : Reg) (n x : Nat), Ready s →
    decode (commandWord 0x1A#6 0 rs1 0 0) = .ok (.tonum rs1) ∧
    ((regAt s rs1).n = 0 → exec (.tonum rs1) s = .next (enterFault s .unconstructed)) ∧
    (Holds s rs1 n x → exec (.tonum rs1) s = .next (respond s false (x % 2 ^ 64)))

/-- 42_block_primitives.md R152, R153: ADDB and SUBB, at every block width; the answer satisfies the exact equation of the
primitive. -/
def Obligations.AddbAndSubbAreExact : Prop :=
  ∀ (s : State) (cin : Bool) (a b : Nat), isHalted s = false →
    a = s.port.opa.toNat % 2 ^ s.config.W → b = s.port.opb.toNat % 2 ^ s.config.W →
    decode (commandWord 0x1C#6 0 0 0 (BitVec.ofNat 14 cin.toNat)) = .ok (.addb cin) ∧
    decode (commandWord 0x1D#6 0 0 0 (BitVec.ofNat 14 cin.toNat)) = .ok (.subb cin) ∧
    (∃ (sum : Nat) (carry : Bool), sum < 2 ^ s.config.W ∧ a + b + cin.toNat = carry.toNat * 2 ^ s.config.W + sum ∧
      exec (.addb cin) s = .next (respond s carry sum)) ∧
    (∃ (diff : Nat) (borrow : Bool), diff < 2 ^ s.config.W ∧
      (a : Int) - b - cin.toNat = diff - borrow.toNat * 2 ^ s.config.W ∧
      exec (.subb cin) s = .next (respond s borrow diff))

/-- 43_shift.md R166, R167, R173: BSHL and BSHR, for every amount. -/
def Obligations.BlockShiftsMoveWholeBlocks : Prop :=
  ∀ (s : State) (rd rs1 : Reg) (k : Imm) (n x : Nat), Ready s →
    decode (commandWord 0x20#6 rd rs1 0 k) = .ok (.bshl rd rs1 k) ∧
    decode (commandWord 0x21#6 rd rs1 0 k) = .ok (.bshr rd rs1 k) ∧
    ((regAt s rs1).n = 0 → exec (.bshl rd rs1 k) s = .next (enterFault s .unconstructed) ∧
      exec (.bshr rd rs1 k) s = .next (enterFault s .unconstructed)) ∧
    (Holds s rs1 n x →
      exec (.bshl rd rs1 k) s
        = .next (respond (writeVec s rd (mkVec s.config n (x * 2 ^ (k.toNat * s.config.W) % 2 ^ n))) false 0) ∧
      exec (.bshr rd rs1 k) s
        = .next (respond (writeVec s rd (mkVec s.config n (x / 2 ^ (k.toNat * s.config.W)))) false 0))

/-- 43_shift.md R168, R169, R173: SSHL and SSHR; an amount of `W` or more is an illegal command, before the register is
read. -/
def Obligations.SubBlockShiftsMoveBits : Prop :=
  ∀ (s : State) (rd rs1 : Reg) (r : Imm) (n x : Nat), Ready s →
    decode (commandWord 0x22#6 rd rs1 0 r) = .ok (.sshl rd rs1 r) ∧
    decode (commandWord 0x23#6 rd rs1 0 r) = .ok (.sshr rd rs1 r) ∧
    (s.config.W ≤ r.toNat → exec (.sshl rd rs1 r) s = .next (enterFault s .illegalCommand) ∧
      exec (.sshr rd rs1 r) s = .next (enterFault s .illegalCommand)) ∧
    (r.toNat < s.config.W →
      ((regAt s rs1).n = 0 → exec (.sshl rd rs1 r) s = .next (enterFault s .unconstructed) ∧
        exec (.sshr rd rs1 r) s = .next (enterFault s .unconstructed)) ∧
      (Holds s rs1 n x →
        exec (.sshl rd rs1 r) s
          = .next (respond (writeVec s rd (mkVec s.config n (x * 2 ^ r.toNat % 2 ^ n))) false 0) ∧
        exec (.sshr rd rs1 r) s
          = .next (respond (writeVec s rd (mkVec s.config n (x / 2 ^ r.toNat))) false 0)))

/-- 43_shift.md R170, R171, R173: SHL and SHR, for every amount; both give zero at `s ≥ n`. -/
def Obligations.ShiftsMoveBits : Prop :=
  ∀ (s : State) (rd rs1 : Reg) (a : Imm) (n x : Nat), Ready s →
    decode (commandWord 0x24#6 rd rs1 0 a) = .ok (.shl rd rs1 a) ∧
    decode (commandWord 0x25#6 rd rs1 0 a) = .ok (.shr rd rs1 a) ∧
    ((regAt s rs1).n = 0 → exec (.shl rd rs1 a) s = .next (enterFault s .unconstructed) ∧
      exec (.shr rd rs1 a) s = .next (enterFault s .unconstructed)) ∧
    (Holds s rs1 n x →
      exec (.shl rd rs1 a) s
        = .next (respond (writeVec s rd (mkVec s.config n (x * 2 ^ a.toNat % 2 ^ n))) false 0) ∧
      exec (.shr rd rs1 a) s = .next (respond (writeVec s rd (mkVec s.config n (x / 2 ^ a.toNat))) false 0) ∧
      (n ≤ a.toNat → x * 2 ^ a.toNat % 2 ^ n = 0 ∧ x / 2 ^ a.toNat = 0))

/-- 44_add_sub.md R190 over R193: ADD. -/
def Obligations.AddGivesSumOrOverflow : Prop :=
  ∀ (s : State) (rd rs1 rs2 : Reg) (n1 n2 x y : Nat), Ready s →
    decode (commandWord 0x28#6 rd rs1 rs2 0) = .ok (.add rd rs1 rs2) ∧
    ((regAt s rs1).n = 0 ∨ (regAt s rs2).n = 0 → exec (.add rd rs1 rs2) s = .next (enterFault s .unconstructed)) ∧
    (Holds s rs1 n1 x → Holds s rs2 n2 y →
      (2 ^ max n1 n2 ≤ x + y → exec (.add rd rs1 rs2) s = .next (enterFault s .overflow)) ∧
      (x + y < 2 ^ max n1 n2 →
        exec (.add rd rs1 rs2) s = .next (respond (writeVec s rd (mkVec s.config (max n1 n2) (x + y))) false 0)))

/-- 44_add_sub.md R191 over R194: SUB wraps and never faults on its values. -/
def Obligations.SubWraps : Prop :=
  ∀ (s : State) (rd rs1 rs2 : Reg) (n1 n2 x y : Nat), Ready s →
    decode (commandWord 0x29#6 rd rs1 rs2 0) = .ok (.sub rd rs1 rs2) ∧
    ((regAt s rs1).n = 0 ∨ (regAt s rs2).n = 0 → exec (.sub rd rs1 rs2) s = .next (enterFault s .unconstructed)) ∧
    (Holds s rs1 n1 x → Holds s rs2 n2 y →
      exec (.sub rd rs1 rs2) s = .next (respond (writeVec s rd (mkVec s.config (max n1 n2)
        (if y ≤ x then x - y else 2 ^ max n1 n2 - (y - x)))) false 0))

/-- 44_add_sub.md R192: TWOC; the zero vector overflows. -/
def Obligations.TwocNegatesOrOverflows : Prop :=
  ∀ (s : State) (rd rs1 : Reg) (n x : Nat), Ready s →
    decode (commandWord 0x2A#6 rd rs1 0 0) = .ok (.twoc rd rs1) ∧
    ((regAt s rs1).n = 0 → exec (.twoc rd rs1) s = .next (enterFault s .unconstructed)) ∧
    (Holds s rs1 n x →
      (x = 0 → exec (.twoc rd rs1) s = .next (enterFault s .overflow)) ∧
      (x ≠ 0 → exec (.twoc rd rs1) s = .next (respond (writeVec s rd (mkVec s.config n (2 ^ n - x))) false 0)))

/-- 45_multiply.md R210 over R211: MUL. -/
def Obligations.MulGivesProduct : Prop :=
  ∀ (s : State) (rd rs1 rs2 : Reg) (n1 n2 x y : Nat), Ready s →
    decode (commandWord 0x2B#6 rd rs1 rs2 0) = .ok (.mul rd rs1 rs2) ∧
    ((regAt s rs1).n = 0 ∨ (regAt s rs2).n = 0 → exec (.mul rd rs1 rs2) s = .next (enterFault s .unconstructed)) ∧
    (Holds s rs1 n1 x → Holds s rs2 n2 y →
      (s.config.nmax < n1 + n2 → exec (.mul rd rs1 rs2) s = .next (enterFault s .widthError)) ∧
      (n1 + n2 ≤ s.config.nmax →
        exec (.mul rd rs1 rs2) s = .next (respond (writeVec s rd (mkVec s.config (n1 + n2) (x * y))) false 0)))

/-- 46_divide.md R222, R223 over R220: DIV and REM, at the dividend's width. -/
def Obligations.DivAndRemGiveQuotientAndRemainder : Prop :=
  ∀ (s : State) (rd rs1 rs2 : Reg) (n1 n2 x y : Nat), Ready s →
    decode (commandWord 0x2C#6 rd rs1 rs2 0) = .ok (.div rd rs1 rs2) ∧
    decode (commandWord 0x2D#6 rd rs1 rs2 0) = .ok (.rem rd rs1 rs2) ∧
    ((regAt s rs1).n = 0 ∨ (regAt s rs2).n = 0 →
      exec (.div rd rs1 rs2) s = .next (enterFault s .unconstructed) ∧
      exec (.rem rd rs1 rs2) s = .next (enterFault s .unconstructed)) ∧
    (Holds s rs1 n1 x → Holds s rs2 n2 y →
      (y = 0 → exec (.div rd rs1 rs2) s = .next (enterFault s .divisionByZero) ∧
        exec (.rem rd rs1 rs2) s = .next (enterFault s .divisionByZero)) ∧
      (y ≠ 0 →
        exec (.div rd rs1 rs2) s = .next (respond (writeVec s rd (mkVec s.config n1 (x / y))) false 0) ∧
        exec (.rem rd rs1 rs2) s = .next (respond (writeVec s rd (mkVec s.config n1 (x % y))) false 0)))

/-- 46_divide.md R224 over R220: DIVR writes both; equal destinations are an illegal command, before any register is
read. -/
def Obligations.DivrGivesBoth : Prop :=
  ∀ (s : State) (rd rd2 rs1 rs2 : Reg) (n1 n2 x y : Nat), Ready s →
    decode (commandWord 0x2E#6 rd rs1 rs2 (BitVec.ofNat 14 rd2.val)) = .ok (.divr rd rd2 rs1 rs2) ∧
    (rd2 = rd → exec (.divr rd rd2 rs1 rs2) s = .next (enterFault s .illegalCommand)) ∧
    (rd2 ≠ rd →
      ((regAt s rs1).n = 0 ∨ (regAt s rs2).n = 0 →
        exec (.divr rd rd2 rs1 rs2) s = .next (enterFault s .unconstructed)) ∧
      (Holds s rs1 n1 x → Holds s rs2 n2 y →
        (y = 0 → exec (.divr rd rd2 rs1 rs2) s = .next (enterFault s .divisionByZero)) ∧
        (y ≠ 0 → exec (.divr rd rd2 rs1 rs2) s = .next (respond
          (writeVec (writeVec s rd (mkVec s.config n1 (x / y))) rd2 (mkVec s.config n1 (x % y))) false 0))))

/-- 47_logic_compare.md R240, R241: AND and OR, a bit beyond an operand's width counting as 0. -/
def Obligations.AndAndOrAreBitwise : Prop :=
  ∀ (s : State) (rd rs1 rs2 : Reg) (n1 n2 x y : Nat), Ready s →
    decode (commandWord 0x30#6 rd rs1 rs2 0) = .ok (.and rd rs1 rs2) ∧
    decode (commandWord 0x31#6 rd rs1 rs2 0) = .ok (.or rd rs1 rs2) ∧
    ((regAt s rs1).n = 0 ∨ (regAt s rs2).n = 0 →
      exec (.and rd rs1 rs2) s = .next (enterFault s .unconstructed) ∧
      exec (.or rd rs1 rs2) s = .next (enterFault s .unconstructed)) ∧
    (Holds s rs1 n1 x → Holds s rs2 n2 y →
      (∃ z, z < 2 ^ max n1 n2 ∧ (∀ p, z.testBit p = (x.testBit p && y.testBit p)) ∧
        exec (.and rd rs1 rs2) s = .next (respond (writeVec s rd (mkVec s.config (max n1 n2) z)) false 0)) ∧
      (∃ z, z < 2 ^ max n1 n2 ∧ (∀ p, z.testBit p = (x.testBit p || y.testBit p)) ∧
        exec (.or rd rs1 rs2) s = .next (respond (writeVec s rd (mkVec s.config (max n1 n2) z)) false 0)))

/-- 47_logic_compare.md R242: NOT inverts exactly the `n` logical bits. -/
def Obligations.NotInvertsTheLogicalBits : Prop :=
  ∀ (s : State) (rd rs1 : Reg) (n x : Nat), Ready s →
    decode (commandWord 0x32#6 rd rs1 0 0) = .ok (.not rd rs1) ∧
    ((regAt s rs1).n = 0 → exec (.not rd rs1) s = .next (enterFault s .unconstructed)) ∧
    (Holds s rs1 n x →
      exec (.not rd rs1) s = .next (respond (writeVec s rd (mkVec s.config n (2 ^ n - 1 - x))) false 0) ∧
      ∀ p, p < n → (2 ^ n - 1 - x).testBit p = !x.testBit p)

/-- 47_logic_compare.md R243: CMP compares values, whatever the widths. -/
def Obligations.CmpComparesValues : Prop :=
  ∀ (s : State) (rs1 rs2 : Reg) (n1 n2 x y : Nat), Ready s →
    decode (commandWord 0x33#6 0 rs1 rs2 0) = .ok (.cmp rs1 rs2) ∧
    ((regAt s rs1).n = 0 ∨ (regAt s rs2).n = 0 → exec (.cmp rs1 rs2) s = .next (enterFault s .unconstructed)) ∧
    (Holds s rs1 n1 x → Holds s rs2 n2 y →
      exec (.cmp rs1 rs2) s
        = .next (respond s (decide (x = y)) (if x = y then 0 else if x < y then 1 else 2)))

/-! The laws of 49_arithmetic_laws.md, over sequences of commands. -/

/-- 49_arithmetic_laws.md R340: LDI followed by TONUM answers the integer. -/
def Obligations.LoadThenReadRoundTrip : Prop :=
  ∀ (s : State) (rd : Reg) (imm : Imm), Ready s → 1 ≤ imm.toNat → imm.toNat ≤ s.config.nmax →
    s.port.opa.toNat < 2 ^ min imm.toNat 64 →
      ∃ t, exec (.ldi rd imm) s = .next t ∧ exec (.tonum rd) t = .next (respond t false s.port.opa.toNat)

/-- 49_arithmetic_laws.md R342: ADD and MUL commute, in result and in fault. -/
def Obligations.AdditionAndMultiplicationCommute : Prop :=
  ∀ (s : State) (rd rs1 rs2 : Reg), Inv s →
    exec (.add rd rs1 rs2) s = exec (.add rd rs2 rs1) s ∧ exec (.mul rd rs1 rs2) s = exec (.mul rd rs2 rs1) s

/-- 49_arithmetic_laws.md R343: ADD associates where no intermediate sum overflows, and MUL where the width fits. `d` holds
the inner result. -/
def Obligations.AdditionAndMultiplicationAssociate : Prop :=
  ∀ (s : State) (a b c d e : Reg) (n1 n2 n3 x y z : Nat), Ready s → Holds s a n1 x → Holds s b n2 y → Holds s c n3 z →
    d ≠ a → d ≠ c →
    (x + y + z < 2 ^ min (max n1 n2) (max n2 n3) →
      ∃ s1 s2 t1 t2, exec (.add d a b) s = .next s1 ∧ exec (.add e d c) s1 = .next s2 ∧
        exec (.add d b c) s = .next t1 ∧ exec (.add e a d) t1 = .next t2 ∧
        Holds s2 e (max n1 (max n2 n3)) (x + y + z) ∧ regAt t2 e = regAt s2 e) ∧
    (n1 + n2 + n3 ≤ s.config.nmax →
      ∃ s1 s2 t1 t2, exec (.mul d a b) s = .next s1 ∧ exec (.mul e d c) s1 = .next s2 ∧
        exec (.mul d b c) s = .next t1 ∧ exec (.mul e a d) t1 = .next t2 ∧
        Holds s2 e (n1 + n2 + n3) (x * y * z) ∧ regAt t2 e = regAt s2 e)

/-- 49_arithmetic_laws.md R344: quotient times divisor plus remainder compares equal to the dividend. -/
def Obligations.DivisionMultiplicationRelation : Prop :=
  ∀ (s : State) (a b q r p : Reg) (n1 n2 x y : Nat), Ready s → Holds s a n1 x → Holds s b n2 y → y ≠ 0 →
    n1 + n2 ≤ s.config.nmax → q ≠ a → q ≠ b → r ≠ a → r ≠ b → r ≠ q → p ≠ a → p ≠ r →
      ∃ s1 s2 s3 s4 s5, exec (.div q a b) s = .next s1 ∧ exec (.rem r a b) s1 = .next s2 ∧
        exec (.mul p q b) s2 = .next s3 ∧ exec (.add p p r) s3 = .next s4 ∧ exec (.cmp p a) s4 = .next s5 ∧
        s5.response = some { status := .ok, flag := true, rdata := 0 }

/-- 43_shift.md R172, 49_arithmetic_laws.md R345: SHL then SHR clears the high bits, SHR then SHL the low ones, and a shift
by 0 copies. -/
def Obligations.ShiftPairsClearOneEnd : Prop :=
  ∀ (s : State) (rd rs1 : Reg) (k : Imm) (n x : Nat), Ready s → Holds s rs1 n x →
    (k.toNat < n →
      (∃ s1 s2, exec (.shl rd rs1 k) s = .next s1 ∧ exec (.shr rd rd k) s1 = .next s2 ∧
        Holds s2 rd n (x % 2 ^ (n - k.toNat))) ∧
      (∃ s1 s2, exec (.shr rd rs1 k) s = .next s1 ∧ exec (.shl rd rd k) s1 = .next s2 ∧
        Holds s2 rd n (x - x % 2 ^ k.toNat))) ∧
    exec (.shl rd rs1 0) s = exec (.mov rd rs1) s ∧ exec (.shr rd rs1 0) s = exec (.mov rd rs1) s

/-- 49_arithmetic_laws.md R346: an operation on operands of different widths agrees with the operation after both are
converted to the larger width: the same outcome for ADD, SUB, AND, OR and CMP, the same value or the same
`DivisionByZero` for DIV and REM, and the same value for MUL where both products fit. -/
def Obligations.CrossWidthEquivalence : Prop :=
  ∀ (s : State) (rd a b a' b' : Reg) (n1 n2 x y : Nat), Ready s → Holds s a n1 x → Holds s b n2 y →
    Holds s a' (max n1 n2) x → Holds s b' (max n1 n2) y →
      exec (.add rd a b) s = exec (.add rd a' b') s ∧ exec (.sub rd a b) s = exec (.sub rd a' b') s ∧
      exec (.and rd a b) s = exec (.and rd a' b') s ∧ exec (.or rd a b) s = exec (.or rd a' b') s ∧
      exec (.cmp a b) s = exec (.cmp a' b') s ∧
      (∃ t t', exec (.div rd a b) s = .next t ∧ exec (.div rd a' b') s = .next t' ∧ t.response = t'.response ∧
        (answeredOk t = true → valueAt t rd = valueAt t' rd)) ∧
      (∃ t t', exec (.rem rd a b) s = .next t ∧ exec (.rem rd a' b') s = .next t' ∧ t.response = t'.response ∧
        (answeredOk t = true → valueAt t rd = valueAt t' rd)) ∧
      (max n1 n2 + max n1 n2 ≤ s.config.nmax →
        ∃ t t', exec (.mul rd a b) s = .next t ∧ exec (.mul rd a' b') s = .next t' ∧ answeredOk t = true ∧
          answeredOk t' = true ∧ valueAt t rd = valueAt t' rd)

end
end

