-- ==== Sys2Proof/Laws/State.lean ====
section
/-! SUPPORT. One lemma per field per update of State, and what reading a register gives after each update. -/

namespace Sys2Proof.Machine

variable (s : State)

@[simp] theorem writeVec_config (i : Reg) (v : Vec) : (writeVec s i v).config = s.config := rfl
@[simp] theorem writeVec_x (i : Reg) (v : Vec) : (writeVec s i v).x = s.x.set i.val v.toReg i.isLt := rfl
@[simp] theorem writeVec_fsr (i : Reg) (v : Vec) : (writeVec s i v).fsr = s.fsr := rfl
@[simp] theorem writeVec_fcmd (i : Reg) (v : Vec) : (writeVec s i v).fcmd = s.fcmd := rfl
@[simp] theorem writeVec_pending (i : Reg) (v : Vec) : (writeVec s i v).pending = s.pending := rfl
@[simp] theorem writeVec_port (i : Reg) (v : Vec) : (writeVec s i v).port = s.port := rfl
@[simp] theorem writeVec_response (i : Reg) (v : Vec) : (writeVec s i v).response = s.response := rfl

@[simp] theorem respond_config (f : Bool) (d : Nat) : (respond s f d).config = s.config := rfl
@[simp] theorem respond_x (f : Bool) (d : Nat) : (respond s f d).x = s.x := rfl
@[simp] theorem respond_fsr (f : Bool) (d : Nat) : (respond s f d).fsr = s.fsr := rfl
@[simp] theorem respond_fcmd (f : Bool) (d : Nat) : (respond s f d).fcmd = s.fcmd := rfl
@[simp] theorem respond_pending (f : Bool) (d : Nat) : (respond s f d).pending = s.pending := rfl
@[simp] theorem respond_port (f : Bool) (d : Nat) : (respond s f d).port = s.port := rfl
@[simp] theorem respond_response (f : Bool) (d : Nat) : (respond s f d).response = some { status := .ok, flag := f, rdata := BitVec.ofNat 64 d } := rfl

@[simp] theorem respond_regAt (f : Bool) (d : Nat) (r : Reg) : regAt (respond s f d) r = regAt s r := rfl

@[simp] theorem respond_isHalted (f : Bool) (d : Nat) : isHalted (respond s f d) = isHalted s := rfl

@[simp] theorem enterFault_config (f : Cause) : (enterFault s f).config = s.config := rfl
@[simp] theorem enterFault_x (f : Cause) : (enterFault s f).x = s.x := rfl
@[simp] theorem enterFault_fsr (f : Cause) : (enterFault s f).fsr = fsrFaulted s.fsr f.code := rfl
@[simp] theorem enterFault_fcmd (f : Cause) : (enterFault s f).fcmd = s.port.cmd := rfl
@[simp] theorem enterFault_pending (f : Cause) : (enterFault s f).pending = s.pending := rfl
@[simp] theorem enterFault_port (f : Cause) : (enterFault s f).port = s.port := rfl
@[simp] theorem enterFault_response (f : Cause) : (enterFault s f).response = some { status := .fault f, flag := false, rdata := 0 } := rfl

@[simp] theorem enterFault_regAt (f : Cause) (r : Reg) : regAt (enterFault s f) r = regAt s r := rfl

@[simp] theorem answerHalted_config : (answerHalted s).config = s.config := rfl
@[simp] theorem answerHalted_x : (answerHalted s).x = s.x := rfl
@[simp] theorem answerHalted_fsr : (answerHalted s).fsr = s.fsr := rfl
@[simp] theorem answerHalted_fcmd : (answerHalted s).fcmd = s.fcmd := rfl
@[simp] theorem answerHalted_pending : (answerHalted s).pending = s.pending := rfl
@[simp] theorem answerHalted_port : (answerHalted s).port = s.port := rfl
@[simp] theorem answerHalted_response : (answerHalted s).response = some { status := .halted, flag := false, rdata := 0 } := rfl

@[simp] theorem answerHalted_regAt (r : Reg) : regAt (answerHalted s) r = regAt s r := rfl

@[simp] theorem answerHalted_isHalted : isHalted (answerHalted s) = isHalted s := rfl

@[simp] theorem dropEvent_config : (dropEvent s).config = s.config := rfl
@[simp] theorem dropEvent_x : (dropEvent s).x = s.x := rfl
@[simp] theorem dropEvent_fsr : (dropEvent s).fsr = s.fsr := rfl
@[simp] theorem dropEvent_fcmd : (dropEvent s).fcmd = s.fcmd := rfl
@[simp] theorem dropEvent_pending : (dropEvent s).pending = s.pending.tail := rfl
@[simp] theorem dropEvent_port : (dropEvent s).port = s.port := rfl
@[simp] theorem dropEvent_response : (dropEvent s).response = s.response := rfl

@[simp] theorem dropEvent_regAt (r : Reg) : regAt (dropEvent s) r = regAt s r := rfl

@[simp] theorem dropEvent_isHalted : isHalted (dropEvent s) = isHalted s := rfl

@[simp] theorem presentNext_config (t : Transaction) : (presentNext s t).config = s.config := rfl
@[simp] theorem presentNext_x (t : Transaction) : (presentNext s t).x = s.x := rfl
@[simp] theorem presentNext_fsr (t : Transaction) : (presentNext s t).fsr = s.fsr := rfl
@[simp] theorem presentNext_fcmd (t : Transaction) : (presentNext s t).fcmd = s.fcmd := rfl
@[simp] theorem presentNext_pending (t : Transaction) : (presentNext s t).pending = .command t :: s.pending := rfl
@[simp] theorem presentNext_port (t : Transaction) : (presentNext s t).port = s.port := rfl
@[simp] theorem presentNext_response (t : Transaction) : (presentNext s t).response = s.response := rfl

@[simp] theorem presentNext_regAt (t : Transaction) (r : Reg) : regAt (presentNext s t) r = regAt s r := rfl

@[simp] theorem presentNext_isHalted (t : Transaction) : isHalted (presentNext s t) = isHalted s := rfl

@[simp] theorem presentTransaction_config (t : Transaction) : (presentTransaction s t).config = s.config := rfl
@[simp] theorem presentTransaction_x (t : Transaction) : (presentTransaction s t).x = s.x := rfl
@[simp] theorem presentTransaction_fsr (t : Transaction) : (presentTransaction s t).fsr = s.fsr := rfl
@[simp] theorem presentTransaction_fcmd (t : Transaction) : (presentTransaction s t).fcmd = s.fcmd := rfl
@[simp] theorem presentTransaction_pending (t : Transaction) : (presentTransaction s t).pending = s.pending := rfl
@[simp] theorem presentTransaction_port (t : Transaction) : (presentTransaction s t).port = t := rfl
@[simp] theorem presentTransaction_response (t : Transaction) : (presentTransaction s t).response = s.response := rfl

@[simp] theorem presentTransaction_regAt (t : Transaction) (r : Reg) : regAt (presentTransaction s t) r = regAt s r := rfl

@[simp] theorem presentTransaction_isHalted (t : Transaction) : isHalted (presentTransaction s t) = isHalted s := rfl

@[simp] theorem applyReset_config : (applyReset s).config = s.config := rfl
@[simp] theorem applyReset_x : (applyReset s).x = Vector.replicate 16 (VReg.unconstructed s.config) := rfl
@[simp] theorem applyReset_fsr : (applyReset s).fsr = 0 := rfl
@[simp] theorem applyReset_fcmd : (applyReset s).fcmd = 0 := rfl
@[simp] theorem applyReset_pending : (applyReset s).pending = s.pending := rfl
@[simp] theorem applyReset_port : (applyReset s).port = Transaction.idle := rfl
@[simp] theorem applyReset_response : (applyReset s).response = none := rfl

@[simp] theorem writeVec_isHalted (i : Reg) (v : Vec) : isHalted (writeVec s i v) = isHalted s := rfl

/-- The register written holds the value written. -/
@[simp] theorem regAt_writeVec_same (i : Reg) (v : Vec) : regAt (writeVec s i v) i = v.toReg := by
  simp [regAt]

/-- Every other register is unchanged: registers never alias (10_state.md R29). -/
theorem regAt_writeVec_other {i j : Reg} (v : Vec) (h : j ≠ i) : regAt (writeVec s i v) j = regAt s j := by
  have : i.val ≠ j.val := fun e => h (Fin.ext e.symm)
  simp [regAt, writeVec, this]

theorem regAt_writeVec (i j : Reg) (v : Vec) :
    regAt (writeVec s i v) j = if j = i then v.toReg else regAt s j := by
  by_cases h : j = i
  · subst h; simp
  · simp [h, regAt_writeVec_other]

@[simp] theorem applyReset_regAt (r : Reg) : regAt (applyReset s) r = VReg.unconstructed s.config := by
  simp [regAt]

@[simp] theorem applyReset_isHalted : isHalted (applyReset s) = false := by
  simp [isHalted, fsrH]

@[simp] theorem resetIn_config (c : Config) : (State.resetIn c).config = c := rfl
@[simp] theorem resetIn_fsr (c : Config) : (State.resetIn c).fsr = 0 := rfl
@[simp] theorem resetIn_fcmd (c : Config) : (State.resetIn c).fcmd = 0 := rfl
@[simp] theorem resetIn_pending (c : Config) : (State.resetIn c).pending = [] := rfl
@[simp] theorem resetIn_response (c : Config) : (State.resetIn c).response = none := rfl

@[simp] theorem resetIn_regAt (c : Config) (r : Reg) : regAt (State.resetIn c) r = VReg.unconstructed c := by
  simp [regAt, State.resetIn]

/-! The fields of `FSR` after fault entry. -/

/-- Bit `i` of `FSR` after fault entry: bit 0 is `H`, bits 3:1 the reserved bits, bits 7:4 `CAUSE`. -/
theorem getLsbD_fsrFaulted (fsr : BitVec 8) (k : BitVec 4) (i : Nat) :
    (fsrFaulted fsr k).getLsbD i =
      if i < 1 then true else if i < 4 then (fsrReserved fsr).getLsbD (i - 1) else k.getLsbD (i - 4) := by
  have e1 := BitVec.getLsbD_append (x := k ++ fsrReserved fsr) (y := 1#1) (i := i)
  have e2 := BitVec.getLsbD_append (x := k) (y := fsrReserved fsr) (i := i - 1)
  refine e1.trans ?_
  rcases Nat.lt_or_ge i 1 with h | h
  · simp [show i = 0 by omega]
  · rw [e2]
    simp only [show ¬ i < 1 by omega, if_false]
    by_cases h4 : i < 4
    · simp [h4, show i - 1 < 3 by omega]
    · simp [h4, show ¬ i - 1 < 3 by omega, show i - 1 - 3 = i - 4 by omega]


@[simp] theorem fsrH_faulted (fsr : BitVec 8) (k : BitVec 4) : fsrH (fsrFaulted fsr k) = true := by
  have : (fsrFaulted fsr k).extractLsb' 0 1 = 1#1 := by
    apply BitVec.eq_of_getLsbD_eq; intro i hi
    simp [getLsbD_fsrFaulted, show i = 0 by omega]
  simp [fsrH, this]

@[simp] theorem fsrCause_faulted (fsr : BitVec 8) (k : BitVec 4) : fsrCause (fsrFaulted fsr k) = k := by
  apply BitVec.eq_of_getLsbD_eq; intro i hi
  simp [fsrCause, getLsbD_fsrFaulted, hi]

@[simp] theorem fsrReserved_faulted (fsr : BitVec 8) (k : BitVec 4) :
    fsrReserved (fsrFaulted fsr k) = fsrReserved fsr := by
  apply BitVec.eq_of_getLsbD_eq; intro i hi
  simp [fsrReserved, getLsbD_fsrFaulted, hi, show 1 + i < 4 by omega]

@[simp] theorem enterFault_isHalted (f : Cause) : isHalted (enterFault s f) = true := by
  simp [isHalted]

end Sys2Proof.Machine
end

