-- ==== Sys2Proof/Laws/Blocks.lean ====
section
/-! SUPPORT. Block arrays and the integers they stand for (10_state.md R23 to R25): `valueOf` of the list operations,
blocks as digits, and the bijection between trimmed arrays of width `n` and the integers below `2^n`. -/

namespace Sys2Proof

theorem Config.W_pos (c : Config) : 0 < c.W := by
  unfold Config.W BlockWidth.bits; split <;> omega

theorem Config.W_le (c : Config) : c.W ≤ 64 := by
  unfold Config.W BlockWidth.bits; split <;> omega

theorem Config.nmax_eq (c : Config) : c.nmax = c.W * c.cap := Nat.mul_comm _ _

theorem Config.nmax_le {c : Config} (h : c.legal = true) : c.nmax ≤ 16383 := by
  unfold Config.legal at h; simp only [decide_eq_true_eq] at h; exact h.2.2

theorem Config.cap_pos {c : Config} (h : c.legal = true) : 1 ≤ c.cap := by
  unfold Config.legal at h; simp only [decide_eq_true_eq] at h; exact h.1

theorem Config.nmax_pos {c : Config} (h : c.legal = true) : 1 ≤ c.nmax :=
  Nat.mul_pos (Config.cap_pos h) c.W_pos

namespace Machine

/-- Every block of an array is below `2^W`. -/
abbrev Bounded (W : Nat) (l : List Nat) : Prop := ∀ b ∈ l, b < 2 ^ W

@[simp] theorem valueOf_nil (W : Nat) : valueOf W [] = 0 := rfl

@[simp] theorem valueOf_cons (W b : Nat) (l : List Nat) : valueOf W (b :: l) = b + 2 ^ W * valueOf W l := rfl

theorem valueOf_append (W : Nat) (a b : List Nat) :
    valueOf W (a ++ b) = valueOf W a + 2 ^ (W * a.length) * valueOf W b := by
  induction a with
  | nil => simp
  | cons x xs ih => simp [ih, Nat.mul_add, Nat.pow_add]; ring

@[simp] theorem valueOf_zeros (W k : Nat) : valueOf W (List.replicate k 0) = 0 := by
  induction k with
  | zero => rfl
  | succ k ih => simp [List.replicate_succ, ih]

theorem valueOf_lt {W : Nat} {l : List Nat} (h : Bounded W l) : valueOf W l < 2 ^ (W * l.length) := by
  induction l with
  | nil => simp
  | cons x xs ih =>
    have hx : x < 2 ^ W := h x (by simp)
    have hxs := ih fun b hb => h b (by simp [hb])
    rw [valueOf_cons, List.length_cons, Nat.mul_add, Nat.mul_one, Nat.add_comm (W * _), Nat.pow_add]
    calc x + 2 ^ W * valueOf W xs < 2 ^ W + 2 ^ W * valueOf W xs := by omega
      _ = 2 ^ W * (valueOf W xs + 1) := by ring
      _ ≤ 2 ^ W * 2 ^ (W * xs.length) := Nat.mul_le_mul_left _ hxs

theorem Bounded.append {W : Nat} {a b : List Nat} (ha : Bounded W a) (hb : Bounded W b) : Bounded W (a ++ b) := by
  intro x hx
  rcases List.mem_append.mp hx with h | h
  · exact ha x h
  · exact hb x h

theorem Bounded.zeros (W k : Nat) : Bounded W (List.replicate k 0) := by
  intro b hb
  rw [List.eq_of_mem_replicate hb]; exact Nat.two_pow_pos W

theorem Bounded.take {W : Nat} {l : List Nat} (h : Bounded W l) (m : Nat) : Bounded W (l.take m) :=
  fun b hb => h b (List.mem_of_mem_take hb)

theorem Bounded.drop {W : Nat} {l : List Nat} (h : Bounded W l) (m : Nat) : Bounded W (l.drop m) :=
  fun b hb => h b (List.mem_of_mem_drop hb)

theorem Bounded.tail {W x : Nat} {l : List Nat} (h : Bounded W (x :: l)) : Bounded W l :=
  fun b hb => h b (by simp [hb])

theorem Bounded.getD {W : Nat} {l : List Nat} (h : Bounded W l) (j : Nat) : l.getD j 0 < 2 ^ W := by
  rw [List.getD_eq_getElem?_getD]
  rcases hj : l[j]? with _ | b
  · exact Nat.two_pow_pos W
  · exact h b (List.mem_of_getElem? hj)

/-- The arrays of one length with blocks below `2^W` are determined by their value (10_state.md R25). -/
theorem valueOf_inj {W : Nat} {a b : List Nat} (ha : Bounded W a) (hb : Bounded W b) (hl : a.length = b.length)
    (hv : valueOf W a = valueOf W b) : a = b := by
  induction a generalizing b with
  | nil => cases b <;> simp_all
  | cons x xs ih =>
    cases b with
    | nil => simp at hl
    | cons y ys =>
      have hx := ha x (by simp)
      have hy := hb y (by simp)
      have hm := congrArg (· % 2 ^ W) hv
      have hd := congrArg (· / 2 ^ W) hv
      simp only [valueOf_cons, Nat.add_mul_mod_self_left, Nat.mod_eq_of_lt hx, Nat.mod_eq_of_lt hy] at hm
      simp only [valueOf_cons, Nat.add_mul_div_left _ _ (Nat.two_pow_pos W), Nat.div_eq_of_lt hx,
        Nat.div_eq_of_lt hy, Nat.zero_add] at hd
      rw [hm, ih ha.tail hb.tail (by simpa using hl) hd]

theorem valueOf_drop {W : Nat} {l : List Nat} (h : Bounded W l) (m : Nat) :
    valueOf W (l.drop m) = valueOf W l / 2 ^ (W * m) := by
  induction m generalizing l with
  | zero => simp
  | succ m ih =>
    cases l with
    | nil => simp
    | cons x xs =>
      have hx := h x (by simp)
      rw [List.drop_succ_cons, ih h.tail, valueOf_cons, Nat.mul_add, Nat.mul_one, Nat.add_comm (W * m), Nat.pow_add,
        ← Nat.div_div_eq_div_mul, Nat.add_mul_div_left _ _ (Nat.two_pow_pos W), Nat.div_eq_of_lt hx, Nat.zero_add]

theorem valueOf_take {W : Nat} {l : List Nat} (h : Bounded W l) (m : Nat) :
    valueOf W (l.take m) = valueOf W l % 2 ^ (W * m) := by
  by_cases hm : m ≤ l.length
  · have e := valueOf_append W (l.take m) (l.drop m)
    rw [List.take_append_drop, List.length_take, Nat.min_eq_left hm] at e
    have hlt := valueOf_lt (h.take m)
    rw [List.length_take, Nat.min_eq_left hm] at hlt
    rw [e, Nat.add_mul_mod_self_left, Nat.mod_eq_of_lt hlt]
  · have hl : l.length ≤ m := by omega
    rw [List.take_of_length_le hl, Nat.mod_eq_of_lt]
    exact lt_of_lt_of_le (valueOf_lt h) (Nat.pow_le_pow_right (by omega) (Nat.mul_le_mul_left _ hl))

/-- Block `j` of an array is digit `j`, to the base `2^W`, of its value (00_scope.md R9). -/
theorem getD_eq_digit {W : Nat} {l : List Nat} (h : Bounded W l) (j : Nat) :
    l.getD j 0 = valueOf W l / 2 ^ (W * j) % 2 ^ W := by
  rw [← valueOf_drop h]
  have e : l.getD j 0 = (l.drop j).getD 0 0 := by simp [List.getD_eq_getElem?_getD]
  rw [e]
  have hd := h.drop j
  generalize l.drop j = t at hd
  cases t with
  | nil => simp
  | cons x xs => simp [Nat.mod_eq_of_lt (hd x (by simp))]

/-! `blk` of an integer. -/

@[simp] theorem length_blocksOf (c : Config) (x : Nat) : (blocksOf c x).length = c.cap := by simp [blocksOf]

theorem bounded_blocksOf (c : Config) (x : Nat) : Bounded c.W (blocksOf c x) := by
  intro b hb
  simp only [blocksOf, List.mem_map] at hb
  obtain ⟨j, -, rfl⟩ := hb
  exact Nat.mod_lt _ (Nat.two_pow_pos _)

theorem valueOf_digits (W x k : Nat) :
    valueOf W ((List.range k).map fun j => x / 2 ^ (W * j) % 2 ^ W) = x % 2 ^ (W * k) := by
  induction k with
  | zero => simp [Nat.mod_one]
  | succ k ih =>
    rw [List.range_succ, List.map_append, valueOf_append, ih]
    simp only [List.map_cons, List.map_nil, List.length_map, List.length_range, valueOf_cons, valueOf_nil,
      Nat.mul_zero, Nat.add_zero]
    rw [Nat.mul_add, Nat.mul_one, Nat.pow_add, Nat.mod_mul]

theorem valueOf_blocksOf (c : Config) (x : Nat) : valueOf c.W (blocksOf c x) = x % 2 ^ c.nmax := by
  rw [blocksOf, valueOf_digits, Config.nmax_eq]

/-! Trim. -/

@[simp] theorem length_trimTo (c : Config) (n : Nat) (l : List Nat) : (trimTo c n l).length = l.length := by
  simp [trimTo]

theorem trimBlock_le (W n j b : Nat) : trimBlock W n j b ≤ b := by
  unfold trimBlock; split
  · omega
  · split
    · exact Nat.mod_le _ _
    · exact Nat.le_refl _

theorem bounded_mapIdx_trim {W n : Nat} {l : List Nat} (h : Bounded W l) : Bounded W (l.mapIdx (trimBlock W n)) := by
  intro b hb
  obtain ⟨i, hi, rfl⟩ := List.mem_mapIdx.mp hb
  exact lt_of_le_of_lt (trimBlock_le ..) (h _ (List.getElem_mem hi))

theorem bounded_trimTo {c : Config} {n : Nat} {l : List Nat} (h : Bounded c.W l) : Bounded c.W (trimTo c n l) :=
  bounded_mapIdx_trim h

theorem trimBlock_succ (W n j : Nat) : trimBlock W n (j + 1) = trimBlock W (n - W) j := by
  funext b
  have e1 : W * (j + 1) = W * j + W := by ring
  have e2 : W * (j + 1 + 1) = W * j + W + W := by ring
  simp only [trimBlock, e1, e2]
  by_cases h1 : n ≤ W * j + W
  · simp [h1, show n - W ≤ W * j by omega]
  · simp only [h1, show ¬ n - W ≤ W * j by omega, if_false]
    by_cases h2 : n < W * j + W + W
    · simp [h2, show n - W < W * j + W by omega, show n - W - W * j = n - (W * j + W) by omega]
    · simp [h2, show ¬ n - W < W * j + W by omega]

theorem mapIdx_trim_cons (W n b : Nat) (l : List Nat) :
    (b :: l).mapIdx (trimBlock W n) = trimBlock W n 0 b :: l.mapIdx (trimBlock W (n - W)) := by
  rw [List.mapIdx_cons]
  congr 2
  funext j
  exact trimBlock_succ W n j

/-- Trimming to width `n` keeps the low `n` bits of the value (00_scope.md R9, R10). -/
theorem valueOf_mapIdx_trim {W : Nat} (n : Nat) {l : List Nat} (h : Bounded W l) :
    valueOf W (l.mapIdx (trimBlock W n)) = valueOf W l % 2 ^ n := by
  induction l generalizing n with
  | nil => simp
  | cons b l ih =>
    have hb := h b (by simp)
    rw [mapIdx_trim_cons, valueOf_cons, valueOf_cons, ih (n - W) h.tail]
    by_cases hn : n < W
    · have h0 : trimBlock W n 0 b = b % 2 ^ n := by
        unfold trimBlock
        by_cases hz : n = 0
        · subst hz; simp [Nat.mod_one]
        · simp [hz, hn]
      obtain ⟨d, rfl⟩ := Nat.exists_eq_add_of_lt hn
      rw [h0, show n - (n + d + 1) = 0 by omega, show n + d + 1 = n + (d + 1) by omega, Nat.pow_add]
      simp [Nat.mod_one, Nat.mul_assoc, Nat.add_mul_mod_self_left]
    · have h0 : trimBlock W n 0 b = b := by
        unfold trimBlock
        by_cases hz : n ≤ W * 0
        · have : W = 0 := by omega
          subst this; simp [show n = 0 by omega] at hb ⊢; omega
        · simp [show ¬ n ≤ 0 by omega, hn]
      obtain ⟨d, rfl⟩ := Nat.exists_eq_add_of_le (Nat.le_of_not_lt hn)
      rw [h0, Nat.add_sub_cancel_left, Nat.pow_add, Nat.mod_mul, Nat.add_mul_mod_self_left, Nat.mod_eq_of_lt hb,
        Nat.add_mul_div_left _ _ (Nat.two_pow_pos W), Nat.div_eq_of_lt hb, Nat.zero_add]

theorem valueOf_trimTo {c : Config} (n : Nat) {l : List Nat} (h : Bounded c.W l) :
    valueOf c.W (trimTo c n l) = valueOf c.W l % 2 ^ n := valueOf_mapIdx_trim n h

/-- An array is trimmed exactly when its value is below `2^n` (10_state.md R25). -/
theorem trimTo_eq_self_iff {c : Config} {n : Nat} {l : List Nat} (h : Bounded c.W l) :
    trimTo c n l = l ↔ valueOf c.W l < 2 ^ n := by
  constructor
  · intro e
    have hv := valueOf_trimTo n h
    rw [e] at hv
    rw [hv]; exact Nat.mod_lt _ (Nat.two_pow_pos _)
  · intro hlt
    exact valueOf_inj (bounded_trimTo h) h (by simp) (by rw [valueOf_trimTo n h, Nat.mod_eq_of_lt hlt])

/-! `mk(n, x)` and well-formed vectors. -/

@[simp] theorem mkVec_n (c : Config) (n x : Nat) : (mkVec c n x).n = n := rfl

@[simp] theorem mkVec_blk (c : Config) (n x : Nat) : (mkVec c n x).blk = blocksOf c x := rfl

theorem lt_of_width {n m x : Nat} (hn : n ≤ m) (hx : x < 2 ^ n) : x < 2 ^ m :=
  lt_of_lt_of_le hx (Nat.pow_le_pow_right (by omega) hn)

theorem mkVec_val {c : Config} {n x : Nat} (hn : n ≤ c.nmax) (hx : x < 2 ^ n) : (mkVec c n x).val c = x := by
  rw [Vec.val, mkVec_blk, valueOf_blocksOf, Nat.mod_eq_of_lt (lt_of_width hn hx)]

theorem mkVec_wf {c : Config} {n x : Nat} (h1 : 1 ≤ n) (hn : n ≤ c.nmax) (hx : x < 2 ^ n) : Vec.Wf c (mkVec c n x) := by
  refine ⟨h1, hn, by simp, bounded_blocksOf c x, ?_⟩
  rw [mkVec_n, mkVec_blk, trimTo_eq_self_iff (bounded_blocksOf c x), valueOf_blocksOf,
    Nat.mod_eq_of_lt (lt_of_width hn hx)]
  exact hx

theorem Vec.Wf.val_lt {c : Config} {v : Vec} (h : Vec.Wf c v) : v.val c < 2 ^ v.n := by
  obtain ⟨-, -, -, hb, ht⟩ := h
  exact (trimTo_eq_self_iff hb).mp ht

/-- A vector with `CAP` blocks below `2^W` is `mk` of its width and its value, if the value fits `NMAX` bits. -/
theorem eq_mkVec {c : Config} {n x : Nat} {l : List Nat} (hl : l.length = c.cap) (hb : Bounded c.W l)
    (hv : valueOf c.W l = x) : ({ n := n, blk := l } : Vec) = mkVec c n x := by
  have hlt := valueOf_lt hb
  rw [hl, ← Config.nmax_eq, hv] at hlt
  have : l = blocksOf c x := by
    apply valueOf_inj hb (bounded_blocksOf c x) (by simp [hl])
    rw [hv, valueOf_blocksOf, Nat.mod_eq_of_lt hlt]
  rw [this]; rfl

/-- A well-formed vector is `mk` of its width and its value: the bijection of 10_state.md R25. -/
theorem Vec.Wf.eq_mkVec {c : Config} {v : Vec} (h : Vec.Wf c v) : v = mkVec c v.n (v.val c) :=
  Machine.eq_mkVec h.2.2.1 h.2.2.2.1 rfl

/-! Registers as containers of vectors. -/

@[simp] theorem toVec_n (r : VReg) : r.toVec.n = r.n.toNat := rfl

/-- A vector of at most 14 bits of width and blocks of at most 64 bits comes back from a register unchanged. -/
theorem toVec_toReg {c : Config} (hc : c.legal = true) {v : Vec} (hn : v.n ≤ c.nmax) (hb : Bounded c.W v.blk) :
    v.toReg.toVec = v := by
  have h1 : v.n % 2 ^ 14 = v.n := Nat.mod_eq_of_lt (by have := Config.nmax_le hc; omega)
  have h2 : (v.blk.map (BitVec.ofNat 64)).map BitVec.toNat = v.blk := by
    rw [List.map_map]
    conv_rhs => rw [← List.map_id v.blk]
    apply List.map_congr_left
    intro b hbm
    have hlt : b < 2 ^ 64 := lt_of_width c.W_le (hb b hbm)
    simpa using hlt
  cases v with
  | mk n blk =>
    simp only [Vec.toReg, VReg.toVec, BitVec.toNat_ofNat] at h1 h2 ⊢
    rw [h1, h2]

theorem toReg_toVec (r : VReg) : r.toVec.toReg = r := by
  cases r with
  | mk n blk =>
    simp only [VReg.toVec, Vec.toReg, List.map_map]
    congr 1
    · simp
    · conv_rhs => rw [← List.map_id blk]
      apply List.map_congr_left
      intro b _
      simp

theorem toVec_toReg_of_wf {c : Config} (hc : c.legal = true) {v : Vec} (h : Vec.Wf c v) : v.toReg.toVec = v :=
  toVec_toReg hc h.2.1 h.2.2.2.1

theorem toReg_n_ne_zero {c : Config} (hc : c.legal = true) {v : Vec} (h1 : 1 ≤ v.n) (hn : v.n ≤ c.nmax) :
    v.toReg.n ≠ 0 := by
  intro e
  have := congrArg BitVec.toNat e
  simp only [Vec.toReg, BitVec.toNat_ofNat] at this
  have hle := Config.nmax_le hc
  rw [Nat.mod_eq_of_lt (by omega)] at this
  simp at this; omega

end Machine

end Sys2Proof
end

