-- ==== Sys2Proof/Laws/Ops.lean ====
section
/-! SUPPORT. What each shared operation over State can do, once: reading and writing registers, block and bit access,
the capacity check, the answer of a command. Later proofs cite these and do not unfold the operations. -/

namespace Sys2Proof.Machine

/-! `Except`, as the meanings use it. -/

@[simp] theorem except_ok_bind {α β : Type} (a : α) (f : α → Except Cause β) : (Except.ok a >>= f) = f a := rfl

@[simp] theorem except_error_bind {α β : Type} (e : Cause) (f : α → Except Cause β) :
    ((Except.error e : Except Cause α) >>= f) = .error e := rfl

/-! The answer of a command. -/

theorem runCommand_halted {s : State} (h : isHalted s = true) (body : Except Cause State) :
    runCommand s body = .next (answerHalted s) := by simp [runCommand, h]

theorem runCommand_ok {s t : State} (h : isHalted s = false) {body : Except Cause State} (hb : body = .ok t) :
    runCommand s body = .next t := by simp [runCommand, h, hb]

theorem runCommand_error {s : State} (h : isHalted s = false) {f : Cause} {body : Except Cause State}
    (hb : body = .error f) : runCommand s body = .next (enterFault s f) := by simp [runCommand, h, hb]

/-- The three outcomes of a command: refused, completed or faulted (60_exceptions.md R271). -/
theorem runCommand_cases {s t : State} {body : Except Cause State} (h : runCommand s body = .next t) :
    (isHalted s = true ∧ t = answerHalted s) ∨ (isHalted s = false ∧ body = .ok t) ∨
      (isHalted s = false ∧ ∃ f, body = .error f ∧ t = enterFault s f) := by
  unfold runCommand at h
  rcases hh : isHalted s with _ | _
  · simp only [hh, Bool.false_eq_true, if_false] at h
    rcases body with f | u
    · simp only [Host.Outcome.next.injEq] at h; exact .inr (.inr ⟨rfl, f, rfl, h.symm⟩)
    · simp only [Host.Outcome.next.injEq] at h; exact .inr (.inl ⟨rfl, by rw [h]⟩)
  · simp only [hh, if_true, Host.Outcome.next.injEq] at h
    exact .inl ⟨rfl, h.symm⟩

/-- A command always answers a next state. -/
theorem runCommand_next (s : State) (body : Except Cause State) : ∃ t, runCommand s body = .next t := by
  unfold runCommand
  split
  · exact ⟨_, rfl⟩
  · split <;> exact ⟨_, rfl⟩

/-! Registers. -/

theorem readVec_unconstructed {s : State} {r : Reg} (h : (regAt s r).n = 0) : readVec s r = .error .unconstructed := by
  simp [readVec, isUnconstructed, h]

theorem readVec_constructed {s : State} {r : Reg} (h : (regAt s r).n ≠ 0) : readVec s r = .ok (regAt s r).toVec := by
  simp only [readVec, isUnconstructed, beq_false_of_ne h, Bool.false_eq_true, if_false]

/-- A read either raises `Unconstructed` or answers the register's content (00_scope.md R13). -/
theorem readVec_cases (s : State) (r : Reg) :
    ((regAt s r).n = 0 ∧ readVec s r = .error .unconstructed) ∨
      ((regAt s r).n ≠ 0 ∧ readVec s r = .ok (regAt s r).toVec) := by
  by_cases h : (regAt s r).n = 0
  · exact .inl ⟨h, readVec_unconstructed h⟩
  · exact .inr ⟨h, readVec_constructed h⟩

theorem Holds.wf {s : State} {r : Reg} {n x : Nat} (h : Holds s r n x) : Vec.Wf s.config (mkVec s.config n x) :=
  mkVec_wf h.1 h.2.1 h.2.2.1

theorem Holds.n_ne_zero {s : State} (hc : s.config.legal = true) {r : Reg} {n x : Nat} (h : Holds s r n x) :
    (regAt s r).n ≠ 0 := by
  rw [h.2.2.2]; exact toReg_n_ne_zero hc h.1 h.2.1

theorem Holds.toVec {s : State} (hc : s.config.legal = true) {r : Reg} {n x : Nat} (h : Holds s r n x) :
    (regAt s r).toVec = mkVec s.config n x := by
  rw [h.2.2.2]; exact toVec_toReg_of_wf hc h.wf

/-- A read of a register that holds `mk(n, x)` answers `mk(n, x)`. -/
theorem Holds.readVec {s : State} (hc : s.config.legal = true) {r : Reg} {n x : Nat} (h : Holds s r n x) :
    readVec s r = .ok (mkVec s.config n x) := by
  rw [readVec_constructed (h.n_ne_zero hc), h.toVec hc]

theorem Holds.val {s : State} {r : Reg} {n x : Nat} (h : Holds s r n x) :
    (mkVec s.config n x).val s.config = x := mkVec_val h.2.1 h.2.2.1

/-- A constructed register that is well formed holds exactly one vector value (10_state.md R24, R25). -/
theorem holds_of_wf {s : State} {r : Reg} (hw : VReg.Wf s.config (regAt s r))
    (hn : (regAt s r).n ≠ 0) : Holds s r (regAt s r).n.toNat ((regAt s r).toVec.val s.config) := by
  rcases hw with h | h
  · exact absurd h hn
  · refine ⟨h.1, h.2.1, h.val_lt, ?_⟩
    rw [← toVec_n, ← h.eq_mkVec, toReg_toVec]

/-- In a state of the invariant a register is unconstructed or holds a vector value. -/
theorem holds_or_unconstructed {s : State} (h : Inv s) (r : Reg) :
    (regAt s r).n = 0 ∨ ∃ n x, Holds s r n x := by
  by_cases hn : (regAt s r).n = 0
  · exact .inl hn
  · exact .inr ⟨_, _, holds_of_wf (h.2.1 r) hn⟩

/-- The register written holds the value written. -/
theorem holds_writeVec {s : State} {r : Reg} {n x : Nat} (h1 : 1 ≤ n) (hn : n ≤ s.config.nmax) (hx : x < 2 ^ n) :
    Holds (writeVec s r (mkVec s.config n x)) r n x := ⟨h1, hn, hx, by simp⟩

/-- What every other register holds is not changed by a write. -/
theorem Holds.writeVec_other {s : State} {r q : Reg} {n x : Nat} (h : Holds s q n x) (v : Vec) (hq : q ≠ r) :
    Holds (writeVec s r v) q n x :=
  ⟨h.1, h.2.1, h.2.2.1, by rw [regAt_writeVec_other s v hq]; exact h.2.2.2⟩

/-- A write of a well-formed vector leaves every register well formed. -/
theorem regs_wf_writeVec {s : State} (hc : s.config.legal = true) {r : Reg} {v : Vec} (hv : Vec.Wf s.config v)
    (h : ∀ q, VReg.Wf s.config (regAt s q)) (q : Reg) : VReg.Wf s.config (regAt (writeVec s r v) q) := by
  rw [regAt_writeVec]
  split
  · exact .inr (by rw [toVec_toReg_of_wf hc hv]; exact hv)
  · exact h q

theorem readVec_wf {s : State} (h : ∀ q, VReg.Wf s.config (regAt s q)) {r : Reg} {v : Vec}
    (hr : readVec s r = .ok v) : Vec.Wf s.config v := by
  rcases readVec_cases s r with ⟨-, e⟩ | ⟨hn, e⟩
  · rw [e] at hr; cases hr
  · rw [e] at hr; cases hr
    exact (h r).resolve_left hn

theorem readVecs_ok {s : State} {p q : Reg} {a b : Vec} (ha : readVec s p = .ok a) (hb : readVec s q = .ok b) :
    readVecs s p q = .ok (a, b) := by simp [readVecs, ha, hb]

theorem readVecs_unconstructed {s : State} {p q : Reg} (h : (regAt s p).n = 0 ∨ (regAt s q).n = 0) :
    readVecs s p q = .error .unconstructed := by
  unfold readVecs
  rcases readVec_cases s p with ⟨-, e⟩ | ⟨hp, e⟩
  · simp [e]
  · rw [e, except_ok_bind, readVec_unconstructed (h.resolve_left hp), except_error_bind]

theorem readVecs_cases (s : State) (p q : Reg) :
    readVecs s p q = .error .unconstructed ∨
      ∃ a b, readVec s p = .ok a ∧ readVec s q = .ok b ∧ readVecs s p q = .ok (a, b) := by
  rcases readVec_cases s p with ⟨hp, -⟩ | ⟨-, ep⟩
  · exact .inl (readVecs_unconstructed (.inl hp))
  · rcases readVec_cases s q with ⟨hq, -⟩ | ⟨-, eq⟩
    · exact .inl (readVecs_unconstructed (.inr hq))
    · exact .inr ⟨_, _, ep, eq, readVecs_ok ep eq⟩

/-! The capacity check. -/

theorem checkWidth_ok {c : Config} {n : Nat} (h1 : 1 ≤ n) (hn : n ≤ c.nmax) : checkWidth c n = .ok () := by
  simp [checkWidth, show ¬ (n = 0 ∨ c.nmax < n) by omega]

theorem checkWidth_error {c : Config} {n : Nat} (h : n = 0 ∨ c.nmax < n) : checkWidth c n = .error .widthError := by
  simp [checkWidth, h]

theorem checkWidth_cases (c : Config) (n : Nat) :
    (1 ≤ n ∧ n ≤ c.nmax ∧ checkWidth c n = .ok ()) ∨
      ((n = 0 ∨ c.nmax < n) ∧ checkWidth c n = .error .widthError) := by
  by_cases h : n = 0 ∨ c.nmax < n
  · exact .inr ⟨h, checkWidth_error h⟩
  · exact .inl ⟨by omega, by omega, checkWidth_ok (by omega) (by omega)⟩

theorem requireLegal_true {b : Bool} (h : b = true) : requireLegal b = .ok () := by simp [requireLegal, h]

theorem requireLegal_false {b : Bool} (h : b = false) : requireLegal b = .error .illegalCommand := by
  simp [requireLegal, h]

/-! Bits of a block array. -/

theorem bitOf_lt_two (v i : Nat) : bitOf v i < 2 := Nat.mod_lt _ (by omega)

/-- Bit `p` of the integer is bit `p mod W` of block `p div W` (10_state.md R23). -/
theorem getBitOf_eq {c : Config} {l : List Nat} (h : Bounded c.W l) (p : Nat) :
    getBitOf c l p = bitOf (valueOf c.W l) p := by
  have hW := c.W_pos
  have hr : p % c.W < c.W := Nat.mod_lt _ hW
  rw [getBitOf, getD_eq_digit h]
  unfold bitOf
  obtain ⟨d, hd⟩ := Nat.exists_eq_add_of_lt hr
  have e : valueOf c.W l / 2 ^ (c.W * (p / c.W)) % 2 ^ c.W / 2 ^ (p % c.W)
      = valueOf c.W l / 2 ^ (c.W * (p / c.W)) / 2 ^ (p % c.W) % 2 ^ (d + 1) := by
    conv_lhs => rw [show c.W = p % c.W + (d + 1) by omega, Nat.pow_add]
    rw [← show c.W = p % c.W + (d + 1) by omega, Nat.mod_mul_right_div_self]
  rw [e, Nat.div_div_eq_div_mul, ← Nat.pow_add, Nat.div_add_mod, Nat.mod_mod_of_dvd]
  exact ⟨2 ^ d, by rw [Nat.pow_succ, Nat.mul_comm]⟩

/-- The value of an array with block `k` replaced. -/
theorem valueOf_set {W : Nat} {l : List Nat} {k : Nat} (hk : k < l.length) (b : Nat) :
    valueOf W (l.set k b) + 2 ^ (W * k) * l.getD k 0 = valueOf W l + 2 ^ (W * k) * b := by
  induction l generalizing k with
  | nil => simp at hk
  | cons x xs ih =>
    cases k with
    | zero => simp; omega
    | succ k =>
      have := ih (k := k) (by simpa using hk)
      simp only [List.set_cons_succ, valueOf_cons, List.getD_cons_succ, Nat.mul_add, Nat.mul_one, Nat.pow_add]
      calc x + 2 ^ W * valueOf W (xs.set k b) + 2 ^ (W * k) * 2 ^ W * xs.getD k 0
          = x + 2 ^ W * (valueOf W (xs.set k b) + 2 ^ (W * k) * xs.getD k 0) := by ring
        _ = x + 2 ^ W * (valueOf W xs + 2 ^ (W * k) * b) := by rw [this]
        _ = _ := by ring

theorem Bounded.set {W : Nat} {l : List Nat} (h : Bounded W l) (k : Nat) {b : Nat} (hb : b < 2 ^ W) :
    Bounded W (l.set k b) := by
  intro y hy
  rcases List.mem_or_eq_of_mem_set hy with hm | rfl
  · exact h y hm
  · exact hb

theorem bit_split (b r : Nat) : b = b / 2 ^ (r + 1) * 2 ^ (r + 1) + bitOf b r * 2 ^ r + b % 2 ^ r := by
  have e1 := Nat.div_add_mod b (2 ^ r)
  have e2 := Nat.div_add_mod (b / 2 ^ r) 2
  rw [Nat.div_div_eq_div_mul, ← Nat.pow_succ] at e2
  unfold bitOf
  calc b = 2 ^ r * (b / 2 ^ r) + b % 2 ^ r := e1.symm
    _ = 2 ^ r * (2 * (b / 2 ^ (r + 1)) + b / 2 ^ r % 2) + b % 2 ^ r := by rw [e2]
    _ = _ := by ring

theorem bit_le (b r : Nat) : bitOf b r * 2 ^ r ≤ b := by
  have := bit_split b r; omega

/-- Replacing a bit of a `W`-bit block gives a `W`-bit block. -/
theorem replaceBit_lt {W b r d : Nat} (hb : b < 2 ^ W) (hr : r < W) (hd : d < 2) :
    b - bitOf b r * 2 ^ r + d * 2 ^ r < 2 ^ W := by
  have e := bit_split b r
  have hm : b % 2 ^ r < 2 ^ r := Nat.mod_lt _ (Nat.two_pow_pos _)
  obtain ⟨k, rfl⟩ := Nat.exists_eq_add_of_lt hr
  have hq : b / 2 ^ (r + 1) < 2 ^ k := by
    rw [Nat.div_lt_iff_lt_mul (Nat.two_pow_pos _), ← Nat.pow_add]
    rwa [show k + (r + 1) = r + k + 1 by omega]
  have e2 : b - bitOf b r * 2 ^ r + d * 2 ^ r = b / 2 ^ (r + 1) * 2 ^ (r + 1) + d * 2 ^ r + b % 2 ^ r := by
    generalize b / 2 ^ (r + 1) * 2 ^ (r + 1) = u at e
    omega
  rw [e2]
  have h1 : d * 2 ^ r ≤ 1 * 2 ^ r := Nat.mul_le_mul_right _ (by omega)
  have h2 : (b / 2 ^ (r + 1) + 1) * 2 ^ (r + 1) ≤ 2 ^ k * 2 ^ (r + 1) := Nat.mul_le_mul_right _ hq
  have h3 : (b / 2 ^ (r + 1) + 1) * 2 ^ (r + 1) = b / 2 ^ (r + 1) * 2 ^ (r + 1) + 2 * 2 ^ r := by ring
  have h4 : 2 ^ k * 2 ^ (r + 1) = 2 ^ (r + k + 1) := by rw [← Nat.pow_add]; congr 1; omega
  omega

theorem setBitOf_eq_set (c : Config) (l : List Nat) (p d : Nat) :
    setBitOf c l p d = l.set (p / c.W)
      (l.getD (p / c.W) 0 - bitOf (l.getD (p / c.W) 0) (p % c.W) * 2 ^ (p % c.W) + d * 2 ^ (p % c.W)) := by
  unfold setBitOf
  rw [List.modify_eq_set_getElem?]
  rcases hk : l[p / c.W]? with _ | b
  · rw [List.getElem?_eq_none_iff] at hk
    simp [List.set_eq_of_length_le hk]
  · simp [List.getD_eq_getElem?_getD, hk]

@[simp] theorem length_setBitOf (c : Config) (l : List Nat) (p d : Nat) : (setBitOf c l p d).length = l.length := by
  simp [setBitOf_eq_set]

theorem bounded_setBitOf {c : Config} {l : List Nat} (h : Bounded c.W l) (p : Nat) {d : Nat} (hd : d < 2) :
    Bounded c.W (setBitOf c l p d) := by
  rw [setBitOf_eq_set]
  exact h.set _ (replaceBit_lt (h.getD _) (Nat.mod_lt _ c.W_pos) hd)

/-- Bit `p` of the value is replaced by `d`, and nothing else (20_memory.md R54). -/
theorem valueOf_setBitOf {c : Config} {l : List Nat} (h : Bounded c.W l) {p d : Nat} (hp : p < c.W * l.length) :
    valueOf c.W (setBitOf c l p d) = valueOf c.W l - bitOf (valueOf c.W l) p * 2 ^ p + d * 2 ^ p := by
  have hk : p / c.W < l.length := Nat.div_lt_of_lt_mul hp
  rw [← getBitOf_eq h, setBitOf_eq_set]
  have hset := valueOf_set (W := c.W) hk
    (l.getD (p / c.W) 0 - bitOf (l.getD (p / c.W) 0) (p % c.W) * 2 ^ (p % c.W) + d * 2 ^ (p % c.W))
  have hle := bit_le (l.getD (p / c.W) 0) (p % c.W)
  have hpow : 2 ^ p = 2 ^ (c.W * (p / c.W)) * 2 ^ (p % c.W) := by rw [← Nat.pow_add, Nat.div_add_mod]
  have hle2 := bit_le (valueOf c.W l) p
  rw [← getBitOf_eq h] at hle2
  unfold getBitOf at hle2 ⊢
  generalize hb : l.getD (p / c.W) 0 = b at *
  generalize hβ : bitOf b (p % c.W) = β at *
  generalize valueOf c.W (l.set (p / c.W) (b - β * 2 ^ (p % c.W) + d * 2 ^ (p % c.W))) = v' at *
  rw [Nat.mul_add, Nat.mul_sub, ← Nat.mul_assoc, ← Nat.mul_assoc, Nat.mul_right_comm _ β, Nat.mul_right_comm _ d,
    ← hpow] at hset
  have hle3 : 2 ^ p * β ≤ 2 ^ (c.W * (p / c.W)) * b := by
    rw [hpow, Nat.mul_assoc, Nat.mul_comm _ β]; exact Nat.mul_le_mul_left _ hle
  rw [Nat.mul_comm β, Nat.mul_comm d] at *
  omega

end Sys2Proof.Machine
end

