-- ==== Sys2Proof/Laws/Shift.lean ====
section
/-! SUPPORT. The shift engine on integers: what the stage functions and the composed shifts compute (43_shift.md R161 to
R165), and the value of the blocks a vector uses. -/

namespace Sys2Proof.Machine

/-! The used blocks. -/

/-- A width-`n` vector fits its `B(n)` blocks (00_scope.md R9). -/
theorem le_blockCount (c : Config) (n : Nat) : n ≤ c.W * blockCount c n := by
  have hW := c.W_pos
  have e := Nat.div_add_mod (n + (c.W - 1)) c.W
  have hm := Nat.mod_lt (n + (c.W - 1)) hW
  unfold blockCount; omega

theorem blockCount_le_cap {c : Config} {n : Nat} (h : n ≤ c.nmax) : blockCount c n ≤ c.cap := by
  have hW := c.W_pos
  rw [Config.nmax_eq] at h
  unfold blockCount
  rw [← Nat.lt_succ_iff, Nat.div_lt_iff_lt_mul hW, Nat.mul_comm, Nat.mul_succ]
  omega

theorem blockCount_mono (c : Config) {n m : Nat} (h : n ≤ m) : blockCount c n ≤ blockCount c m :=
  Nat.div_le_div_right (by omega)

/-- The first `m` blocks of `mk(n, x)` have value `x` when they hold all its bits. -/
theorem valueOf_take_blocksOf {c : Config} {n m x : Nat} (hx : x < 2 ^ n) (hm : n ≤ c.W * m) (hn : n ≤ c.nmax) :
    valueOf c.W ((blocksOf c x).take m) = x := by
  rw [valueOf_take (bounded_blocksOf c x), valueOf_blocksOf, Nat.mod_eq_of_lt (lt_of_width hn hx),
    Nat.mod_eq_of_lt (lt_of_width hm hx)]

theorem length_take_blocksOf {c : Config} {n x : Nat} (hn : n ≤ c.nmax) :
    ((blocksOf c x).take (blockCount c n)).length = blockCount c n := by
  simp [blockCount_le_cap hn]

theorem valueOf_used {c : Config} {n x : Nat} (hn : n ≤ c.nmax) (hx : x < 2 ^ n) :
    valueOf c.W ((mkVec c n x).used c) = x :=
  valueOf_take_blocksOf hx (le_blockCount c n) hn

theorem length_used {c : Config} {n x : Nat} (hn : n ≤ c.nmax) :
    ((mkVec c n x).used c).length = blockCount c n := length_take_blocksOf hn

theorem bounded_used (c : Config) (n x : Nat) : Bounded c.W ((mkVec c n x).used c) := (bounded_blocksOf c x).take _

theorem length_padBlocks {c : Config} {u : List Nat} (h : u.length ≤ c.cap) : (padBlocks c u).length = c.cap := by
  simp [padBlocks]; omega

theorem bounded_padBlocks {c : Config} {u : List Nat} (h : Bounded c.W u) : Bounded c.W (padBlocks c u) :=
  h.append (Bounded.zeros _ _)

theorem valueOf_padBlocks (c : Config) (u : List Nat) : valueOf c.W (padBlocks c u) = valueOf c.W u := by
  simp [padBlocks, valueOf_append]

/-- The vector of used blocks `u`, without a trim. -/
theorem padded_eq {c : Config} {n : Nat} {u : List Nat} (hl : u.length ≤ c.cap) (hb : Bounded c.W u) :
    ({ n := n, blk := padBlocks c u } : Vec) = mkVec c n (valueOf c.W u) :=
  eq_mkVec (length_padBlocks hl) (bounded_padBlocks hb) (valueOf_padBlocks c u)

/-- The vector of used blocks `u`, trimmed. -/
theorem ofUsed_eq {c : Config} {n : Nat} {u : List Nat} (hl : u.length ≤ c.cap) (hb : Bounded c.W u) :
    Vec.ofUsed c n u = mkVec c n (valueOf c.W u % 2 ^ n) := by
  apply eq_mkVec
  · simp [length_padBlocks hl]
  · exact bounded_trimTo (bounded_padBlocks hb)
  · rw [valueOf_trimTo n (bounded_padBlocks hb), valueOf_padBlocks]

/-- Conversion of width on values: `val mod 2^m` (40_construct_convert.md R104). -/
theorem convert_eq {c : Config} {n m x : Nat} (hn : n ≤ c.nmax) (hx : x < 2 ^ n) :
    (mkVec c n x).convert c m = mkVec c m (x % 2 ^ m) := by
  apply eq_mkVec
  · simp
  · exact bounded_trimTo (bounded_blocksOf c x)
  · rw [mkVec_blk, valueOf_trimTo m (bounded_blocksOf c x), valueOf_blocksOf, Nat.mod_eq_of_lt (lt_of_width hn hx)]

/-! The whole-block stage. -/

@[simp] theorem length_blockShiftLeft (t : List Nat) (k : Nat) : (blockShiftLeft t k).length = t.length := by
  simp [blockShiftLeft]

@[simp] theorem length_blockShiftRight (t : List Nat) (k : Nat) : (blockShiftRight t k).length = t.length := by
  simp [blockShiftRight]

theorem blockShiftLeft_eq (t : List Nat) (k : Nat) :
    blockShiftLeft t k = (List.replicate k 0 ++ t).take t.length := by
  apply List.ext_getElem
  · simp
  · intro i h1 h2
    simp only [blockShiftLeft, List.getElem_map, List.getElem_range, List.getElem_take, List.getElem_append,
      List.length_replicate, List.getElem_replicate]
    by_cases hk : k ≤ i
    · have hi : i - k < t.length := by simp at h1; omega
      simp [hk, show ¬ i < k by omega, List.getD_eq_getElem?_getD, List.getElem?_eq_getElem hi]
    · simp [hk, show i < k by omega]

theorem blockShiftRight_eq (t : List Nat) (k : Nat) :
    blockShiftRight t k = (t ++ List.replicate k 0).drop k := by
  apply List.ext_getElem
  · simp
  · intro i h1 h2
    simp only [blockShiftRight, List.getElem_map, List.getElem_range, List.getElem_drop, List.getElem_append,
      List.getElem_replicate]
    by_cases hk : i + k < t.length
    · simp [hk, List.getD_eq_getElem?_getD, Nat.add_comm k i]
    · simp [hk, show ¬ k + i < t.length by omega]

theorem bounded_blockShiftLeft {W : Nat} {t : List Nat} (h : Bounded W t) (k : Nat) :
    Bounded W (blockShiftLeft t k) := by
  rw [blockShiftLeft_eq]; exact ((Bounded.zeros W k).append h).take _

theorem bounded_blockShiftRight {W : Nat} {t : List Nat} (h : Bounded W t) (k : Nat) :
    Bounded W (blockShiftRight t k) := by
  rw [blockShiftRight_eq]; exact (h.append (Bounded.zeros W k)).drop _

/-- `U = (T * 2^(k*W)) mod 2^(W*m)` (43_shift.md R161). -/
theorem valueOf_blockShiftLeft {W : Nat} {t : List Nat} (h : Bounded W t) (k : Nat) :
    valueOf W (blockShiftLeft t k) = valueOf W t * 2 ^ (W * k) % 2 ^ (W * t.length) := by
  rw [blockShiftLeft_eq, valueOf_take ((Bounded.zeros W k).append h), valueOf_append]
  simp [Nat.mul_comm]

/-- `U = T div 2^(k*W)` (43_shift.md R162). -/
theorem valueOf_blockShiftRight {W : Nat} {t : List Nat} (h : Bounded W t) (k : Nat) :
    valueOf W (blockShiftRight t k) = valueOf W t / 2 ^ (W * k) := by
  rw [blockShiftRight_eq, valueOf_drop (h.append (Bounded.zeros W k)), valueOf_append]
  simp

/-! The sub-block stage. -/

/-- One block of the sub-block stage: the low part of `hi` above the top `r` bits of `lo` is the block read at bit
`W - r` of the two blocks side by side. -/
theorem join_blocks {W hi lo r : Nat} (hr : r ≤ W) (hlo : lo < 2 ^ W) :
    shlW W (hi % 2 ^ W) r ||| shrW lo (W - r) = (2 ^ W * hi + lo) / 2 ^ (W - r) % 2 ^ W := by
  obtain ⟨k, rfl⟩ := Nat.exists_eq_add_of_le hr
  rw [Nat.add_sub_cancel_left]
  have h1 : shlW (r + k) (hi % 2 ^ (r + k)) r = 2 ^ r * (hi % 2 ^ k) := by
    unfold shlW
    rw [← Nat.mod_mul_mod, Nat.mod_mod, Nat.mod_mul_mod, Nat.mul_comm hi, Nat.pow_add, Nat.mul_mod_mul_left]
  have h2 : shrW lo k < 2 ^ r := by
    unfold shrW
    rw [Nat.div_lt_iff_lt_mul (Nat.two_pow_pos _), ← Nat.pow_add]; exact hlo
  have h3 : (2 ^ (r + k) * hi + lo) / 2 ^ k = 2 ^ r * hi + lo / 2 ^ k := by
    rw [Nat.pow_add, Nat.mul_comm (2 ^ r), Nat.mul_assoc, Nat.mul_add_div (Nat.two_pow_pos _)]
  rw [h1, ← Nat.two_pow_add_eq_or_of_lt h2, h3]
  have h4 : 2 ^ r * (hi % 2 ^ k) + lo / 2 ^ k < 2 ^ (r + k) := by
    have : hi % 2 ^ k < 2 ^ k := Nat.mod_lt _ (Nat.two_pow_pos _)
    have h5 : 2 ^ r * (hi % 2 ^ k + 1) ≤ 2 ^ r * 2 ^ k := Nat.mul_le_mul_left _ this
    rw [Nat.pow_add]; unfold shrW at h2
    rw [Nat.mul_add, Nat.mul_one] at h5; omega
  conv_rhs => rw [← Nat.div_add_mod hi (2 ^ k), Nat.mul_add, ← Nat.mul_assoc, ← Nat.pow_add, Nat.add_assoc,
    Nat.mul_add_mod_self_left]
  rw [Nat.mod_eq_of_lt h4]; rfl

@[simp] theorem length_subShiftLeft (W : Nat) (t : List Nat) (r : Nat) : (subShiftLeft W t r).length = t.length := by
  unfold subShiftLeft; split <;> simp

@[simp] theorem length_subShiftRight (W : Nat) (t : List Nat) (r : Nat) :
    (subShiftRight W t r).length = t.length := by
  unfold subShiftRight; split <;> simp

/-- The blocks of the left sub-block stage are the digits of `T * 2^r`. -/
theorem subShiftLeft_eq {W r : Nat} {t : List Nat} (h : Bounded W t) (h0 : r ≠ 0) (hr : r < W) :
    subShiftLeft W t r = (List.range t.length).map fun i => valueOf W t * 2 ^ r / 2 ^ (W * i) % 2 ^ W := by
  rw [subShiftLeft, if_neg h0]
  apply List.map_congr_left
  intro i _
  rcases i with _ | i
  · have := getD_eq_digit h 0
    simp only [Nat.mul_zero, Nat.pow_zero, Nat.div_one] at this
    simp only [shlW, Nat.mul_zero, Nat.pow_zero, Nat.div_one, this, Nat.mod_mul_mod]
    rfl
  · rw [if_pos (by omega), Nat.add_sub_cancel, getD_eq_digit h, getD_eq_digit h, Nat.mul_add, Nat.mul_one, Nat.pow_add,
      ← Nat.div_div_eq_div_mul]
    generalize valueOf W t = T
    have e : T * 2 ^ r / (2 ^ (W * i) * 2 ^ W) = T / 2 ^ (W * i) / 2 ^ (W - r) := by
      rw [Nat.div_div_eq_div_mul]
      conv_lhs => rw [show W = (W - r) + r by omega, Nat.pow_add, ← Nat.mul_assoc,
        Nat.mul_div_mul_right _ _ (Nat.two_pow_pos _)]
      rw [show (W - r) + r = W by omega]
    rw [e, join_blocks (by omega) (Nat.mod_lt _ (Nat.two_pow_pos _)), Nat.div_add_mod]

/-- The blocks of the right sub-block stage are the digits of `T div 2^r`. -/
theorem subShiftRight_eq {W r : Nat} {t : List Nat} (h : Bounded W t) (h0 : r ≠ 0) (hr : r < W) :
    subShiftRight W t r = (List.range t.length).map fun i => valueOf W t / 2 ^ r / 2 ^ (W * i) % 2 ^ W := by
  rw [subShiftRight, if_neg h0]
  apply List.map_congr_left
  intro i hi
  have e : (if i + 1 < t.length then shrW (t.getD i 0) r ||| shlW W (t.getD (i + 1) 0) (W - r)
      else shrW (t.getD i 0) r) = shlW W (t.getD (i + 1) 0) (W - r) ||| shrW (t.getD i 0) r := by
    split
    · rw [Nat.or_comm]
    · have : t.getD (i + 1) 0 = 0 := by
        rw [List.getD_eq_getElem?_getD, List.getElem?_eq_none (by omega)]; rfl
      rw [this]; simp [shlW]
  rw [e, getD_eq_digit h, getD_eq_digit h, Nat.mul_add, Nat.mul_one, Nat.pow_add, ← Nat.div_div_eq_div_mul]
  generalize valueOf W t = T
  have hj := join_blocks (W := W) (hi := T / 2 ^ (W * i) / 2 ^ W) (r := W - r) (by omega)
    (Nat.mod_lt (T / 2 ^ (W * i)) (Nat.two_pow_pos W))
  rw [show W - (W - r) = r by omega, Nat.div_add_mod] at hj
  rw [hj, Nat.div_div_eq_div_mul, Nat.mul_comm, ← Nat.div_div_eq_div_mul]

theorem bounded_digits (W x k : Nat) : Bounded W ((List.range k).map fun j => x / 2 ^ (W * j) % 2 ^ W) := by
  intro b hb
  obtain ⟨j, -, rfl⟩ := List.mem_map.mp hb
  exact Nat.mod_lt _ (Nat.two_pow_pos _)

theorem bounded_subShiftLeft {W r : Nat} {t : List Nat} (h : Bounded W t) (hr : r < W) :
    Bounded W (subShiftLeft W t r) := by
  by_cases h0 : r = 0
  · subst h0; simpa [subShiftLeft] using h
  · rw [subShiftLeft_eq h h0 hr]; exact bounded_digits _ _ _

theorem bounded_subShiftRight {W r : Nat} {t : List Nat} (h : Bounded W t) (hr : r < W) :
    Bounded W (subShiftRight W t r) := by
  by_cases h0 : r = 0
  · subst h0; simpa [subShiftRight] using h
  · rw [subShiftRight_eq h h0 hr]; exact bounded_digits _ _ _

/-- `U = (T * 2^r) mod 2^(W*m)` (43_shift.md R163). -/
theorem valueOf_subShiftLeft {W r : Nat} {t : List Nat} (h : Bounded W t) (hr : r < W) :
    valueOf W (subShiftLeft W t r) = valueOf W t * 2 ^ r % 2 ^ (W * t.length) := by
  by_cases h0 : r = 0
  · subst h0; simp [subShiftLeft, Nat.mod_eq_of_lt (valueOf_lt h)]
  · rw [subShiftLeft_eq h h0 hr, valueOf_digits]

/-- `U = T div 2^r` (43_shift.md R164). -/
theorem valueOf_subShiftRight {W r : Nat} {t : List Nat} (h : Bounded W t) (hr : r < W) :
    valueOf W (subShiftRight W t r) = valueOf W t / 2 ^ r := by
  by_cases h0 : r = 0
  · subst h0; simp [subShiftRight]
  · rw [subShiftRight_eq h h0 hr, valueOf_digits, Nat.mod_eq_of_lt]
    exact lt_of_le_of_lt (Nat.div_le_self _ _) (valueOf_lt h)

/-! The shifts on vectors `mk(n, x)`. -/

section

variable {c : Config} {n x : Nat} (hn : n ≤ c.nmax) (hx : x < 2 ^ n)

include hn hx

omit hn hx in
/-- Reduction modulo the bits of the used blocks does not matter below `2^n`. -/
theorem mod_used_mod (v : Nat) : v % 2 ^ (c.W * blockCount c n) % 2 ^ n = v % 2 ^ n :=
  Nat.mod_mod_of_dvd _ (Nat.pow_dvd_pow 2 (le_blockCount c n))

/-- BSHL on values: `(x * 2^(k*W)) mod 2^n` (43_shift.md R166). -/
theorem wholeLeft_eq (k : Nat) :
    Vec.ofUsed c n (blockShiftLeft ((mkVec c n x).used c) k) = mkVec c n (x * 2 ^ (c.W * k) % 2 ^ n) := by
  rw [ofUsed_eq (by simp [length_used hn, blockCount_le_cap hn]) (bounded_blockShiftLeft (bounded_used _ _ _) k),
    valueOf_blockShiftLeft (bounded_used _ _ _), valueOf_used hn hx, length_used hn, mod_used_mod]

/-- BSHR on values: `x div 2^(k*W)` (43_shift.md R167). -/
theorem wholeRight_eq (k : Nat) :
    ({ n := n, blk := padBlocks c (blockShiftRight ((mkVec c n x).used c) k) } : Vec)
      = mkVec c n (x / 2 ^ (c.W * k)) := by
  rw [padded_eq (by simp [length_used hn, blockCount_le_cap hn]) (bounded_blockShiftRight (bounded_used _ _ _) k),
    valueOf_blockShiftRight (bounded_used _ _ _), valueOf_used hn hx]

/-- SSHL on values: `(x * 2^r) mod 2^n` (43_shift.md R168). -/
theorem subLeft_eq {r : Nat} (hr : r < c.W) :
    Vec.ofUsed c n (subShiftLeft c.W ((mkVec c n x).used c) r) = mkVec c n (x * 2 ^ r % 2 ^ n) := by
  rw [ofUsed_eq (by simp [length_used hn, blockCount_le_cap hn]) (bounded_subShiftLeft (bounded_used _ _ _) hr),
    valueOf_subShiftLeft (bounded_used _ _ _) hr, valueOf_used hn hx, length_used hn, mod_used_mod]

/-- SSHR on values: `x div 2^r` (43_shift.md R169). -/
theorem subRight_eq {r : Nat} (hr : r < c.W) :
    ({ n := n, blk := padBlocks c (subShiftRight c.W ((mkVec c n x).used c) r) } : Vec)
      = mkVec c n (x / 2 ^ r) := by
  rw [padded_eq (by simp [length_used hn, blockCount_le_cap hn]) (bounded_subShiftRight (bounded_used _ _ _) hr),
    valueOf_subShiftRight (bounded_used _ _ _) hr, valueOf_used hn hx]

/-- `val(shl_v(a, s)) = (x * 2^s) mod 2^n` (43_shift.md R165). -/
theorem shlVec_eq (s : Nat) : shlVec c (mkVec c n x) s = mkVec c n (x * 2 ^ s % 2 ^ n) := by
  by_cases h : n ≤ s
  · rw [shlVec, if_pos (show (mkVec c n x).n ≤ s from h), mkVec_n]
    obtain ⟨d, rfl⟩ := Nat.exists_eq_add_of_le h
    rw [Nat.pow_add, ← Nat.mul_assoc, Nat.mul_right_comm, Nat.mul_mod_left]
  · rw [shlVec, if_neg (show ¬ (mkVec c n x).n ≤ s from h), mkVec_n]
    have hr : s % c.W < c.W := Nat.mod_lt _ c.W_pos
    have hb := bounded_blockShiftLeft (bounded_used c n x) (s / c.W)
    rw [ofUsed_eq (by simp [length_used hn, blockCount_le_cap hn]) (bounded_subShiftLeft hb hr),
      valueOf_subShiftLeft hb hr, valueOf_blockShiftLeft (bounded_used _ _ _), valueOf_used hn hx,
      length_blockShiftLeft, length_used hn, mod_used_mod, Nat.mul_mod, mod_used_mod, ← Nat.mul_mod,
      Nat.mul_assoc, ← Nat.pow_add, Nat.div_add_mod]

/-- `val(shr_v(a, s)) = x div 2^s` (43_shift.md R165). -/
theorem shrVec_eq (s : Nat) : shrVec c (mkVec c n x) s = mkVec c n (x / 2 ^ s) := by
  by_cases h : n ≤ s
  · rw [shrVec, if_pos (show (mkVec c n x).n ≤ s from h), mkVec_n, Nat.div_eq_of_lt (lt_of_width h hx)]
  · rw [shrVec, if_neg (show ¬ (mkVec c n x).n ≤ s from h), mkVec_n]
    have hr : s % c.W < c.W := Nat.mod_lt _ c.W_pos
    have hb := bounded_blockShiftRight (bounded_used c n x) (s / c.W)
    have hlt : x / 2 ^ s < 2 ^ n := lt_of_le_of_lt (Nat.div_le_self _ _) hx
    rw [ofUsed_eq (by simp [length_used hn, blockCount_le_cap hn]) (bounded_subShiftRight hb hr),
      valueOf_subShiftRight hb hr, valueOf_blockShiftRight (bounded_used _ _ _), valueOf_used hn hx,
      Nat.div_div_eq_div_mul, ← Nat.pow_add, Nat.div_add_mod, Nat.mod_eq_of_lt hlt]

end

end Sys2Proof.Machine
end

