-- ==== Sys2Proof/Laws/Adder.lean ====
section
/-! SUPPORT. The block primitives, the multi-block loops, and the adder, subtractor and logic on integers
(42_block_primitives.md R150, R151, R154; 44_add_sub.md R193, R194; 47_logic_compare.md R240 to R242). -/

namespace Sys2Proof.Machine

/-! The primitives. -/

/-- `a + b + c = new_carry * 2^W + sum` (42_block_primitives.md R150). -/
theorem addBlock_exact {W a b : Nat} (c : Bool) (ha : a < 2 ^ W) (hb : b < 2 ^ W) :
    (addBlock W a b c).1 + 2 ^ W * (addBlock W a b c).2.toNat = a + b + c.toNat := by
  have hc : c.toNat ≤ 1 := Bool.toNat_le c
  simp only [addBlock]
  by_cases h : 2 ^ W ≤ a + b + c.toNat
  · have e : (a + b + c.toNat) % 2 ^ W = a + b + c.toNat - 2 ^ W := by
      rw [Nat.mod_eq_sub_mod h, Nat.mod_eq_of_lt (by omega)]
    simp [h, e]
  · simp [h, Nat.mod_eq_of_lt (Nat.lt_of_not_le h)]

theorem addBlock_lt (W a b : Nat) (c : Bool) : (addBlock W a b c).1 < 2 ^ W := Nat.mod_lt _ (Nat.two_pow_pos W)

/-- `a - b - w = diff - new_borrow * 2^W` (42_block_primitives.md R151). -/
theorem subtractBlock_exact {W a b : Nat} (w : Bool) (ha : a < 2 ^ W) (hb : b < 2 ^ W) :
    (subtractBlock W a b w).1 + b + w.toNat = a + 2 ^ W * (subtractBlock W a b w).2.toNat := by
  have hw : w.toNat ≤ 1 := Bool.toNat_le w
  have hz : ((2 ^ W : Nat) : Int) = (2 : Int) ^ W := by push_cast; rfl
  simp only [subtractBlock]
  by_cases h : a < b + w.toNat
  · have e : (((a : Int) - b - w.toNat) % 2 ^ W) = (a : Int) - b - w.toNat + 2 ^ W := by
      rw [← Int.add_emod_right, Int.emod_eq_of_lt] <;> omega
    rw [e]; simp [h]; omega
  · have e : (((a : Int) - b - w.toNat) % 2 ^ W) = (a : Int) - b - w.toNat := by
      rw [Int.emod_eq_of_lt] <;> omega
    rw [e]; simp [h]; omega

theorem subtractBlock_lt (W a b : Nat) (w : Bool) : (subtractBlock W a b w).1 < 2 ^ W := by
  have h0 : (0 : Int) < 2 ^ W := Int.pow_pos (by omega)
  have h1 := Int.emod_lt_of_pos ((a : Int) - b - w.toNat) h0
  have h2 := Int.emod_nonneg ((a : Int) - b - w.toNat) (Int.ne_of_gt h0)
  have hz : ((2 ^ W : Nat) : Int) = (2 : Int) ^ W := by push_cast; rfl
  simp only [subtractBlock]; omega

/-! The loops. -/

theorem length_addChain {W : Nat} {A B : List Nat} (h : A.length = B.length) (c : Bool) :
    (addChain W A B c).1.length = A.length := by
  induction A generalizing B c with
  | nil => simp [addChain]
  | cons a A ih =>
    cases B with
    | nil => simp at h
    | cons b B => simp [addChain, ih (by simpa using h)]

theorem bounded_addChain (W : Nat) (A B : List Nat) (c : Bool) : Bounded W (addChain W A B c).1 := by
  induction A generalizing B c with
  | nil => intro b hb; simp [addChain] at hb
  | cons a A ih =>
    cases B with
    | nil => intro b hb; simp [addChain] at hb
    | cons b B =>
      intro y hy
      simp only [addChain, List.mem_cons] at hy
      rcases hy with rfl | hy
      · exact addBlock_lt ..
      · exact ih _ _ y hy

/-- `A + B + c = carry_out * 2^(W*m) + S` (42_block_primitives.md R154). -/
theorem addChain_exact {W : Nat} {A B : List Nat} (h : A.length = B.length) (hA : Bounded W A) (hB : Bounded W B)
    (c : Bool) :
    valueOf W (addChain W A B c).1 + 2 ^ (W * A.length) * (addChain W A B c).2.toNat
      = valueOf W A + valueOf W B + c.toNat := by
  induction A generalizing B c with
  | nil =>
    cases B with
    | nil => simp [addChain]
    | cons b B => simp at h
  | cons a A ih =>
    cases B with
    | nil => simp at h
    | cons b B =>
      have e1 := addBlock_exact c (hA a (by simp)) (hB b (by simp))
      have e2 := ih (B := B) (by simpa using h) hA.tail hB.tail (addBlock W a b c).2
      simp only [addChain, valueOf_cons, List.length_cons, Nat.mul_add, Nat.mul_one, Nat.pow_add]
      calc _ = (addBlock W a b c).1 + 2 ^ W * (valueOf W (addChain W A B (addBlock W a b c).2).1
              + 2 ^ (W * A.length) * (addChain W A B (addBlock W a b c).2).2.toNat) := by ring
        _ = (addBlock W a b c).1 + 2 ^ W * (addBlock W a b c).2.toNat
              + 2 ^ W * (valueOf W A + valueOf W B) := by rw [e2]; ring
        _ = _ := by rw [e1]; ring

theorem length_subChain {W : Nat} {A B : List Nat} (h : A.length = B.length) (w : Bool) :
    (subChain W A B w).1.length = A.length := by
  induction A generalizing B w with
  | nil => simp [subChain]
  | cons a A ih =>
    cases B with
    | nil => simp at h
    | cons b B => simp [subChain, ih (by simpa using h)]

theorem bounded_subChain (W : Nat) (A B : List Nat) (w : Bool) : Bounded W (subChain W A B w).1 := by
  induction A generalizing B w with
  | nil => intro b hb; simp [subChain] at hb
  | cons a A ih =>
    cases B with
    | nil => intro b hb; simp [subChain] at hb
    | cons b B =>
      intro y hy
      simp only [subChain, List.mem_cons] at hy
      rcases hy with rfl | hy
      · exact subtractBlock_lt ..
      · exact ih _ _ y hy

/-- `A - B - w = D - borrow_out * 2^(W*m)` (42_block_primitives.md R154). -/
theorem subChain_exact {W : Nat} {A B : List Nat} (h : A.length = B.length) (hA : Bounded W A) (hB : Bounded W B)
    (w : Bool) :
    valueOf W (subChain W A B w).1 + valueOf W B + w.toNat
      = valueOf W A + 2 ^ (W * A.length) * (subChain W A B w).2.toNat := by
  induction A generalizing B w with
  | nil =>
    cases B with
    | nil => simp [subChain]
    | cons b B => simp at h
  | cons a A ih =>
    cases B with
    | nil => simp at h
    | cons b B =>
      have e1 := subtractBlock_exact w (hA a (by simp)) (hB b (by simp))
      have e2 := ih (B := B) (by simpa using h) hA.tail hB.tail (subtractBlock W a b w).2
      simp only [subChain, valueOf_cons, List.length_cons, Nat.mul_add, Nat.mul_one, Nat.pow_add]
      have e3 := congrArg (2 ^ W * ·) e2
      simp only [Nat.mul_add] at e3
      calc _ = ((subtractBlock W a b w).1 + b + w.toNat)
              + (2 ^ W * valueOf W (subChain W A B (subtractBlock W a b w).2).1 + 2 ^ W * valueOf W B) := by ring
        _ = a + (2 ^ W * valueOf W (subChain W A B (subtractBlock W a b w).2).1 + 2 ^ W * valueOf W B
              + 2 ^ W * (subtractBlock W a b w).2.toNat) := by rw [e1]; ring
        _ = _ := by rw [e3]; ring

/-! The adder and the subtractor on vectors `mk(n, x)`. -/

section

variable {c : Config} {n1 n2 x y : Nat} (h1 : n1 ≤ c.nmax) (h2 : n2 ≤ c.nmax) (hx : x < 2 ^ n1) (hy : y < 2 ^ n2)

/-- The first `B(max(N1, N2))` blocks of an operand: their number, their bound and their value. -/
theorem firstBlocks_spec {c : Config} {n m x : Nat} (hn : n ≤ m) (hm : m ≤ c.nmax) (hx : x < 2 ^ n) :
    (firstBlocks (blockCount c m) (mkVec c n x)).length = blockCount c m ∧
      Bounded c.W (firstBlocks (blockCount c m) (mkVec c n x)) ∧
      valueOf c.W (firstBlocks (blockCount c m) (mkVec c n x)) = x :=
  ⟨length_take_blocksOf hm, (bounded_blocksOf c x).take _,
    valueOf_take_blocksOf hx (le_trans hn (le_blockCount c m)) (le_trans hn hm)⟩

include h1 h2 hx hy

/-- `add_v(a, b)` is `Overflow` exactly when `x + y ≥ 2^n`, and otherwise `mk(n, x + y)`, with `n = max(N1, N2)`
(44_add_sub.md R193). -/
theorem addVec_eq : addVec c (mkVec c n1 x) (mkVec c n2 y) =
    if x + y < 2 ^ max n1 n2 then .ok (mkVec c (max n1 n2) (x + y)) else .error .overflow := by
  have hm : max n1 n2 ≤ c.nmax := max_le h1 h2
  obtain ⟨la, ba, va⟩ := firstBlocks_spec (le_max_left n1 n2) hm hx
  obtain ⟨lb, bb, vb⟩ := firstBlocks_spec (le_max_right n1 n2) hm hy
  have e := addChain_exact (la.trans lb.symm) ba bb false
  have hl := length_addChain (W := c.W) (la.trans lb.symm) false
  have hb := bounded_addChain c.W (firstBlocks (blockCount c (max n1 n2)) (mkVec c n1 x))
    (firstBlocks (blockCount c (max n1 n2)) (mkVec c n2 y)) false
  rw [la] at e hl
  rw [va, vb] at e
  simp only [Bool.toNat_false, Nat.add_zero] at e
  have hle : 2 ^ max n1 n2 ≤ 2 ^ (c.W * blockCount c (max n1 n2)) :=
    Nat.pow_le_pow_right (by omega) (le_blockCount c _)
  simp only [addVec, show promotedWidth (mkVec c n1 x) (mkVec c n2 y) = max n1 n2 from rfl]
  generalize addChain c.W (firstBlocks (blockCount c (max n1 n2)) (mkVec c n1 x))
    (firstBlocks (blockCount c (max n1 n2)) (mkVec c n2 y)) false = r at *
  have hcap : r.1.length ≤ c.cap := by rw [hl]; exact blockCount_le_cap hm
  rcases hc : r.2 with _ | _
  · simp only [hc, Bool.toNat_false, Nat.mul_zero, Nat.add_zero] at e
    by_cases hlt : x + y < 2 ^ max n1 n2
    · have ht : trimTo c (max n1 n2) r.1 = r.1 := (trimTo_eq_self_iff hb).mpr (by rw [e]; exact hlt)
      simp [ht, hlt, padded_eq hcap hb, e]
    · have ht : trimTo c (max n1 n2) r.1 ≠ r.1 := fun h => hlt (e ▸ (trimTo_eq_self_iff hb).mp h)
      simp [ht, hlt]
  · simp only [hc, Bool.toNat_true, Nat.mul_one] at e
    have hlt : ¬ x + y < 2 ^ max n1 n2 := by omega
    simp [hlt]

/-- `sub_v(a, b) = mk(n, (x - y) mod 2^n)`, with `n = max(N1, N2)` (44_add_sub.md R194). -/
theorem subVec_eq : subVec c (mkVec c n1 x) (mkVec c n2 y) =
    mkVec c (max n1 n2) ((2 ^ max n1 n2 + x - y) % 2 ^ max n1 n2) := by
  have hm : max n1 n2 ≤ c.nmax := max_le h1 h2
  obtain ⟨la, ba, va⟩ := firstBlocks_spec (le_max_left n1 n2) hm hx
  obtain ⟨lb, bb, vb⟩ := firstBlocks_spec (le_max_right n1 n2) hm hy
  have e := subChain_exact (la.trans lb.symm) ba bb false
  have hl := length_subChain (W := c.W) (la.trans lb.symm) false
  have hb := bounded_subChain c.W (firstBlocks (blockCount c (max n1 n2)) (mkVec c n1 x))
    (firstBlocks (blockCount c (max n1 n2)) (mkVec c n2 y)) false
  rw [la] at e hl
  rw [va, vb] at e
  simp only [Bool.toNat_false, Nat.add_zero] at e
  simp only [subVec, show promotedWidth (mkVec c n1 x) (mkVec c n2 y) = max n1 n2 from rfl]
  generalize subChain c.W (firstBlocks (blockCount c (max n1 n2)) (mkVec c n1 x))
    (firstBlocks (blockCount c (max n1 n2)) (mkVec c n2 y)) false = r at *
  have hcap : r.1.length ≤ c.cap := by rw [hl]; exact blockCount_le_cap hm
  rw [ofUsed_eq hcap hb]
  congr 1
  have hy' := lt_of_width (le_max_right n1 n2) hy
  obtain ⟨d, hd⟩ := Nat.pow_dvd_pow 2 (le_blockCount c (max n1 n2))
  rcases hc : r.2 with _ | _
  · simp only [hc, Bool.toNat_false, Nat.mul_zero, Nat.add_zero] at e
    rw [show 2 ^ max n1 n2 + x - y = valueOf c.W r.1 + 2 ^ max n1 n2 by omega, Nat.add_mod_right]
  · simp only [hc, Bool.toNat_true, Nat.mul_one] at e
    have hd0 : 1 ≤ d := by
      rcases d with _ | d
      · have := Nat.two_pow_pos (c.W * blockCount c (max n1 n2)); omega
      · omega
    obtain ⟨k, rfl⟩ := Nat.exists_eq_add_of_le hd0
    rw [hd, Nat.mul_add, Nat.mul_one] at e
    rw [show valueOf c.W r.1 = 2 ^ max n1 n2 + x - y + 2 ^ max n1 n2 * k by omega, Nat.add_mul_mod_self_left]

end

/-! Bitwise logic. -/

/-- Bitwise AND of two arrays is bitwise AND of the values. -/
theorem valueOf_and {W : Nat} {A B : List Nat} (h : A.length = B.length) (hA : Bounded W A) (hB : Bounded W B) :
    valueOf W (List.zipWith (fun p q => p &&& q) A B) = valueOf W A &&& valueOf W B := by
  induction A generalizing B with
  | nil => simp
  | cons a A ih =>
    cases B with
    | nil => simp at h
    | cons b B =>
      have ha := hA a (by simp)
      have hb := hB b (by simp)
      rw [List.zipWith_cons_cons, valueOf_cons, ih (by simpa using h) hA.tail hB.tail, valueOf_cons, valueOf_cons]
      apply Nat.eq_of_testBit_eq
      intro j
      rw [Nat.add_comm, Nat.add_comm a, Nat.add_comm b, Nat.testBit_and,
        Nat.testBit_two_pow_mul_add _ (lt_of_le_of_lt Nat.and_le_left ha), Nat.testBit_two_pow_mul_add _ ha,
        Nat.testBit_two_pow_mul_add _ hb]
      split <;> simp

/-- Bitwise OR of two arrays is bitwise OR of the values. -/
theorem valueOf_or {W : Nat} {A B : List Nat} (h : A.length = B.length) (hA : Bounded W A) (hB : Bounded W B) :
    valueOf W (List.zipWith (fun p q => p ||| q) A B) = valueOf W A ||| valueOf W B := by
  induction A generalizing B with
  | nil => cases B <;> simp_all
  | cons a A ih =>
    cases B with
    | nil => simp at h
    | cons b B =>
      have ha := hA a (by simp)
      have hb := hB b (by simp)
      rw [List.zipWith_cons_cons, valueOf_cons, ih (by simpa using h) hA.tail hB.tail, valueOf_cons, valueOf_cons]
      apply Nat.eq_of_testBit_eq
      intro j
      rw [Nat.add_comm, Nat.add_comm a, Nat.add_comm b, Nat.testBit_or,
        Nat.testBit_two_pow_mul_add _ (Nat.or_lt_two_pow ha hb), Nat.testBit_two_pow_mul_add _ ha,
        Nat.testBit_two_pow_mul_add _ hb]
      split <;> simp

theorem bounded_zipWith {W : Nat} {f : Nat → Nat → Nat} (hf : ∀ p q, p < 2 ^ W → q < 2 ^ W → f p q < 2 ^ W)
    {A B : List Nat} (hA : Bounded W A) (hB : Bounded W B) : Bounded W (List.zipWith f A B) := by
  induction A generalizing B with
  | nil => intro b hb; simp at hb
  | cons a A ih =>
    cases B with
    | nil => intro b hb; simp at hb
    | cons b B =>
      intro y hy
      rw [List.zipWith_cons_cons, List.mem_cons] at hy
      rcases hy with rfl | hy
      · exact hf _ _ (hA a (by simp)) (hB b (by simp))
      · exact ih hA.tail hB.tail y hy

section

variable {c : Config} {n1 n2 x y : Nat} (h1 : n1 ≤ c.nmax) (h2 : n2 ≤ c.nmax) (hx : x < 2 ^ n1) (hy : y < 2 ^ n2)

include h1 h2 hx hy

/-- AND on values (47_logic_compare.md R240). -/
theorem andVec_eq : andVec c (mkVec c n1 x) (mkVec c n2 y) = mkVec c (max n1 n2) (x &&& y) := by
  have hm : max n1 n2 ≤ c.nmax := max_le h1 h2
  obtain ⟨la, ba, va⟩ := firstBlocks_spec (le_max_left n1 n2) hm hx
  obtain ⟨lb, bb, vb⟩ := firstBlocks_spec (le_max_right n1 n2) hm hy
  simp only [andVec, blockwise, show promotedWidth (mkVec c n1 x) (mkVec c n2 y) = max n1 n2 from rfl]
  rw [padded_eq (by simp [la, lb, blockCount_le_cap hm])
    (bounded_zipWith (fun p q hp _ => lt_of_le_of_lt Nat.and_le_left hp) ba bb),
    valueOf_and (la.trans lb.symm) ba bb, va, vb]

/-- OR on values (47_logic_compare.md R241). -/
theorem orVec_eq : orVec c (mkVec c n1 x) (mkVec c n2 y) = mkVec c (max n1 n2) (x ||| y) := by
  have hm : max n1 n2 ≤ c.nmax := max_le h1 h2
  obtain ⟨la, ba, va⟩ := firstBlocks_spec (le_max_left n1 n2) hm hx
  obtain ⟨lb, bb, vb⟩ := firstBlocks_spec (le_max_right n1 n2) hm hy
  simp only [orVec, blockwise, show promotedWidth (mkVec c n1 x) (mkVec c n2 y) = max n1 n2 from rfl]
  rw [padded_eq (by simp [la, lb, blockCount_le_cap hm])
    (bounded_zipWith (fun p q hp hq => Nat.or_lt_two_pow hp hq) ba bb),
    valueOf_or (la.trans lb.symm) ba bb, va, vb]

end

theorem valueOf_complement {W : Nat} {l : List Nat} (h : Bounded W l) :
    valueOf W (l.map fun b => 2 ^ W - 1 - b) + valueOf W l + 1 = 2 ^ (W * l.length) := by
  induction l with
  | nil => simp
  | cons a l ih =>
    have ha := h a (by simp)
    have e := ih h.tail
    simp only [List.map_cons, valueOf_cons, List.length_cons, Nat.mul_add, Nat.mul_one, Nat.pow_add]
    have e3 : 2 ^ (W * l.length) * 2 ^ W = 2 ^ W * valueOf W (l.map fun b => 2 ^ W - 1 - b)
        + 2 ^ W * valueOf W l + 2 ^ W := by rw [← e]; ring
    omega

/-- NOT on values: `2^n - 1 - x` (47_logic_compare.md R242). -/
theorem notVec_eq {c : Config} {n x : Nat} (hn : n ≤ c.nmax) (hx : x < 2 ^ n) :
    notVec c (mkVec c n x) = mkVec c n (2 ^ n - 1 - x) := by
  have hb := bounded_used c n x
  have e := valueOf_complement hb
  rw [valueOf_used hn hx, length_used hn] at e
  have hbm : Bounded c.W (((mkVec c n x).used c).map fun b => 2 ^ c.W - 1 - b) := by
    intro b hb
    obtain ⟨a, -, rfl⟩ := List.mem_map.mp hb
    have := Nat.two_pow_pos c.W; omega
  unfold notVec
  rw [mkVec_n, ofUsed_eq (by simp [length_used hn, blockCount_le_cap hn]) hbm]
  congr 1
  obtain ⟨d, hd⟩ := Nat.pow_dvd_pow 2 (le_blockCount c n)
  rcases d with _ | k
  · have := Nat.two_pow_pos (c.W * blockCount c n); omega
  · rw [hd, Nat.mul_add, Nat.mul_one] at e
    rw [show valueOf c.W (((mkVec c n x).used c).map fun b => 2 ^ c.W - 1 - b)
      = 2 ^ n - 1 - x + 2 ^ n * k by omega, Nat.add_mul_mod_self_left, Nat.mod_eq_of_lt (by omega)]

/-- Two's complement on values: `2^n - x`, and `Overflow` for the zero vector (44_add_sub.md R192). -/
theorem twosComplement_eq {c : Config} {n x : Nat} (h1 : 1 ≤ n) (hn : n ≤ c.nmax) (hx : x < 2 ^ n) :
    twosComplement c (mkVec c n x) = if x ≠ 0 then .ok (mkVec c n (2 ^ n - x)) else .error .overflow := by
  have hone : 1 < 2 ^ n := Nat.one_lt_two_pow (by omega)
  unfold twosComplement
  rw [notVec_eq hn hx, mkVec_n, addVec_eq hn hn (by omega) hone, max_self]
  by_cases h0 : x = 0
  · subst h0
    rw [if_neg (by omega), if_neg (by simp)]
  · rw [if_pos (by omega), if_pos h0]
    congr 2; omega

end Sys2Proof.Machine
end

