-- ==== Sys2Proof/Laws/Decode.lean ====
section
/-! SUPPORT. The fields of a command word: what the field functions read from a word built of fields, and back
(30_encoding.md R71). -/

namespace Sys2Proof

theorem regOfBits_bitsOfReg (r : Reg) : regOfBits (bitsOfReg r) = r := by
  apply Fin.ext
  simp only [regOfBits, bitsOfReg, BitVec.toNat_ofNat]
  exact Nat.mod_eq_of_lt r.isLt

theorem bitsOfReg_regOfBits (b : BitVec 4) : bitsOfReg (regOfBits b) = b := by
  simp [regOfBits, bitsOfReg]

@[simp] theorem bitsOfReg_zero : bitsOfReg 0 = 0 := rfl

/-- Bit `i` of a command word, field by field (30_encoding.md R71). -/
theorem getLsbD_commandWord (op : BitVec 6) (rd rs1 rs2 : Reg) (imm : Imm) (i : Nat) :
    (commandWord op rd rs1 rs2 imm).getLsbD i =
      if i < 14 then imm.getLsbD i
      else if i < 18 then (bitsOfReg rs2).getLsbD (i - 14)
      else if i < 22 then (bitsOfReg rs1).getLsbD (i - 18)
      else if i < 26 then (bitsOfReg rd).getLsbD (i - 22)
      else op.getLsbD (i - 26) := by
  have e1 := BitVec.getLsbD_append (x := op ++ bitsOfReg rd ++ bitsOfReg rs1 ++ bitsOfReg rs2) (y := imm) (i := i)
  have e2 := BitVec.getLsbD_append (x := op ++ bitsOfReg rd ++ bitsOfReg rs1) (y := bitsOfReg rs2) (i := i - 14)
  have e3 := BitVec.getLsbD_append (x := op ++ bitsOfReg rd) (y := bitsOfReg rs1) (i := i - 14 - 4)
  have e4 := BitVec.getLsbD_append (x := op) (y := bitsOfReg rd) (i := i - 14 - 4 - 4)
  refine e1.trans ?_
  by_cases h1 : i < 14
  · simp [h1]
  rw [e2, if_neg h1, if_neg h1]
  by_cases h2 : i < 18
  · rw [if_pos (show i - 14 < 4 by omega), if_pos h2]
  rw [e3, if_neg h2, if_neg (show ¬ i - 14 < 4 by omega)]
  by_cases h3 : i < 22
  · rw [if_pos (show i - 14 - 4 < 4 by omega), if_pos h3, show i - 14 - 4 = i - 18 by omega]
  rw [e4, if_neg h3, if_neg (show ¬ i - 14 - 4 < 4 by omega)]
  by_cases h4 : i < 26
  · rw [if_pos (show i - 14 - 4 - 4 < 4 by omega), if_pos h4, show i - 14 - 4 - 4 = i - 22 by omega]
  · rw [if_neg (show ¬ i - 14 - 4 - 4 < 4 by omega), if_neg h4, show i - 14 - 4 - 4 - 4 = i - 26 by omega]

section

variable (op : BitVec 6) (rd rs1 rs2 : Reg) (imm : Imm)

@[simp] theorem opcodeField_commandWord : opcodeField (commandWord op rd rs1 rs2 imm) = op := by
  apply BitVec.eq_of_getLsbD_eq; intro i hi
  rw [opcodeField, BitVec.getLsbD_extractLsb', getLsbD_commandWord, if_neg (show ¬ 26 + i < 14 by omega), if_neg (show ¬ 26 + i < 18 by omega), if_neg (show ¬ 26 + i < 22 by omega), if_neg (show ¬ 26 + i < 26 by omega)]
  simp [hi]

@[simp] theorem rdBits_commandWord : rdBits (commandWord op rd rs1 rs2 imm) = bitsOfReg rd := by
  apply BitVec.eq_of_getLsbD_eq; intro i hi
  rw [rdBits, BitVec.getLsbD_extractLsb', getLsbD_commandWord, if_neg (show ¬ 22 + i < 14 by omega), if_neg (show ¬ 22 + i < 18 by omega), if_neg (show ¬ 22 + i < 22 by omega), if_pos (show 22 + i < 26 by omega)]
  simp [hi]

@[simp] theorem rs1Bits_commandWord : rs1Bits (commandWord op rd rs1 rs2 imm) = bitsOfReg rs1 := by
  apply BitVec.eq_of_getLsbD_eq; intro i hi
  rw [rs1Bits, BitVec.getLsbD_extractLsb', getLsbD_commandWord, if_neg (show ¬ 18 + i < 14 by omega), if_neg (show ¬ 18 + i < 18 by omega), if_pos (show 18 + i < 22 by omega)]
  simp [hi]

@[simp] theorem rs2Bits_commandWord : rs2Bits (commandWord op rd rs1 rs2 imm) = bitsOfReg rs2 := by
  apply BitVec.eq_of_getLsbD_eq; intro i hi
  rw [rs2Bits, BitVec.getLsbD_extractLsb', getLsbD_commandWord, if_neg (show ¬ 14 + i < 14 by omega), if_pos (show 14 + i < 18 by omega)]
  simp [hi]

@[simp] theorem immField_commandWord : immField (commandWord op rd rs1 rs2 imm) = imm := by
  apply BitVec.eq_of_getLsbD_eq; intro i hi
  rw [immField, BitVec.getLsbD_extractLsb', getLsbD_commandWord, if_pos (show 0 + i < 14 by omega)]
  simp [hi]

@[simp] theorem rdField_commandWord : rdField (commandWord op rd rs1 rs2 imm) = rd := by
  simp [rdField, regOfBits_bitsOfReg]

@[simp] theorem rs1Field_commandWord : rs1Field (commandWord op rd rs1 rs2 imm) = rs1 := by
  simp [rs1Field, regOfBits_bitsOfReg]

@[simp] theorem rs2Field_commandWord : rs2Field (commandWord op rd rs1 rs2 imm) = rs2 := by
  simp [rs2Field, regOfBits_bitsOfReg]

end

/-- A command word is made of its five fields. -/
theorem eq_commandWord (w : CmdWord) :
    w = commandWord (opcodeField w) (rdField w) (rs1Field w) (rs2Field w) (immField w) := by
  apply BitVec.eq_of_getLsbD_eq; intro i hi
  simp only [getLsbD_commandWord, rdField, rs1Field, rs2Field, bitsOfReg_regOfBits, opcodeField, rdBits, rs1Bits, rs2Bits,
    immField, BitVec.getLsbD_extractLsb']
  by_cases h1 : i < 14
  · simp [h1]
  by_cases h2 : i < 18
  · simp [h1, h2, show i - 14 < 4 by omega, show 14 + (i - 14) = i by omega]
  by_cases h3 : i < 22
  · simp [h1, h2, h3, show i - 18 < 4 by omega, show 18 + (i - 18) = i by omega]
  by_cases h4 : i < 26
  · simp [h1, h2, h3, h4, show i - 22 < 4 by omega, show 22 + (i - 22) = i by omega]
  · simp [h1, h2, h3, h4, show i - 26 < 6 by omega, show 26 + (i - 26) = i by omega]

/-- `imm[3:0]` of DIVR's immediate is the register it was built of. -/
@[simp] theorem rd2Field_commandWord (op : BitVec 6) (rd rs1 rs2 rd2 : Reg) :
    rd2Field (commandWord op rd rs1 rs2 (rd2Imm rd2)) = rd2 := by
  have : (commandWord op rd rs1 rs2 (rd2Imm rd2)).extractLsb' 0 4 = bitsOfReg rd2 := by
    apply BitVec.eq_of_getLsbD_eq; intro i hi
    rw [BitVec.getLsbD_extractLsb', getLsbD_commandWord, if_pos (show 0 + i < 14 by omega), rd2Imm, bitsOfReg,
      BitVec.getLsbD_ofNat, BitVec.getLsbD_ofNat]
    simp [hi, show i < 14 by omega]
  simp [rd2Field, this, regOfBits_bitsOfReg]

/-- `imm[0]` of ADDB's and SUBB's immediate is the carry it was built of. -/
@[simp] theorem cinField_commandWord (op : BitVec 6) (rd rs1 rs2 : Reg) (cin : Bool) :
    cinField (commandWord op rd rs1 rs2 (cinImm cin)) = cin := by
  have : (commandWord op rd rs1 rs2 (cinImm cin)).extractLsb' 0 1 = BitVec.ofBool cin := by
    apply BitVec.eq_of_getLsbD_eq; intro i hi
    obtain rfl : i = 0 := by omega
    rw [BitVec.getLsbD_extractLsb', getLsbD_commandWord, if_pos (show 0 + 0 < 14 by omega)]
    cases cin <;> rfl
  cases cin <;> simp [cinField, this]

theorem rd2Imm_high (rd2 : Reg) : (rd2Imm rd2).extractLsb' 4 10 = 0 := by
  revert rd2; decide

theorem cinImm_high (cin : Bool) : (cinImm cin).extractLsb' 1 13 = 0 := by
  revert cin; decide

/-! A word under the mask of a format (30_encoding.md R72, R74). -/

/-- Two command words are equal exactly when their five fields are. -/
theorem word_eq_iff (a b : CmdWord) :
    a = b ↔ opcodeField a = opcodeField b ∧ rdBits a = rdBits b ∧ rs1Bits a = rs1Bits b ∧ rs2Bits a = rs2Bits b ∧
      immField a = immField b := by
  refine ⟨fun h => by subst h; simp, fun ⟨h1, h2, h3, h4, h5⟩ => ?_⟩
  rw [eq_commandWord a, eq_commandWord b]
  simp [rdField, rs1Field, rs2Field, h1, h2, h3, h4, h5]

theorem matchWord_eq (op : BitVec 6) : matchWord op = commandWord op 0 0 0 0 := by
  revert op; decide

/-- The bits of an immediate from bit `k` up are zero exactly when the immediate under a mask of those bits is. -/
theorem and_highMask_eq_zero {m mask : Imm} {k l : Nat} (hl : k + l = 14)
    (h1 : mask.extractLsb' k l = BitVec.allOnes l) (h0 : ∀ i, i < k → mask.getLsbD i = false) :
    m &&& mask = 0#14 ↔ m.extractLsb' k l = 0#l := by
  constructor
  · intro h
    have e : (m &&& mask).extractLsb' k l = 0#l := by rw [h]; simp
    rwa [BitVec.extractLsb'_and, h1, BitVec.and_allOnes] at e
  · intro h
    apply BitVec.eq_of_getLsbD_eq; intro i hi
    rw [BitVec.getLsbD_and]
    by_cases hk : i < k
    · simp [h0 i hk]
    · have e := congrArg (fun v => v.getLsbD (i - k)) h
      simp only [BitVec.getLsbD_extractLsb', show i - k < l by omega, show k + (i - k) = i by omega] at e
      simp at e
      simp [e]

/-- A word matches an opcode under the mask of a format exactly when it has the opcode and the format's must-be-zero
fields are zero. -/
theorem masked_iff (f : Format) (w : CmdWord) (op : BitVec 6) :
    w &&& f.mask = matchWord op ↔ opcodeField w = op ∧ f.reservedZero w = true := by
  have k6 : ∀ v : BitVec 6, v &&& 63#6 = v := fun v => BitVec.and_allOnes
  have k4 : ∀ v : BitVec 4, v &&& 15#4 = v := fun v => BitVec.and_allOnes
  have k14 : ∀ v : BitVec 14, v &&& 16383#14 = v := fun v => BitVec.and_allOnes
  have kq : ∀ m : Imm, m &&& 0x3FF0#14 = 0#14 ↔ m.extractLsb' 4 10 = 0#10 := fun m =>
    and_highMask_eq_zero rfl (by decide) (by decide)
  have kp : ∀ m : Imm, m &&& 0x3FFE#14 = 0#14 ↔ m.extractLsb' 1 13 = 0#13 := fun m =>
    and_highMask_eq_zero rfl (by decide) (by decide)
  have fields : ∀ f : Format, (opcodeField f.mask, rdBits f.mask, rs1Bits f.mask, rs2Bits f.mask, immField f.mask) =
      match f with
      | .n => (63#6, 15#4, 15#4, 15#4, 16383#14)
      | .y => (63#6, 15#4, 15#4, 15#4, 0#14)
      | .d => (63#6, 0#4, 15#4, 15#4, 0#14)
      | .m => (63#6, 0#4, 0#4, 15#4, 16383#14)
      | .i => (63#6, 0#4, 0#4, 15#4, 0#14)
      | .r => (63#6, 0#4, 0#4, 0#4, 16383#14)
      | .q => (63#6, 0#4, 0#4, 0#4, 0x3FF0#14)
      | .s => (63#6, 15#4, 0#4, 15#4, 16383#14)
      | .j => (63#6, 15#4, 0#4, 15#4, 0#14)
      | .c => (63#6, 15#4, 0#4, 0#4, 16383#14)
      | .p => (63#6, 15#4, 15#4, 15#4, 0x3FFE#14) := by intro f; cases f <;> decide
  have e1 : opcodeField (w &&& f.mask) = opcodeField w &&& opcodeField f.mask := BitVec.extractLsb'_and
  have e2 : rdBits (w &&& f.mask) = rdBits w &&& rdBits f.mask := BitVec.extractLsb'_and
  have e3 : rs1Bits (w &&& f.mask) = rs1Bits w &&& rs1Bits f.mask := BitVec.extractLsb'_and
  have e4 : rs2Bits (w &&& f.mask) = rs2Bits w &&& rs2Bits f.mask := BitVec.extractLsb'_and
  have e5 : immField (w &&& f.mask) = immField w &&& immField f.mask := BitVec.extractLsb'_and
  rw [word_eq_iff, e1, e2, e3, e4, e5, matchWord_eq]
  have hf := fields f
  simp only [opcodeField_commandWord, rdBits_commandWord, rs1Bits_commandWord, rs2Bits_commandWord,
    immField_commandWord, bitsOfReg_zero]
  cases f <;> simp only [Prod.mk.injEq] at hf <;> obtain ⟨b1, b2, b3, b4, b5⟩ := hf <;>
    simp only [b1, b2, b3, b4, b5, k6, k4, k14, Format.reservedZero, Bool.and_eq_true, beq_iff_eq, kq, kp, BitVec.and_zero,
      true_and, and_true, and_assoc, BitVec.ofNat_eq_ofNat]

end Sys2Proof
end

