-- ==== Sys2Proof/Laws/MulDiv.lean ====
section
/-! SUPPORT. The multiplier, the divider and LDI's decomposition on integers (45_multiply.md R211, 46_divide.md R220,
40_construct_convert.md R102). -/

namespace Sys2Proof.Machine

/-! Bits and sums of bits. -/

/-- The decomposition of LDI keeps the low `n` bits (40_construct_convert.md R102). -/
theorem decompose_eq (n v : Nat) : decompose n v = v % 2 ^ n := by
  induction n generalizing v with
  | zero => simp [decompose, Nat.mod_one]
  | succ n ih => rw [decompose, ih, Nat.pow_succ, Nat.mul_comm (2 ^ n), Nat.mod_mul]

theorem bitOf_mkVec {c : Config} {n x i : Nat} (hn : n ≤ c.nmax) (hx : x < 2 ^ n) :
    getBitOf c (mkVec c n x).blk i = bitOf x i := by
  rw [mkVec_blk, getBitOf_eq (bounded_blocksOf c x), valueOf_blocksOf, Nat.mod_eq_of_lt (lt_of_width hn hx)]

/-- The set bits of `x` below position `n`, weighted, sum to `x mod 2^n` (10_state.md R24: bit `p` weighs `2^p`). -/
theorem sum_bits (x n : Nat) : ((List.range n).map fun i => bitOf x i * 2 ^ i).sum = x % 2 ^ n := by
  induction n with
  | zero => simp [Nat.mod_one]
  | succ n ih =>
    rw [List.range_succ, List.map_append, List.sum_append, ih, Nat.pow_succ, Nat.mod_mul]
    simp [bitOf, Nat.mul_comm]

/-! The multiplier. -/

/-- The multiplier's loop adds the shifted terms of the set bits, and never overflows when their total fits. -/
theorem mulLoop_eq {c : Config} {k n x y : Nat} (hk : k ≤ c.nmax) (hn : n ≤ c.nmax) (hx : x < 2 ^ k) (hy : y < 2 ^ n)
    (is : List Nat) (acc : Nat) (h : acc + y * (is.map fun i => bitOf x i * 2 ^ i).sum < 2 ^ n) :
    mulLoop c (mkVec c k x) (mkVec c n y) is (mkVec c n acc)
      = .ok (mkVec c n (acc + y * (is.map fun i => bitOf x i * 2 ^ i).sum)) := by
  induction is generalizing acc with
  | nil => simp [mulLoop]
  | cons i is ih =>
    simp only [List.map_cons, List.sum_cons, Nat.mul_add] at h
    rw [mulLoop, bitOf_mkVec hk hx]
    by_cases hb : bitOf x i = 1
    · simp only [hb, Nat.one_mul] at h
      rw [if_pos hb, shlVec_eq hn hy, Nat.mod_eq_of_lt (by omega), addVec_eq hn hn (by omega) (by omega), max_self,
        if_pos (by omega)]
      simp only []
      rw [ih (acc + y * 2 ^ i) (by omega)]
      simp [hb, Nat.mul_add, Nat.add_assoc]
    · have h0 : bitOf x i = 0 := by have := bitOf_lt_two x i; omega
      simp only [h0, Nat.zero_mul, Nat.mul_zero, Nat.zero_add] at h
      rw [if_neg hb, ih acc h]
      simp [h0]

/-- `mul_v(a, b) = mk(N1 + N2, x * y)`, whichever operand drives (45_multiply.md R211). -/
theorem mulVec_eq {c : Config} {n1 n2 x y : Nat} (hn : n1 + n2 ≤ c.nmax) (hx : x < 2 ^ n1) (hy : y < 2 ^ n2) :
    mulVec c (mkVec c n1 x) (mkVec c n2 y) = .ok (mkVec c (n1 + n2) (x * y)) := by
  have hxy : x * y < 2 ^ (n1 + n2) := by
    rw [Nat.pow_add]
    exact Nat.mul_lt_mul'' hx hy
  have hx' : x < 2 ^ (n1 + n2) := lt_of_width (by omega) hx
  have hy' : y < 2 ^ (n1 + n2) := lt_of_width (by omega) hy
  unfold mulVec
  dsimp only
  split
  · simp only [mkVec_n]
    rw [convert_eq (by omega) hx, Nat.mod_eq_of_lt hx', mulLoop_eq (by omega) hn hy hx', sum_bits,
      Nat.mod_eq_of_lt hy, Nat.zero_add]
    rw [sum_bits, Nat.mod_eq_of_lt hy]; omega
  · simp only [mkVec_n]
    rw [convert_eq (by omega) hy, Nat.mod_eq_of_lt hy', mulLoop_eq (by omega) hn hx hy', sum_bits,
      Nat.mod_eq_of_lt hx, Nat.zero_add, Nat.mul_comm]
    rw [sum_bits, Nat.mod_eq_of_lt hx, Nat.mul_comm y]; omega

/-! Comparison of values. -/

section

variable {c : Config} {n1 n2 x y : Nat} (h1 : n1 ≤ c.nmax) (h2 : n2 ≤ c.nmax) (hx : x < 2 ^ n1) (hy : y < 2 ^ n2)

include h1 h2 hx hy

theorem ucmp_eq : ucmp c (mkVec c n1 x) (mkVec c n2 y) = compare x y := by
  rw [ucmp, mkVec_val h1 hx, mkVec_val h2 hy]

end

/-! The divider. -/

/-- A quotient with bit `k` clear, with that bit set. -/
theorem setBit_mkVec {c : Config} {n q k : Nat} (hn : n ≤ c.nmax) (hq : q + 2 ^ k < 2 ^ n) (hb : bitOf q k = 0) :
    ({ n := n, blk := setBitOf c (mkVec c n q).blk k 1 } : Vec) = mkVec c n (q + 2 ^ k) := by
  have hpos := Nat.two_pow_pos k
  have hk : k < n := by
    by_contra hge
    have := Nat.pow_le_pow_right (n := 2) (by omega) (Nat.le_of_not_lt hge); omega
  apply eq_mkVec
  · simp
  · exact bounded_setBitOf (bounded_blocksOf c q) k (by omega)
  · rw [mkVec_blk, valueOf_setBitOf (p := k) (d := 1) (bounded_blocksOf c q) (by rw [length_blocksOf, ← Config.nmax_eq]; omega),
      valueOf_blocksOf, Nat.mod_eq_of_lt (lt_of_width hn (show q < 2 ^ n by omega)), hb]
    omega

/-- The divider's loop invariant: with `k` iterations left the divisor stands at `y * 2^k div 2`, the running remainder is
below `y * 2^k`, and the low `k` bits of the quotient are clear; the loop ends with the quotient and remainder of the
running remainder by `y` (46_divide.md R220). -/
theorem divLoop_eq {c : Config} {n y : Nat} (hn : n ≤ c.nmax) (hy0 : 0 < y) (hy : y < 2 ^ n) (k : Nat) :
    ∀ {q r : Nat}, r < y * 2 ^ k → y * 2 ^ k / 2 < 2 ^ n → r < 2 ^ n → 2 ^ k ∣ q → q + r / y < 2 ^ n →
      divLoop c k (mkVec c n (y * 2 ^ k / 2)) (mkVec c n q) (mkVec c n r)
        = (mkVec c n (q + r / y), mkVec c n (r % y)) := by
  induction k with
  | zero =>
    intro q r hr _ _ _ _
    have hr' : r < y := by simpa using hr
    simp [divLoop, Nat.div_eq_of_lt hr', Nat.mod_eq_of_lt hr']
  | succ k ih =>
    intro q r hr hd hrn hq hqr
    have e : y * 2 ^ (k + 1) / 2 = y * 2 ^ k := by
      rw [Nat.pow_succ, ← Nat.mul_assoc, Nat.mul_div_cancel _ (by omega)]
    have e2 : y * 2 ^ (k + 1) = y * 2 ^ k + y * 2 ^ k := by rw [Nat.pow_succ]; ring
    rw [e] at hd ⊢
    have hshr : shrVec c (mkVec c n (y * 2 ^ k)) 1 = mkVec c n (y * 2 ^ k / 2) := by
      rw [shrVec_eq hn hd]; simp
    have hhalf : y * 2 ^ k / 2 < 2 ^ n := lt_of_le_of_lt (Nat.div_le_self _ _) hd
    have hqk : 2 ^ k ∣ q := Nat.dvd_trans (Nat.pow_dvd_pow 2 (by omega)) hq
    rw [divLoop, ucmp_eq hn hn hd hrn, hshr]
    by_cases hle : y * 2 ^ k ≤ r
    · have hcmp : compare (y * 2 ^ k) r = .lt ∨ compare (y * 2 ^ k) r = .eq := by
        rcases Nat.lt_or_eq_of_le hle with h | h
        · exact .inl (Nat.compare_eq_lt.mpr h)
        · exact .inr (Nat.compare_eq_eq.mpr h)
      have hdiv : r / y = 2 ^ k + (r - y * 2 ^ k) / y := by
        conv_lhs => rw [← Nat.sub_add_cancel hle, Nat.add_mul_div_left _ _ hy0]
        omega
      have hmod : r % y = (r - y * 2 ^ k) % y := by
        conv_lhs => rw [← Nat.sub_add_cancel hle, Nat.add_mul_mod_self_left]
      have hbit : bitOf q k = 0 := by
        obtain ⟨m, rfl⟩ := hq
        unfold bitOf
        rw [Nat.pow_succ, Nat.mul_assoc, Nat.mul_div_cancel_left _ (Nat.two_pow_pos k), Nat.mul_mod_right]
      have hsub : subVec c (mkVec c n r) (mkVec c n (y * 2 ^ k)) = mkVec c n (r - y * 2 ^ k) := by
        rw [subVec_eq hn hn hrn hd, max_self, show 2 ^ n + r - y * 2 ^ k = r - y * 2 ^ k + 2 ^ n by omega,
          Nat.add_mod_right, Nat.mod_eq_of_lt (by omega)]
      have hpos := Nat.two_pow_pos k
      have hq2 : q + 2 ^ k < 2 ^ n ∧ q + 2 ^ k + (r - y * 2 ^ k) / y < 2 ^ n := by
        generalize (r - y * 2 ^ k) / y = z at *
        omega
      have hset := setBit_mkVec (q := q) (k := k) hn hq2.1 hbit
      have hrec := ih (q := q + 2 ^ k) (r := r - y * 2 ^ k) (by omega) hhalf (by omega)
        (Nat.dvd_add hqk (Nat.dvd_refl _)) hq2.2
      rw [if_pos hcmp, hsub, mkVec_n, hset, hrec, ← hmod, hdiv, Nat.add_assoc]
    · have hcmp : ¬ (compare (y * 2 ^ k) r = .lt ∨ compare (y * 2 ^ k) r = .eq) := by
        rw [Nat.compare_eq_lt, Nat.compare_eq_eq]; omega
      rw [if_neg hcmp, ih (by omega) hhalf hrn hqk hqr]

/-- `divrem_v(a, b) = (mk(N1, x div y), mk(N1, x mod y))` for `y ≠ 0`, in all four branches, and `DivisionByZero` for
`y = 0` (46_divide.md R220). -/
theorem divRemVec_eq {c : Config} {n1 n2 x y : Nat} (h1 : n1 ≤ c.nmax) (h2 : n2 ≤ c.nmax)
    (hx : x < 2 ^ n1) (hy : y < 2 ^ n2) :
    divRemVec c (mkVec c n1 x) (mkVec c n2 y) =
      if y = 0 then .error .divisionByZero else .ok (mkVec c n1 (x / y), mkVec c n1 (x % y)) := by
  unfold divRemVec
  rw [ucmp_eq h1 h2 hx hy, mkVec_val h1 hx, mkVec_val h2 hy, mkVec_n]
  by_cases hy0 : y = 0
  · simp [hy0]
  rw [if_neg hy0, if_neg hy0]
  by_cases hx0 : x = 0
  · simp [hx0]
  rw [if_neg hx0]
  by_cases heq : x = y
  · subst heq
    simp [Nat.div_self (Nat.pos_of_ne_zero hx0)]
  rw [if_neg (fun h => heq (Nat.compare_eq_eq.mp h))]
  by_cases hlt : x < y
  · rw [if_pos (Nat.compare_eq_lt.mpr hlt), Nat.div_eq_of_lt hlt, Nat.mod_eq_of_lt hlt]
  rw [if_neg (fun h => hlt (Nat.compare_eq_lt.mp h))]
  have hyx : y < x := by omega
  have hyn : y < 2 ^ n1 := by omega
  have hlog : Nat.log2 y ≤ Nat.log2 x := by
    rw [Nat.le_log2 hx0]
    exact le_trans (Nat.log2_self_le hy0) (by omega)
  have hsh : Nat.log2 y + (msb x - msb y) = Nat.log2 x := by unfold msb; omega
  have hyl : y < 2 ^ (Nat.log2 y + 1) := Nat.lt_log2_self
  have hxl : x < 2 ^ (Nat.log2 x + 1) := Nat.lt_log2_self
  have hxn : Nat.log2 x + 1 ≤ n1 := by
    have := Nat.log2_self_le hx0
    by_contra hge
    have h3 := Nat.pow_le_pow_right (n := 2) (by omega) (show n1 ≤ Nat.log2 x by omega)
    omega
  have hal : y * 2 ^ (msb x - msb y) < 2 ^ n1 := by
    calc y * 2 ^ (msb x - msb y) < 2 ^ (Nat.log2 y + 1) * 2 ^ (msb x - msb y) :=
          Nat.mul_lt_mul_of_pos_right hyl (Nat.two_pow_pos _)
      _ = 2 ^ (Nat.log2 x + 1) := by rw [← Nat.pow_add]; congr 1; omega
      _ ≤ 2 ^ n1 := Nat.pow_le_pow_right (by omega) hxn
  have hr : x < y * 2 ^ (msb x - msb y + 1) := by
    calc x < 2 ^ (Nat.log2 x + 1) := hxl
      _ = 2 ^ Nat.log2 y * 2 ^ (msb x - msb y + 1) := by rw [← Nat.pow_add]; congr 1; omega
      _ ≤ y * 2 ^ (msb x - msb y + 1) := Nat.mul_le_mul_right _ (Nat.log2_self_le hy0)
  have e : y * 2 ^ (msb x - msb y + 1) / 2 = y * 2 ^ (msb x - msb y) := by
    rw [Nat.pow_succ, ← Nat.mul_assoc, Nat.mul_div_cancel _ (by omega)]
  have hq : x / y < 2 ^ n1 := lt_of_le_of_lt (Nat.div_le_self _ _) hx
  dsimp only
  rw [convert_eq h2 hy, Nat.mod_eq_of_lt hyn, shlVec_eq h1 hyn, Nat.mod_eq_of_lt hal, ← e,
    divLoop_eq h1 (Nat.pos_of_ne_zero hy0) hyn _ hr (by rw [e]; exact hal) hx ⟨0, by simp⟩ (by omega), Nat.zero_add]

end Sys2Proof.Machine
end

