-- ==== Sys2Proof/Laws/Storage.lean ====
section
/-! SUPPORT. What a block access and a bit access do to the vector a register holds (20_memory.md R52 to R54), and what
the flags are of it. -/

namespace Sys2Proof.Machine

section

variable {s : State} {i : Reg}

theorem memReadBlock_unconstructed (h : (regAt s i).n = 0) (k : Nat) : memReadBlock s i k = .error .unconstructed := by
  rw [memReadBlock, readVec_unconstructed h, except_error_bind]

theorem memWriteBlock_unconstructed (h : (regAt s i).n = 0) (k d : Nat) :
    memWriteBlock s i k d = .error .unconstructed := by
  rw [memWriteBlock, readVec_unconstructed h, except_error_bind]

theorem memReadBit_unconstructed (h : (regAt s i).n = 0) (p : Nat) : memReadBit s i p = .error .unconstructed := by
  rw [memReadBit, readVec_unconstructed h, except_error_bind]

theorem memWriteBit_unconstructed (h : (regAt s i).n = 0) (p d : Nat) :
    memWriteBit s i p d = .error .unconstructed := by
  rw [memWriteBit, readVec_unconstructed h, except_error_bind]

/-- A block read: the fault, or the block (20_memory.md R52). -/
theorem memReadBlock_constructed (h : (regAt s i).n ≠ 0) (k : Nat) :
    memReadBlock s i k =
      if blockCount s.config (regAt s i).n.toNat ≤ k then .error .outOfRange
      else .ok ((regAt s i).toVec.blk.getD k 0) := by
  rw [memReadBlock, readVec_constructed h, except_ok_bind, toVec_n]

/-- A block write: the fault, or the register with the block replaced and trimmed (20_memory.md R53). -/
theorem memWriteBlock_constructed (h : (regAt s i).n ≠ 0) (k d : Nat) :
    memWriteBlock s i k d =
      if blockCount s.config (regAt s i).n.toNat ≤ k then .error .outOfRange
      else .ok (writeVec s i
        ⟨(regAt s i).n.toNat, trimTo s.config (regAt s i).n.toNat ((regAt s i).toVec.blk.set k d)⟩) := by
  rw [memWriteBlock, readVec_constructed h, except_ok_bind, toVec_n]

/-- A bit read: the fault, or the bit (20_memory.md R54). -/
theorem memReadBit_constructed (h : (regAt s i).n ≠ 0) (p : Nat) :
    memReadBit s i p =
      if (regAt s i).n.toNat ≤ p then .error .outOfRange
      else .ok (getBitOf s.config (regAt s i).toVec.blk p) := by
  rw [memReadBit, readVec_constructed h, except_ok_bind, toVec_n]

/-- A bit write: the fault, or the register with the bit replaced (20_memory.md R54). -/
theorem memWriteBit_constructed (h : (regAt s i).n ≠ 0) (p d : Nat) :
    memWriteBit s i p d =
      if (regAt s i).n.toNat ≤ p then .error .outOfRange
      else .ok (writeVec s i { n := (regAt s i).n.toNat, blk := setBitOf s.config (regAt s i).toVec.blk p d }) := by
  rw [memWriteBit, readVec_constructed h, except_ok_bind, toVec_n]

variable {n x : Nat} (hc : s.config.legal = true) (h : Holds s i n x)

include hc h

/-- Block `k` of the vector `mk(n, x)` (00_scope.md R9). -/
theorem Holds.memReadBlock (k : Nat) :
    memReadBlock s i k =
      if blockCount s.config n ≤ k then .error .outOfRange else .ok (x / 2 ^ (s.config.W * k) % 2 ^ s.config.W) := by
  rw [Machine.memReadBlock, h.readVec hc, except_ok_bind, mkVec_n]
  split
  · rfl
  · rw [mkVec_blk, getD_eq_digit (bounded_blocksOf _ _), valueOf_blocksOf, Nat.mod_eq_of_lt (lt_of_width h.2.1 h.2.2.1)]

/-- The value after a block write (41_storage_access.md R120). -/
theorem Holds.memWriteBlock (k : Nat) {d : Nat} (hd : d < 2 ^ s.config.W) :
    memWriteBlock s i k d =
      if blockCount s.config n ≤ k then .error .outOfRange
      else .ok (writeVec s i (mkVec s.config n
        ((x - x / 2 ^ (s.config.W * k) % 2 ^ s.config.W * 2 ^ (s.config.W * k) + d * 2 ^ (s.config.W * k)) % 2 ^ n))) := by
  rw [Machine.memWriteBlock, h.readVec hc, except_ok_bind, mkVec_n]
  split
  · rfl
  · rename_i hk
    have hk' : k < s.config.cap := lt_of_lt_of_le (Nat.lt_of_not_le hk) (blockCount_le_cap h.2.1)
    have hb := bounded_blocksOf s.config x
    have hv : valueOf s.config.W (blocksOf s.config x) = x := by
      rw [valueOf_blocksOf, Nat.mod_eq_of_lt (lt_of_width h.2.1 h.2.2.1)]
    have e := valueOf_set (W := s.config.W) (l := blocksOf s.config x) (by simpa using hk') d
    rw [getD_eq_digit hb, hv, Nat.mul_comm _ d] at e
    rw [Nat.mul_comm (x / 2 ^ (s.config.W * k) % 2 ^ s.config.W)]
    have hle : 2 ^ (s.config.W * k) * (x / 2 ^ (s.config.W * k) % 2 ^ s.config.W) ≤ x :=
      le_trans (Nat.mul_le_mul_left _ (Nat.mod_le _ _)) (Nat.mul_div_le _ _)
    congr 2
    refine eq_mkVec (by simp) (bounded_trimTo (hb.set k hd)) ?_
    rw [mkVec_blk, valueOf_trimTo _ (hb.set k hd)]
    congr 1
    omega

/-- Bit `p` of the vector `mk(n, x)` (00_scope.md R8). -/
theorem Holds.memReadBit (p : Nat) :
    memReadBit s i p = if n ≤ p then .error .outOfRange else .ok (bitOf x p) := by
  rw [Machine.memReadBit, h.readVec hc, except_ok_bind, mkVec_n, bitOf_mkVec h.2.1 h.2.2.1]

/-- The value after a bit write (20_memory.md R54). -/
theorem Holds.memWriteBit (p : Nat) {d : Nat} (hd : d < 2) :
    memWriteBit s i p d =
      if n ≤ p then .error .outOfRange
      else .ok (writeVec s i (mkVec s.config n (x - bitOf x p * 2 ^ p + d * 2 ^ p))) := by
  rw [Machine.memWriteBit, h.readVec hc, except_ok_bind, mkVec_n]
  split
  · rfl
  · rename_i hp
    have hb := bounded_blocksOf s.config x
    have hv : valueOf s.config.W (blocksOf s.config x) = x := by
      rw [valueOf_blocksOf, Nat.mod_eq_of_lt (lt_of_width h.2.1 h.2.2.1)]
    have hlen : p < s.config.W * (blocksOf s.config x).length := by
      rw [length_blocksOf, ← Config.nmax_eq]; have := h.2.1; omega
    congr 2
    refine eq_mkVec (by simp) (bounded_setBitOf hb p hd) ?_
    rw [mkVec_blk, valueOf_setBitOf hb hlen, hv]

end

theorem opaBlock_lt (s : State) : opaBlock s < 2 ^ s.config.W := Nat.mod_lt _ (Nat.two_pow_pos _)

theorem opbBlock_lt (s : State) : opbBlock s < 2 ^ s.config.W := Nat.mod_lt _ (Nat.two_pow_pos _)

theorem opaBit_lt (s : State) : opaBit s < 2 := bitOf_lt_two _ _

/-- A bit replaced below the width keeps the value below `2^n`. -/
theorem replaceBit_lt_width {n x p d : Nat} (hx : x < 2 ^ n) (hp : p < n) (hd : d < 2) :
    x - bitOf x p * 2 ^ p + d * 2 ^ p < 2 ^ n := replaceBit_lt hx hp hd

theorem popcount_mkVec {c : Config} {n x : Nat} (hn : n ≤ c.nmax) (hx : x < 2 ^ n) :
    popcount (mkVec c n x).n ((mkVec c n x).val c) = popcount n x := by rw [mkVec_val hn hx, mkVec_n]

theorem popcount_le (n x : Nat) : popcount n x ≤ n := by
  unfold popcount
  induction n with
  | zero => simp
  | succ n ih =>
    rw [List.range_succ, List.map_append, List.sum_append]
    have := bitOf_lt_two x n
    simp; omega

theorem allFlag_mkVec {c : Config} {n x : Nat} (hn : n ≤ c.nmax) (hx : x < 2 ^ n) :
    allFlag c (mkVec c n x) = (x == 2 ^ n - 1) := by rw [allFlag, mkVec_val hn hx, mkVec_n]

theorem anyFlag_mkVec {c : Config} {n x : Nat} (hn : n ≤ c.nmax) (hx : x < 2 ^ n) :
    anyFlag c (mkVec c n x) = (x != 0) := by rw [anyFlag, mkVec_val hn hx]

theorem noneFlag_mkVec {c : Config} {n x : Nat} (hn : n ≤ c.nmax) (hx : x < 2 ^ n) :
    noneFlag c (mkVec c n x) = (x == 0) := by rw [noneFlag, mkVec_val hn hx]

end Sys2Proof.Machine
end

