-- ==== Sys2Proof/Laws/Outcome.lean ====
section
/-! SUPPORT. For each shared operation, once, when it answers a value and when it raises which fault; a meaning's body is
peeled apart with `bind_eq_ok` and `bind_eq_error` (60_exceptions.md R271). -/

namespace Sys2Proof.Machine

theorem bind_eq_ok {α β : Type} {x : Except Cause α} {f : α → Except Cause β} {b : β} :
    (x >>= f) = .ok b ↔ ∃ a, x = .ok a ∧ f a = .ok b := by
  cases x with
  | ok a => simp
  | error e => simp

theorem bind_eq_error {α β : Type} {x : Except Cause α} {f : α → Except Cause β} {c : Cause} :
    (x >>= f) = .error c ↔ x = .error c ∨ ∃ a, x = .ok a ∧ f a = .error c := by
  cases x with
  | ok a => simp
  | error e => simp

variable {s : State} {r p q : Reg} {f : Cause}

theorem readVec_eq_ok {v : Vec} : readVec s r = .ok v ↔ (regAt s r).n ≠ 0 ∧ v = (regAt s r).toVec := by
  rcases readVec_cases s r with ⟨h, e⟩ | ⟨h, e⟩
  · simp [e, h]
  · simp only [e, Except.ok.injEq, h, ne_eq, not_false_eq_true, true_and]; exact eq_comm

theorem readVec_eq_error : readVec s r = .error f ↔ (regAt s r).n = 0 ∧ f = .unconstructed := by
  rcases readVec_cases s r with ⟨h, e⟩ | ⟨h, e⟩
  · simp only [e, h, Except.error.injEq, true_and]; exact eq_comm
  · simp only [e, reduceCtorEq, false_iff]; exact fun k => h k.1

theorem readVecs_eq_ok {v : Vec × Vec} :
    readVecs s p q = .ok v ↔
      (regAt s p).n ≠ 0 ∧ (regAt s q).n ≠ 0 ∧ v = ((regAt s p).toVec, (regAt s q).toVec) := by
  simp only [readVecs, bind_eq_ok, readVec_eq_ok, Except.ok.injEq]
  constructor
  · rintro ⟨a, ⟨hp, rfl⟩, b, ⟨hq, rfl⟩, rfl⟩; exact ⟨hp, hq, rfl⟩
  · rintro ⟨hp, hq, rfl⟩; exact ⟨_, ⟨hp, rfl⟩, _, ⟨hq, rfl⟩, rfl⟩

theorem readVecs_eq_error :
    readVecs s p q = .error f ↔ ((regAt s p).n = 0 ∨ (regAt s q).n = 0) ∧ f = .unconstructed := by
  simp only [readVecs, bind_eq_error, readVec_eq_ok, readVec_eq_error, reduceCtorEq, and_false, exists_false, or_false]
  constructor
  · rintro (⟨h, e⟩ | ⟨a, -, h, e⟩)
    · exact ⟨.inl h, e⟩
    · exact ⟨.inr h, e⟩
  · rintro ⟨h, e⟩
    by_cases hp : (regAt s p).n = 0
    · exact .inl ⟨hp, e⟩
    · exact .inr ⟨_, ⟨hp, rfl⟩, h.resolve_left hp, e⟩

theorem checkWidth_eq_ok {c : Config} {n : Nat} {u : Unit} : checkWidth c n = .ok u ↔ 1 ≤ n ∧ n ≤ c.nmax := by
  rcases checkWidth_cases c n with ⟨h1, h2, e⟩ | ⟨h, e⟩
  · simp [e, h1, h2]
  · simp only [e, reduceCtorEq, false_iff]; omega

theorem checkWidth_eq_error {c : Config} {n : Nat} :
    checkWidth c n = .error f ↔ (n = 0 ∨ c.nmax < n) ∧ f = .widthError := by
  rcases checkWidth_cases c n with ⟨h1, h2, e⟩ | ⟨h, e⟩
  · simp only [e, reduceCtorEq, false_iff]; omega
  · simp only [e, h, Except.error.injEq, true_and]; exact eq_comm

theorem requireLegal_eq_ok {b : Bool} {u : Unit} : requireLegal b = .ok u ↔ b = true := by
  cases b <;> simp [requireLegal]

theorem requireLegal_eq_error {b : Bool} : requireLegal b = .error f ↔ b = false ∧ f = .illegalCommand := by
  cases b
  · simp only [requireLegal, Bool.false_eq_true, if_false, Except.error.injEq, true_and]; exact eq_comm
  · simp [requireLegal]

theorem memReadBlock_eq_error {k : Nat} :
    memReadBlock s r k = .error f ↔
      ((regAt s r).n = 0 ∧ f = .unconstructed) ∨
        ((regAt s r).n ≠ 0 ∧ blockCount s.config (regAt s r).n.toNat ≤ k ∧ f = .outOfRange) := by
  by_cases h : (regAt s r).n = 0
  · rw [memReadBlock_unconstructed h]; simp [h, eq_comm]
  · rw [memReadBlock_constructed h]; split <;> simp_all [eq_comm]

theorem memWriteBlock_eq_error {k d : Nat} :
    memWriteBlock s r k d = .error f ↔
      ((regAt s r).n = 0 ∧ f = .unconstructed) ∨
        ((regAt s r).n ≠ 0 ∧ blockCount s.config (regAt s r).n.toNat ≤ k ∧ f = .outOfRange) := by
  by_cases h : (regAt s r).n = 0
  · rw [memWriteBlock_unconstructed h]; simp [h, eq_comm]
  · rw [memWriteBlock_constructed h]; split <;> simp_all [eq_comm]

theorem memReadBit_eq_error {k : Nat} :
    memReadBit s r k = .error f ↔
      ((regAt s r).n = 0 ∧ f = .unconstructed) ∨
        ((regAt s r).n ≠ 0 ∧ (regAt s r).n.toNat ≤ k ∧ f = .outOfRange) := by
  by_cases h : (regAt s r).n = 0
  · rw [memReadBit_unconstructed h]; simp [h, eq_comm]
  · rw [memReadBit_constructed h]; split <;> simp_all [eq_comm]

theorem memWriteBit_eq_error {k d : Nat} :
    memWriteBit s r k d = .error f ↔
      ((regAt s r).n = 0 ∧ f = .unconstructed) ∨
        ((regAt s r).n ≠ 0 ∧ (regAt s r).n.toNat ≤ k ∧ f = .outOfRange) := by
  by_cases h : (regAt s r).n = 0
  · rw [memWriteBit_unconstructed h]; simp [h, eq_comm]
  · rw [memWriteBit_constructed h]; split <;> simp_all [eq_comm]

/-- A block write that completes replaces the register and keeps its width. -/
theorem memWriteBlock_eq_ok {k d : Nat} {t : State} (h : memWriteBlock s r k d = .ok t) :
    (regAt s r).n ≠ 0 ∧ k < blockCount s.config (regAt s r).n.toNat ∧
      t = writeVec s r ⟨(regAt s r).n.toNat, trimTo s.config (regAt s r).n.toNat ((regAt s r).toVec.blk.set k d)⟩ := by
  by_cases hn : (regAt s r).n = 0
  · rw [memWriteBlock_unconstructed hn] at h; cases h
  · rw [memWriteBlock_constructed hn] at h
    split at h
    · cases h
    · cases h; exact ⟨hn, by omega, rfl⟩

/-- A bit write that completes replaces the register and keeps its width. -/
theorem memWriteBit_eq_ok {k d : Nat} {t : State} (h : memWriteBit s r k d = .ok t) :
    (regAt s r).n ≠ 0 ∧ k < (regAt s r).n.toNat ∧
      t = writeVec s r ⟨(regAt s r).n.toNat, setBitOf s.config (regAt s r).toVec.blk k d⟩ := by
  by_cases hn : (regAt s r).n = 0
  · rw [memWriteBit_unconstructed hn] at h; cases h
  · rw [memWriteBit_constructed hn] at h
    split at h
    · cases h
    · cases h; exact ⟨hn, by omega, rfl⟩

/-- The adder fails with `Overflow` only, and answers the promoted width (44_add_sub.md R193). -/
theorem addVec_outcomes (c : Config) (a b : Vec) :
    addVec c a b = .error .overflow ∨ ∃ v, addVec c a b = .ok v ∧ v.n = max a.n b.n := by
  unfold addVec
  dsimp only
  split
  · exact .inl rfl
  · exact .inr ⟨_, rfl, rfl⟩

/-- The multiplier fails with `Overflow` only, and answers the accumulator's width (45_multiply.md R211). -/
theorem mulLoop_outcomes (c : Config) (drv other : Vec) (is : List Nat) (acc : Vec) (h : other.n = acc.n) :
    mulLoop c drv other is acc = .error .overflow ∨ ∃ v, mulLoop c drv other is acc = .ok v ∧ v.n = acc.n := by
  induction is generalizing acc with
  | nil => exact .inr ⟨acc, rfl, rfl⟩
  | cons i is ih =>
    rw [mulLoop]
    split
    · have hs : (shlVec c other i).n = acc.n := by
        rw [← h]; unfold shlVec; split <;> rfl
      rcases addVec_outcomes c acc (shlVec c other i) with e | ⟨v, e, hv⟩
      · exact .inl (by rw [e])
      · rw [e]
        have hv' : v.n = acc.n := by rw [hv, hs, max_self]
        rcases ih v (by rw [hv', h]) with e2 | ⟨w, e2, hw⟩
        · exact .inl e2
        · exact .inr ⟨w, e2, by rw [hw, hv']⟩
    · exact ih acc h

theorem mulVec_outcomes (c : Config) (a b : Vec) :
    mulVec c a b = .error .overflow ∨ ∃ v, mulVec c a b = .ok v ∧ v.n = a.n + b.n := by
  unfold mulVec
  dsimp only
  split <;> exact mulLoop_outcomes c _ _ _ _ rfl

/-- The divider's results have the dividend's width (46_divide.md R220). -/
theorem divLoop_widths (c : Config) (k : Nat) (d q r : Vec) (hd : d.n = r.n) (hq : q.n = r.n) :
    (divLoop c k d q r).1.n = r.n ∧ (divLoop c k d q r).2.n = r.n := by
  induction k generalizing d q r with
  | zero => exact ⟨hq, rfl⟩
  | succ k ih =>
    have hs : (shrVec c d 1).n = d.n := by unfold shrVec; split <;> rfl
    rw [divLoop]
    split
    · have hr : (subVec c r d).n = r.n := by show max r.n d.n = r.n; rw [hd, max_self]
      rw [← hr]
      exact ih _ _ _ (by rw [hs, hr, hd]) (by rw [hr]; exact hq)
    · exact ih _ _ _ (by rw [hs, hd]) hq

/-- The divider fails exactly on a zero divisor, with `DivisionByZero` (46_divide.md R220). -/
theorem divRemVec_outcomes (c : Config) (a b : Vec) :
    (b.val c = 0 ∧ divRemVec c a b = .error .divisionByZero) ∨
      (b.val c ≠ 0 ∧ ∃ v, divRemVec c a b = .ok v ∧ v.1.n = a.n ∧ v.2.n = a.n) := by
  unfold divRemVec
  split
  · exact .inl ⟨‹_›, rfl⟩
  · refine .inr ⟨‹_›, ?_⟩
    split
    · exact ⟨_, rfl, rfl, rfl⟩
    split
    · exact ⟨_, rfl, rfl, rfl⟩
    split
    · exact ⟨_, rfl, rfl, rfl⟩
    · have hs : ∀ m, (shlVec c (b.convert c a.n) m).n = a.n := by
        intro m; unfold shlVec; split <;> rfl
      exact ⟨_, rfl, divLoop_widths c _ _ _ _ (hs _) rfl⟩

end Sys2Proof.Machine
end

