-- ==== Sys2Proof/Laws/PerInstr.lean ====
section
/-! SUPPORT. Statements about every instruction, made one constructor at a time: the command word of an instruction under
the mask of its format is the `match` column of its row (30_encoding.md R72, R74). -/

namespace Sys2Proof.Laws

/-- The word of an instruction, under its format's mask, is its row's `match`. -/
def MaskedWord.Statement (i : Instr) : Prop := encode i &&& i.format.mask = matchWord i.opcode

/-- An instruction satisfies the statement when its word has its opcode and zeros where its format requires them. -/
theorem MaskedWord.of_fields {i : Instr} (ho : opcodeField (encode i) = i.opcode)
    (hz : i.format.reservedZero (encode i) = true) : MaskedWord.Statement i := (masked_iff _ _ _).mpr ⟨ho, hz⟩

theorem MaskedWord.nop : MaskedWord.Statement .nop :=
  of_fields (by simp [encode, Instr.opcode]) (by simp [encode, Instr.format, Format.reservedZero])

theorem MaskedWord.rdsr (imm : Imm) : MaskedWord.Statement (.rdsr imm) :=
  of_fields (by simp [encode, Instr.opcode]) (by simp [encode, Instr.format, Format.reservedZero])

theorem MaskedWord.zero (rd : Reg) (imm : Imm) : MaskedWord.Statement (.zero rd imm) :=
  of_fields (by simp [encode, Instr.opcode]) (by simp [encode, Instr.format, Format.reservedZero])

theorem MaskedWord.ldi (rd : Reg) (imm : Imm) : MaskedWord.Statement (.ldi rd imm) :=
  of_fields (by simp [encode, Instr.opcode]) (by simp [encode, Instr.format, Format.reservedZero])

theorem MaskedWord.mov (rd rs1 : Reg) : MaskedWord.Statement (.mov rd rs1) :=
  of_fields (by simp [encode, Instr.opcode]) (by simp [encode, Instr.format, Format.reservedZero])

theorem MaskedWord.cvt (rd rs1 : Reg) (imm : Imm) : MaskedWord.Statement (.cvt rd rs1 imm) :=
  of_fields (by simp [encode, Instr.opcode]) (by simp [encode, Instr.format, Format.reservedZero])

theorem MaskedWord.ldb (rd : Reg) (imm : Imm) : MaskedWord.Statement (.ldb rd imm) :=
  of_fields (by simp [encode, Instr.opcode]) (by simp [encode, Instr.format, Format.reservedZero])

theorem MaskedWord.stb (rs1 : Reg) (imm : Imm) : MaskedWord.Statement (.stb rs1 imm) :=
  of_fields (by simp [encode, Instr.opcode]) (by simp [encode, Instr.format, Format.reservedZero])

theorem MaskedWord.bget (rs1 : Reg) (imm : Imm) : MaskedWord.Statement (.bget rs1 imm) :=
  of_fields (by simp [encode, Instr.opcode]) (by simp [encode, Instr.format, Format.reservedZero])

theorem MaskedWord.bset (rd : Reg) (imm : Imm) : MaskedWord.Statement (.bset rd imm) :=
  of_fields (by simp [encode, Instr.opcode]) (by simp [encode, Instr.format, Format.reservedZero])

theorem MaskedWord.bflip (rd : Reg) (imm : Imm) : MaskedWord.Statement (.bflip rd imm) :=
  of_fields (by simp [encode, Instr.opcode]) (by simp [encode, Instr.format, Format.reservedZero])

theorem MaskedWord.size (rs1 : Reg) : MaskedWord.Statement (.size rs1) :=
  of_fields (by simp [encode, Instr.opcode]) (by simp [encode, Instr.format, Format.reservedZero])

theorem MaskedWord.count (rs1 : Reg) : MaskedWord.Statement (.count rs1) :=
  of_fields (by simp [encode, Instr.opcode]) (by simp [encode, Instr.format, Format.reservedZero])

theorem MaskedWord.all (rs1 : Reg) : MaskedWord.Statement (.all rs1) :=
  of_fields (by simp [encode, Instr.opcode]) (by simp [encode, Instr.format, Format.reservedZero])

theorem MaskedWord.any (rs1 : Reg) : MaskedWord.Statement (.any rs1) :=
  of_fields (by simp [encode, Instr.opcode]) (by simp [encode, Instr.format, Format.reservedZero])

theorem MaskedWord.none (rs1 : Reg) : MaskedWord.Statement (.none rs1) :=
  of_fields (by simp [encode, Instr.opcode]) (by simp [encode, Instr.format, Format.reservedZero])

theorem MaskedWord.tonum (rs1 : Reg) : MaskedWord.Statement (.tonum rs1) :=
  of_fields (by simp [encode, Instr.opcode]) (by simp [encode, Instr.format, Format.reservedZero])

theorem MaskedWord.addb (cin : Bool) : MaskedWord.Statement (.addb cin) :=
  of_fields (by simp [encode, Instr.opcode]) (by simp [encode, Instr.format, Format.reservedZero, cinImm_high])

theorem MaskedWord.subb (cin : Bool) : MaskedWord.Statement (.subb cin) :=
  of_fields (by simp [encode, Instr.opcode]) (by simp [encode, Instr.format, Format.reservedZero, cinImm_high])

theorem MaskedWord.bshl (rd rs1 : Reg) (imm : Imm) : MaskedWord.Statement (.bshl rd rs1 imm) :=
  of_fields (by simp [encode, Instr.opcode]) (by simp [encode, Instr.format, Format.reservedZero])

theorem MaskedWord.bshr (rd rs1 : Reg) (imm : Imm) : MaskedWord.Statement (.bshr rd rs1 imm) :=
  of_fields (by simp [encode, Instr.opcode]) (by simp [encode, Instr.format, Format.reservedZero])

theorem MaskedWord.sshl (rd rs1 : Reg) (imm : Imm) : MaskedWord.Statement (.sshl rd rs1 imm) :=
  of_fields (by simp [encode, Instr.opcode]) (by simp [encode, Instr.format, Format.reservedZero])

theorem MaskedWord.sshr (rd rs1 : Reg) (imm : Imm) : MaskedWord.Statement (.sshr rd rs1 imm) :=
  of_fields (by simp [encode, Instr.opcode]) (by simp [encode, Instr.format, Format.reservedZero])

theorem MaskedWord.shl (rd rs1 : Reg) (imm : Imm) : MaskedWord.Statement (.shl rd rs1 imm) :=
  of_fields (by simp [encode, Instr.opcode]) (by simp [encode, Instr.format, Format.reservedZero])

theorem MaskedWord.shr (rd rs1 : Reg) (imm : Imm) : MaskedWord.Statement (.shr rd rs1 imm) :=
  of_fields (by simp [encode, Instr.opcode]) (by simp [encode, Instr.format, Format.reservedZero])

theorem MaskedWord.add (rd rs1 rs2 : Reg) : MaskedWord.Statement (.add rd rs1 rs2) :=
  of_fields (by simp [encode, Instr.opcode]) (by simp [encode, Instr.format, Format.reservedZero])

theorem MaskedWord.sub (rd rs1 rs2 : Reg) : MaskedWord.Statement (.sub rd rs1 rs2) :=
  of_fields (by simp [encode, Instr.opcode]) (by simp [encode, Instr.format, Format.reservedZero])

theorem MaskedWord.twoc (rd rs1 : Reg) : MaskedWord.Statement (.twoc rd rs1) :=
  of_fields (by simp [encode, Instr.opcode]) (by simp [encode, Instr.format, Format.reservedZero])

theorem MaskedWord.mul (rd rs1 rs2 : Reg) : MaskedWord.Statement (.mul rd rs1 rs2) :=
  of_fields (by simp [encode, Instr.opcode]) (by simp [encode, Instr.format, Format.reservedZero])

theorem MaskedWord.div (rd rs1 rs2 : Reg) : MaskedWord.Statement (.div rd rs1 rs2) :=
  of_fields (by simp [encode, Instr.opcode]) (by simp [encode, Instr.format, Format.reservedZero])

theorem MaskedWord.rem (rd rs1 rs2 : Reg) : MaskedWord.Statement (.rem rd rs1 rs2) :=
  of_fields (by simp [encode, Instr.opcode]) (by simp [encode, Instr.format, Format.reservedZero])

theorem MaskedWord.divr (rd rd2 rs1 rs2 : Reg) : MaskedWord.Statement (.divr rd rd2 rs1 rs2) :=
  of_fields (by simp [encode, Instr.opcode]) (by simp [encode, Instr.format, Format.reservedZero, rd2Imm_high])

theorem MaskedWord.and (rd rs1 rs2 : Reg) : MaskedWord.Statement (.and rd rs1 rs2) :=
  of_fields (by simp [encode, Instr.opcode]) (by simp [encode, Instr.format, Format.reservedZero])

theorem MaskedWord.or (rd rs1 rs2 : Reg) : MaskedWord.Statement (.or rd rs1 rs2) :=
  of_fields (by simp [encode, Instr.opcode]) (by simp [encode, Instr.format, Format.reservedZero])

theorem MaskedWord.not (rd rs1 : Reg) : MaskedWord.Statement (.not rd rs1) :=
  of_fields (by simp [encode, Instr.opcode]) (by simp [encode, Instr.format, Format.reservedZero])

theorem MaskedWord.cmp (rs1 rs2 : Reg) : MaskedWord.Statement (.cmp rs1 rs2) :=
  of_fields (by simp [encode, Instr.opcode]) (by simp [encode, Instr.format, Format.reservedZero])

end Sys2Proof.Laws
end

