-- ==== Sys2Proof/Tests/Slice0.lean ====
section
/-! SUPPORT. Tests of the model. Expected values come from the spec: the examples in the instruction rules and the vectors
V<n>, programs P<n> and tables T<n> of 95_test_vectors.md, 96_test_vectors_arith.md and
97_test_vectors_div_logic_system.md. The last part gives, for each obligation that has hypotheses, a state and operands that
meet them all, at the boundaries of its clauses. -/

namespace Sys2Proof.Tests

open Sys2Proof.Machine

-- One test at a time: elaborated side by side, the kernel evaluations below ask for more threads than the check allows.
set_option Elab.async false

/-! Helpers. -/

/-- A block in configuration `c` in which each listed register `(r, n, x)` holds `mk(n, x)`. -/
def holding (c : Config) (rs : List (Reg × Nat × Nat)) : State :=
  rs.foldl (fun s r => writeVec s r.1 (mkVec c r.2.1 r.2.2)) (State.resetIn c)

/-- The state after one step in which the host presents `(w, a, b)`. -/
def after (s : State) (w : CmdWord) (a b : DataWord) : Option State := afterSteps 1 (presentNext s ⟨w, a, b⟩)

/-- The response to `(w, a, b)`, and the width and the value register `r` holds afterwards. -/
def outcome (s : State) (w : CmdWord) (a b : DataWord) (r : Reg) : Option (Option Response × Nat × Nat) :=
  (after s w a b).map fun t => (t.response, widthOf t r, valueAt t r)

/-- `status = OK` with `flag` and `rdata`. -/
def okay (flag : Bool) (d : DataWord) : Option Response := some { status := .ok, flag := flag, rdata := d }

/-- A fault's response. -/
def faulted (f : Cause) : Option Response := some { status := .fault f, flag := false, rdata := 0 }

/-- The answer in the FAULTED state. -/
def halted : Option Response := some { status := .halted, flag := false, rdata := 0 }

/-- T8 with the vector of the shift examples, `x1 = mk(20, 0xABCDE)`. -/
def shifting : State := holding Config.t8 [(1, 20, 0xABCDE)]

/-- T8 with several registers constructed; `x0` and `x15` are not. -/
def busy : State :=
  holding Config.t8 ([(1, 8, 200), (2, 16, 1000), (3, 8, 0), (4, 8, 55), (5, 8, 56), (6, 20, 0xABCDE)]
    ++ [(7, 60, 1), (8, 12, 4095), (9, 16, 200), (10, 1, 1), (11, 4, 15), (12, 16, 1000)])

/-- `busy` after the division `200 / 0`: FAULTED. -/
def broken : State := enterFault { busy with port := ⟨0xB3C4C000#32, 0, 0⟩ } .divisionByZero

/-- `s` with the command word `w` on the port. -/
def onPort (s : State) (w : CmdWord) : State := presentTransaction s ⟨w, 0, 0⟩

/-! Well-formedness: each check refuses an ill-formed term, and takes its neighbour (30_encoding.md R76, items 3 to 5). -/

theorem test_wellFormed_rdsr : (Instr.rdsr 3).wellFormed Config.ref = false ∧ (Instr.rdsr 2).wellFormed Config.ref = true := by
  decide

theorem test_wellFormed_sshl :
    (Instr.sshl 1 2 8).wellFormed Config.t8 = false ∧ (Instr.sshl 1 2 7).wellFormed Config.t8 = true ∧
    (Instr.sshl 1 2 32).wellFormed Config.ref = false ∧ (Instr.sshl 1 2 31).wellFormed Config.ref = true := by decide

theorem test_wellFormed_sshr :
    (Instr.sshr 1 2 8).wellFormed Config.t8 = false ∧ (Instr.sshr 1 2 7).wellFormed Config.t8 = true ∧
    (Instr.sshr 1 2 64).wellFormed Config.x64 = false ∧ (Instr.sshr 1 2 63).wellFormed Config.x64 = true := by decide

theorem test_wellFormed_divr :
    (Instr.divr 3 3 1 2).wellFormed Config.ref = false ∧ (Instr.divr 3 4 1 2).wellFormed Config.ref = true := by decide

theorem test_legal_config :
    Config.ref.legal = true ∧ Config.t8.legal = true ∧ Config.x64.legal = true ∧
    (Config.mk .w8 0).legal = false ∧ (Config.mk .w8 256).legal = false ∧ (Config.mk .w8 255).legal = true ∧
    (Config.mk .w64 255).legal = true := by decide

/-! Decoding: words written out field by field from 30_encoding.md R71, R72, R74. -/

/-- NOP (48_system.md R260). -/
theorem test_decode_n :
    decode (0b000001#6 ++ 0b0000#4 ++ 0b0000#4 ++ 0b0000#4 ++ 0b00000000000000#14) = .ok .nop := by decide

/-- RDSR (48_system.md R261). -/
theorem test_decode_y :
    decode (0b000010#6 ++ 0b0000#4 ++ 0b0000#4 ++ 0b0000#4 ++ 0b00000000000001#14) = .ok (.rdsr 1) := by decide

/-- ZERO, LDI, LDB, BSET, BFLIP: V10, V19, V40, V61, V66. -/
theorem test_decode_d :
    decode (0b001000#6 ++ 0b0000#4 ++ 0b0000#4 ++ 0b0000#4 ++ 0b00000000001000#14) = .ok (.zero 0 8) ∧
    decode (0b001001#6 ++ 0b0001#4 ++ 0b0000#4 ++ 0b0000#4 ++ 0b00000000100000#14) = .ok (.ldi 1 32) ∧
    decode (0b010000#6 ++ 0b0001#4 ++ 0b0000#4 ++ 0b0000#4 ++ 0b00000000000001#14) = .ok (.ldb 1 1) ∧
    decode (0b010011#6 ++ 0b0001#4 ++ 0b0000#4 ++ 0b0000#4 ++ 0b00000000000111#14) = .ok (.bset 1 7) ∧
    decode (0b010100#6 ++ 0b0001#4 ++ 0b0000#4 ++ 0b0000#4 ++ 0b00000000000000#14) = .ok (.bflip 1 0) := by decide

/-- MOV, TWOC, NOT: V27, V200, V6. -/
theorem test_decode_m :
    decode (0b001010#6 ++ 0b0010#4 ++ 0b0001#4 ++ 0b0000#4 ++ 0b00000000000000#14) = .ok (.mov 2 1) ∧
    decode (0b101010#6 ++ 0b0011#4 ++ 0b0001#4 ++ 0b0000#4 ++ 0b00000000000000#14) = .ok (.twoc 3 1) ∧
    decode (0b110010#6 ++ 0b0011#4 ++ 0b0001#4 ++ 0b0000#4 ++ 0b00000000000000#14) = .ok (.not 3 1) := by decide

/-- CVT and the six shifts: V30, V124, V130, V136, V144, V148, V150. -/
theorem test_decode_i :
    decode (0b001011#6 ++ 0b0011#4 ++ 0b0001#4 ++ 0b0000#4 ++ 0b00000000010000#14) = .ok (.cvt 3 1 16) ∧
    decode (0b100000#6 ++ 0b0010#4 ++ 0b0001#4 ++ 0b0000#4 ++ 0b00000000000001#14) = .ok (.bshl 2 1 1) ∧
    decode (0b100001#6 ++ 0b0010#4 ++ 0b0001#4 ++ 0b0000#4 ++ 0b00000000000001#14) = .ok (.bshr 2 1 1) ∧
    decode (0b100010#6 ++ 0b0010#4 ++ 0b0001#4 ++ 0b0000#4 ++ 0b00000000000011#14) = .ok (.sshl 2 1 3) ∧
    decode (0b100011#6 ++ 0b0010#4 ++ 0b0001#4 ++ 0b0000#4 ++ 0b00000000000011#14) = .ok (.sshr 2 1 3) ∧
    decode (0b100100#6 ++ 0b0010#4 ++ 0b0001#4 ++ 0b0000#4 ++ 0b00000000001011#14) = .ok (.shl 2 1 11) ∧
    decode (0b100101#6 ++ 0b0010#4 ++ 0b0001#4 ++ 0b0000#4 ++ 0b00000000001011#14) = .ok (.shr 2 1 11) := by decide

/-- ADD, SUB, MUL, DIV, REM, AND, OR: V171, V189, V209, V4, V5, V1, V2. -/
theorem test_decode_r :
    decode (0b101000#6 ++ 0b0011#4 ++ 0b0001#4 ++ 0b0010#4 ++ 0b00000000000000#14) = .ok (.add 3 1 2) ∧
    decode (0b101001#6 ++ 0b0011#4 ++ 0b0001#4 ++ 0b0010#4 ++ 0b00000000000000#14) = .ok (.sub 3 1 2) ∧
    decode (0b101011#6 ++ 0b0011#4 ++ 0b0001#4 ++ 0b0010#4 ++ 0b00000000000000#14) = .ok (.mul 3 1 2) ∧
    decode (0b101100#6 ++ 0b0011#4 ++ 0b0001#4 ++ 0b0010#4 ++ 0b00000000000000#14) = .ok (.div 3 1 2) ∧
    decode (0b101101#6 ++ 0b0100#4 ++ 0b0001#4 ++ 0b0010#4 ++ 0b00000000000000#14) = .ok (.rem 4 1 2) ∧
    decode (0b110000#6 ++ 0b0011#4 ++ 0b0001#4 ++ 0b0010#4 ++ 0b00000000000000#14) = .ok (.and 3 1 2) ∧
    decode (0b110001#6 ++ 0b0011#4 ++ 0b0001#4 ++ 0b0010#4 ++ 0b00000000000000#14) = .ok (.or 3 1 2) := by decide

/-- DIVR: V3. -/
theorem test_decode_q :
    decode (0b101110#6 ++ 0b0011#4 ++ 0b0001#4 ++ 0b0010#4 ++ 0b00000000000100#14) = .ok (.divr 3 4 1 2) := by decide

/-- SIZE, COUNT, ALL, ANY, NONE, TONUM: V69 to V74. -/
theorem test_decode_s :
    decode (0b010101#6 ++ 0b0000#4 ++ 0b0001#4 ++ 0b0000#4 ++ 0b00000000000000#14) = .ok (.size 1) ∧
    decode (0b010110#6 ++ 0b0000#4 ++ 0b0001#4 ++ 0b0000#4 ++ 0b00000000000000#14) = .ok (.count 1) ∧
    decode (0b010111#6 ++ 0b0000#4 ++ 0b0001#4 ++ 0b0000#4 ++ 0b00000000000000#14) = .ok (.all 1) ∧
    decode (0b011000#6 ++ 0b0000#4 ++ 0b0001#4 ++ 0b0000#4 ++ 0b00000000000000#14) = .ok (.any 1) ∧
    decode (0b011001#6 ++ 0b0000#4 ++ 0b0001#4 ++ 0b0000#4 ++ 0b00000000000000#14) = .ok (.none 1) ∧
    decode (0b011010#6 ++ 0b0000#4 ++ 0b0001#4 ++ 0b0000#4 ++ 0b00000000000000#14) = .ok (.tonum 1) := by decide

/-- STB, BGET: V47, V55. -/
theorem test_decode_j :
    decode (0b010001#6 ++ 0b0000#4 ++ 0b0001#4 ++ 0b0000#4 ++ 0b00000000000001#14) = .ok (.stb 1 1) ∧
    decode (0b010010#6 ++ 0b0000#4 ++ 0b0001#4 ++ 0b0000#4 ++ 0b00000000000011#14) = .ok (.bget 1 3) := by decide

/-- CMP: V268. -/
theorem test_decode_c :
    decode (0b110011#6 ++ 0b0000#4 ++ 0b0001#4 ++ 0b0010#4 ++ 0b00000000000000#14) = .ok (.cmp 1 2) := by decide

/-- ADDB, SUBB: V92, V101. -/
theorem test_decode_p :
    decode (0b011100#6 ++ 0b0000#4 ++ 0b0000#4 ++ 0b0000#4 ++ 0b00000000000001#14) = .ok (.addb true) ∧
    decode (0b011101#6 ++ 0b0000#4 ++ 0b0000#4 ++ 0b0000#4 ++ 0b00000000000000#14) = .ok (.subb false) := by decide

/-- Each field at a value with a pattern of its own: no two fields are swapped (30_encoding.md R71). -/
theorem test_decode_fields :
    decode (0b101110#6 ++ 0b1000#4 ++ 0b0100#4 ++ 0b0010#4 ++ 0b00000000000001#14) = .ok (.divr 8 1 4 2) ∧
    decode (0b001011#6 ++ 0b1010#4 ++ 0b0101#4 ++ 0b0000#4 ++ 0b10000000000001#14) = .ok (.cvt 10 5 8193) := by decide

/-- Must-be-zero fields and unassigned opcodes (T10: V287 to V313). -/
theorem test_decode_rejects :
    decode 0x04000001#32 = .error .reservedField ∧ decode 0x08400000#32 = .error .reservedField ∧
    decode 0x20040008#32 = .error .reservedField ∧ decode 0x28844000#32 = .error .reservedField ∧
    decode 0x2CC44008#32 = .error .reservedField ∧ decode 0xA0C48001#32 = .error .reservedField ∧
    decode 0xB8C48014#32 = .error .reservedField ∧ decode 0x54440000#32 = .error .reservedField ∧
    decode 0x44440000#32 = .error .reservedField ∧ decode 0xCC448000#32 = .error .reservedField ∧
    decode 0x70000002#32 = .error .reservedField ∧ decode 0x6C000000#32 = .error .unassignedOpcode ∧
    decode 0xD0000000#32 = .error .unassignedOpcode := by decide

theorem test_decodeTableWord :
    decodeTableWord 32 0xA0C48000 = some (.add 3 1 2) ∧ decodeTableWord 32 0 = none ∧
    decodeTableWord 40 0x1A0C48000 = none := by decide

/-- The first step after reset runs the word the host presents. -/
theorem test_withFetchWord :
    (match step (State.reset.withFetchWord 32 0x20000008) with
      | .next t => (widthOf t 0, valueAt t 0, t.pending) == (8, 0, [])
      | .fault _ => false
      | .refused _ => false) = true := by decide

/-! One step of each instruction. -/

/-- V278. -/
theorem test_nop :
    outcome (holding Config.t8 [(1, 8, 204)]) 0x04000000#32 0 0 1 = some (okay false 0, 8, 204) := by
  decide +kernel

/-- T12 step 4. -/
theorem test_nop_halted :
    outcome broken 0x04000000#32 0 0 1 = some (halted, 8, 200) := by
  decide +kernel

/-- V280. -/
theorem test_rdsr_cfg :
    outcome (State.resetIn Config.t8) 0x08000000#32 0 0 0 = some (okay false 0x1100808, 0, 0) := by
  decide +kernel

/-- T12 step 7. -/
theorem test_rdsr_halted :
    outcome broken 0x08000001#32 0 0 15 = some (okay false 0x21, 0, 0) := by
  decide +kernel

/-- V14: the largest width. -/
theorem test_zero :
    outcome (State.resetIn Config.t8) 0x20000040#32 0 0 0 = some (okay false 0, 64, 0) := by
  decide +kernel

/-- V15. -/
theorem test_zero_too_wide :
    outcome (State.resetIn Config.t8) 0x20000041#32 0 0 0 = some (faulted .widthError, 0, 0) := by
  decide +kernel

/-- V20. -/
theorem test_ldi_truncates :
    outcome (State.resetIn Config.t8) 0x24400004#32 255 0 1 = some (okay false 0, 4, 15) := by
  decide +kernel

/-- V27. -/
theorem test_mov :
    outcome (holding Config.t8 [(1, 32, 25)]) 0x28840000#32 0 0 2 = some (okay false 0, 32, 25) := by
  decide +kernel

/-- V29. -/
theorem test_mov_unconstructed :
    outcome (holding Config.t8 [(2, 8, 1)]) 0x28840000#32 0 0 2 = some (faulted .unconstructed, 8, 1) := by
  decide +kernel

/-- V31. -/
theorem test_cvt_truncates :
    outcome (holding Config.t8 [(1, 8, 204)]) 0x2CC40004#32 0 0 3 = some (okay false 0, 4, 12) := by
  decide +kernel

/-- V30. -/
theorem test_cvt_extends :
    outcome (holding Config.t8 [(1, 8, 204)]) 0x2CC40010#32 0 0 3 = some (okay false 0, 16, 204) := by
  decide +kernel

/-- P3 step 4. -/
theorem test_ldb_trims :
    outcome (holding Config.t8 [(1, 20, 0xbcde)]) 0x40400002#32 250 0 1 = some (okay false 0, 20, 0xabcde) := by
  decide +kernel

/-- V41. -/
theorem test_ldb_ignores_high_bits :
    outcome (holding Config.t8 [(1, 12, 0)]) 0x40400000#32 0xffffffffffffffab 0 1 = some (okay false 0, 12, 171) := by
  decide +kernel

/-- V47. -/
theorem test_stb :
    outcome (holding Config.t8 [(1, 12, 2816)]) 0x44040001#32 0 0 1 = some (okay false 11, 12, 2816) := by
  decide +kernel

/-- V49. -/
theorem test_stb_outOfRange :
    outcome (holding Config.t8 [(1, 12, 2816)]) 0x44040002#32 0 0 1 = some (faulted .outOfRange, 12, 2816) := by
  decide +kernel

/-- V55. -/
theorem test_bget :
    outcome (holding Config.t8 [(1, 8, 204)]) 0x48040003#32 0 0 1 = some (okay true 0, 8, 204) := by
  decide +kernel

/-- V58. -/
theorem test_bget_outOfRange :
    outcome (holding Config.t8 [(1, 8, 204)]) 0x48040008#32 0 0 1 = some (faulted .outOfRange, 8, 204) := by
  decide +kernel

/-- V61. -/
theorem test_bset :
    outcome (holding Config.t8 [(1, 8, 76)]) 0x4C400007#32 1 0 1 = some (okay false 0, 8, 204) := by
  decide +kernel

/-- V63: only the lowest bit of the operand counts. -/
theorem test_bset_clears :
    outcome (holding Config.t8 [(1, 8, 204)]) 0x4C400007#32 0xfffffffffffffffe 0 1 = some (okay false 0, 8, 76) := by
  decide +kernel

/-- V66. -/
theorem test_bflip :
    outcome (holding Config.t8 [(1, 8, 204)]) 0x50400000#32 0 0 1 = some (okay false 0, 8, 205) := by
  decide +kernel

/-- V69. -/
theorem test_size :
    outcome (holding Config.t8 [(1, 8, 204)]) 0x54040000#32 0 0 1 = some (okay false 8, 8, 204) := by
  decide +kernel

/-- V70. -/
theorem test_count :
    outcome (holding Config.t8 [(1, 8, 204)]) 0x58040000#32 0 0 1 = some (okay false 4, 8, 204) := by
  decide +kernel

/-- V75. -/
theorem test_all :
    outcome (holding Config.t8 [(1, 12, 4095)]) 0x5C040000#32 0 0 1 = some (okay true 0, 12, 4095) := by
  decide +kernel

/-- V77. -/
theorem test_all_not :
    outcome (holding Config.t8 [(1, 12, 2047)]) 0x5C040000#32 0 0 1 = some (okay false 0, 12, 2047) := by
  decide +kernel

/-- V72. -/
theorem test_any :
    outcome (holding Config.t8 [(1, 8, 204)]) 0x60040000#32 0 0 1 = some (okay true 0, 8, 204) := by
  decide +kernel

/-- V79. -/
theorem test_none :
    outcome (holding Config.t8 [(1, 12, 0)]) 0x64040000#32 0 0 1 = some (okay true 0, 12, 0) := by
  decide +kernel

/-- V74. -/
theorem test_tonum :
    outcome (holding Config.t8 [(1, 8, 204)]) 0x68040000#32 0 0 1 = some (okay false 204, 8, 204) := by
  decide +kernel

/-- V92. -/
theorem test_addb :
    outcome (State.resetIn Config.t8) 0x70000001#32 200 100 0 = some (okay true 45, 0, 0) := by
  decide +kernel

/-- V116. -/
theorem test_addb_x64 :
    outcome (State.resetIn Config.x64) 0x70000001#32 0xffffffffffffffff 0xffffffffffffffff 0 = some (okay true 0xFFFFFFFFFFFFFFFF, 0, 0) := by
  decide +kernel

/-- V101. -/
theorem test_subb :
    outcome (State.resetIn Config.t8) 0x74000000#32 100 200 0 = some (okay true 156, 0, 0) := by
  decide +kernel

/-- V103. -/
theorem test_subb_borrow_in :
    outcome (State.resetIn Config.t8) 0x74000001#32 255 255 0 = some (okay true 255, 0, 0) := by
  decide +kernel

/-- V124. -/
theorem test_bshl :
    outcome shifting 0x80840001#32 0 0 2 = some (okay false 0, 20, 0xcde00) := by
  decide +kernel

/-- V130. -/
theorem test_bshr :
    outcome shifting 0x84840001#32 0 0 2 = some (okay false 0, 20, 2748) := by
  decide +kernel

/-- V136. -/
theorem test_sshl :
    outcome shifting 0x88840003#32 0 0 2 = some (okay false 0, 20, 0x5e6f0) := by
  decide +kernel

/-- V139. -/
theorem test_sshl_illegal :
    outcome shifting 0x88840008#32 0 0 2 = some (faulted .illegalCommand, 0, 0) := by
  decide +kernel

/-- V144. -/
theorem test_sshr :
    outcome shifting 0x8C840003#32 0 0 2 = some (okay false 0, 20, 0x1579b) := by
  decide +kernel

/-- V148. -/
theorem test_shl :
    outcome shifting 0x9084000B#32 0 0 2 = some (okay false 0, 20, 0x6f000) := by
  decide +kernel

/-- V165. -/
theorem test_shl_in_place :
    outcome shifting 0x90440004#32 0 0 1 = some (okay false 0, 20, 0xbcde0) := by
  decide +kernel

/-- V150. -/
theorem test_shr :
    outcome shifting 0x9484000B#32 0 0 2 = some (okay false 0, 20, 343) := by
  decide +kernel

/-- V161. -/
theorem test_shr_far :
    outcome shifting 0x94843FFF#32 0 0 2 = some (okay false 0, 20, 0) := by
  decide +kernel

/-- V171. -/
theorem test_add_mixed_widths :
    outcome (holding Config.t8 [(1, 8, 200), (2, 16, 1000)]) 0xA0C48000#32 0 0 3 = some (okay false 0, 16, 1200) := by
  decide +kernel

/-- V175. -/
theorem test_add_overflow :
    outcome (holding Config.t8 [(1, 8, 200), (2, 8, 56)]) 0xA0C48000#32 0 0 3 = some (faulted .overflow, 0, 0) := by
  decide +kernel

/-- V191. -/
theorem test_sub_wraps :
    outcome (holding Config.t8 [(1, 8, 5), (2, 16, 10)]) 0xA4C48000#32 0 0 3 = some (okay false 0, 16, 65531) := by
  decide +kernel

/-- V200. -/
theorem test_twoc :
    outcome (holding Config.t8 [(1, 8, 5)]) 0xA8C40000#32 0 0 3 = some (okay false 0, 8, 251) := by
  decide +kernel

/-- V205. -/
theorem test_twoc_of_zero :
    outcome (holding Config.t8 [(1, 12, 0)]) 0xA8C40000#32 0 0 3 = some (faulted .overflow, 0, 0) := by
  decide +kernel

/-- V211. -/
theorem test_mul :
    outcome (holding Config.t8 [(1, 4, 15), (2, 8, 255)]) 0xACC48000#32 0 0 3 = some (okay false 0, 12, 3825) := by
  decide +kernel

/-- V219. -/
theorem test_mul_too_wide :
    outcome (holding Config.t8 [(1, 40, 1), (2, 32, 1)]) 0xACC48000#32 0 0 3 = some (faulted .widthError, 0, 0) := by
  decide +kernel

/-- V241: in place. -/
theorem test_div :
    outcome (holding Config.t8 [(1, 8, 200), (2, 8, 7)]) 0xB0448000#32 0 0 1 = some (okay false 0, 8, 28) := by
  decide +kernel

/-- V246. -/
theorem test_div_by_zero :
    outcome (holding Config.t8 [(1, 8, 0), (2, 8, 0)]) 0xB0C48000#32 0 0 3 = some (faulted .divisionByZero, 0, 0) := by
  decide +kernel

/-- V242. -/
theorem test_rem :
    outcome (holding Config.t8 [(1, 8, 200), (2, 8, 7)]) 0xB4848000#32 0 0 2 = some (okay false 0, 8, 4) := by
  decide +kernel

/-- V234. -/
theorem test_divr_quotient :
    outcome (holding Config.t8 [(1, 16, 1000), (2, 8, 7)]) 0xB8C48004#32 0 0 3 = some (okay false 0, 16, 142) := by
  decide +kernel

/-- V234. -/
theorem test_divr_remainder :
    outcome (holding Config.t8 [(1, 16, 1000), (2, 8, 7)]) 0xB8C48004#32 0 0 4 = some (okay false 0, 16, 6) := by
  decide +kernel

/-- V254. -/
theorem test_and :
    outcome (holding Config.t8 [(1, 8, 204), (2, 16, 0xaaaa)]) 0xC0C48000#32 0 0 3 = some (okay false 0, 16, 136) := by
  decide +kernel

/-- V255. -/
theorem test_or :
    outcome (holding Config.t8 [(1, 8, 204), (2, 16, 0xaaaa)]) 0xC4C48000#32 0 0 3 = some (okay false 0, 16, 43758) := by
  decide +kernel

/-- V262. -/
theorem test_not_trims :
    outcome (holding Config.t8 [(1, 12, 0)]) 0xC8C40000#32 0 0 3 = some (okay false 0, 12, 4095) := by
  decide +kernel

/-- V271. -/
theorem test_cmp_less :
    outcome (holding Config.t8 [(1, 8, 255), (2, 16, 256)]) 0xCC048000#32 0 0 1 = some (okay false 1, 8, 255) := by
  decide +kernel

/-- V270. -/
theorem test_cmp_equal :
    outcome (holding Config.t8 [(1, 8, 5), (2, 16, 5)]) 0xCC048000#32 0 0 1 = some (okay true 0, 8, 5) := by
  decide +kernel

/-- Fault entry and reset (T12 steps 3 and 12; 60_exceptions.md R272; 70_reset_and_hazards.md R300). -/
theorem test_fault_entry :
    (after busy 0xB3C4C000#32 0 0).map (fun t => (t.fsr, t.fcmd, t.x == busy.x)) = some (0x21#8, 0xB3C4C000#32, true) := by
  decide +kernel

theorem test_reset_leaves_faulted :
    (afterSteps 1 { broken with pending := [.rst] }).map (fun t => (t.fsr, t.fcmd, t.x == State.reset.x, widthOf t 1))
      = some (0#8, 0#32, true, 0) := by decide +kernel

/-! Witnesses: hypotheses of the obligations met together, each clause at a boundary. -/

theorem witness_EncodeOfDecode : decode 0xA0C48000#32 = .ok (.add 3 1 2) := by decide

theorem witness_EveryWordMatchesAtMostOneRow :
    (0x28#6, Format.r) ∈ opcodeRows ∧ 0xA0C48000#32 &&& Format.r.mask = matchWord 0x28#6 := by decide

/-- Not FAULTED, and a word of each of the five cases of R76, beside a word of none. -/
theorem witness_IllegalCommandExactly :
    isHalted (onPort busy 0x0C000000#32) = false ∧ (opcodeField 0x0C000000#32).toNat = 0x03 ∧
    (opcodeField 0xFFFFFFFF#32).toNat = 0x3F ∧
    opcodeField 0xA0C48001#32 = 0x28#6 ∧ 0xA0C48001#32 &&& Format.r.mask ≠ matchWord 0x28#6 ∧
    opcodeField 0x88840008#32 = 0x22#6 ∧ (immField 0x88840008#32).toNat = busy.config.W ∧
    opcodeField 0x8C840008#32 = 0x23#6 ∧ (immField 0x8C840008#32).toNat = busy.config.W ∧
    opcodeField 0x08000003#32 = 0x02#6 ∧ (immField 0x08000003#32).toNat = 3 ∧
    opcodeField 0xB8C48003#32 = 0x2E#6 ∧ rdBits 0xB8C48003#32 = (0xB8C48003#32).extractLsb' 0 4 ∧
    decode 0x04000000#32 = .ok .nop := by decide +kernel

theorem witness_StepRunsDecodedInstruction :
    (presentNext busy ⟨0xA0C48000#32, 0, 0⟩).config.legal = true ∧
    (presentNext busy ⟨0xA0C48000#32, 0, 0⟩).pending = [.command ⟨0xA0C48000#32, 0, 0⟩] ∧
    decode 0xA0C48000#32 = .ok (.add 3 1 2) := by decide +kernel

theorem witness_StepRejectsUndecodableWord :
    (presentNext broken ⟨0#32, 0, 0⟩).config.legal = true ∧
    (presentNext broken ⟨0#32, 0, 0⟩).pending = [.command ⟨0#32, 0, 0⟩] ∧ decode 0#32 = .error .unassignedOpcode ∧
    isHalted broken = true ∧ isHalted busy = false := by decide +kernel

theorem witness_StepAppliesReset :
    broken.config.legal = true ∧ ({ broken with pending := [.rst] } : State).pending = [.rst] := by decide +kernel

theorem witness_IdleStepAndIllegalConfiguration :
    busy.config.legal = true ∧ busy.pending = [] ∧
    ({ busy with config := Config.mk .w8 256 } : State).config.legal = false := by decide +kernel

/-- A faulting command and its response, for each of the six faults. -/
theorem witness_FaultEntryEffects :
    isHalted busy = false ∧
    [0x48040008#32, 0xB3C4C000#32, 0xA3C54000#32, 0x0C000000#32, 0x2BC00000#32, 0x23C00041#32].map
        (fun w => match runPort (onPort busy w) with
          | .next t => t.response
          | .fault _ => none
          | .refused _ => none)
      = [faulted .outOfRange, faulted .divisionByZero, faulted .overflow, faulted .illegalCommand]
        ++ [faulted .unconstructed, faulted .widthError] := by decide +kernel

/-- The FAULTED state with a legal RDSR at both ends of its range, and with other words on the port. -/
theorem witness_FaultedStateRefusesAllButRdsr :
    fsrH broken.fsr = true ∧
    0x08000000#32 &&& 0xFFFFC000#32 = 0x08000000#32 ∧ (immField 0x08000000#32).toNat ≤ 2 ∧
    0x08000002#32 &&& 0xFFFFC000#32 = 0x08000000#32 ∧ (immField 0x08000002#32).toNat ≤ 2 ∧
    ¬(0x08000003#32 &&& 0xFFFFC000#32 = 0x08000000#32 ∧ (immField 0x08000003#32).toNat ≤ 2) ∧
    ¬(0x04000000#32 &&& 0xFFFFC000#32 = 0x08000000#32 ∧ (immField 0x04000000#32).toNat ≤ 2) := by decide +kernel

/-- A step that leaves the FAULTED state and makes a register unconstructed. -/
theorem witness_OnlyResetLeavesFaultedOrUnconstructs :
    isHalted { broken with pending := [.rst] } = true ∧ widthOf { broken with pending := [.rst] } 1 = 8 ∧
    ((afterSteps 1 { broken with pending := [.rst] }).map fun t => (isHalted t, widthOf t 1)) = some (false, 0) := by
  decide +kernel

/-- A run of two commands whose second one faults, and a third one, refused. -/
theorem witness_FirstFaultFreezesTheRun :
    (∀ e ∈ [HostEvent.command ⟨0x04000000#32, 0, 0⟩, .command ⟨0xB3C4C000#32, 0, 0⟩, .command ⟨0x20000008#32, 0, 0⟩],
      e ≠ .rst) ∧
    isHalted busy = false ∧
    (afterSteps 3 { busy with
        pending := [.command ⟨0x04000000#32, 0, 0⟩, .command ⟨0xB3C4C000#32, 0, 0⟩, .command ⟨0x20000008#32, 0, 0⟩]
      }).map isHalted = some true := by decide +kernel

theorem witness_OutOfRangeExactly :
    isHalted (onPort busy 0x48040008#32) = false ∧ (onPort busy 0x48040008#32).port.cmd = encode (.bget 1 8) ∧
    widthOf busy 1 = 8 ∧ widthOf busy 6 = 20 ∧ blockCount busy.config 20 = 3 := by decide +kernel

theorem witness_DivisionByZeroExactly :
    isHalted busy = false ∧ widthOf busy 1 = 8 ∧ widthOf busy 3 = 8 ∧ valueAt busy 3 = 0 ∧ valueAt busy 10 = 1 ∧
    (14 : Reg) ≠ 13 := by decide +kernel

theorem witness_UnconstructedExactly :
    isHalted busy = false ∧ (Instr.sshl 1 0 7).wellFormed busy.config = true ∧ (0 : Reg) ∈ sources (.sshl 1 0 7) ∧
    (0 : Reg) ∈ inPlace (.bset 0 0) ∧ (regAt busy 0).n = 0 ∧ (regAt busy 1).n ≠ 0 := by decide +kernel

/-- Widths at both ends: 0, `NMAX`, `NMAX + 1`; the sums 60 + 4 and 60 + 8 against `NMAX = 64`. -/
theorem witness_WidthErrorExactly :
    isHalted busy = false ∧ busy.config.nmax = 64 ∧ widthOf busy 7 + widthOf busy 11 = 64 ∧
    widthOf busy 7 + widthOf busy 1 = 68 := by decide +kernel

/-- Sums of `2^8 - 1` and `2^8` at width 8. -/
theorem witness_OverflowExactly :
    Inv busy ∧ isHalted busy = false ∧ valueAt busy 1 + valueAt busy 4 = 2 ^ 8 - 1 ∧
    valueAt busy 1 + valueAt busy 5 = 2 ^ 8 ∧ max (widthOf busy 1) (widthOf busy 5) = 8 ∧ valueAt busy 3 = 0 := by
  decide +kernel

/-- Each fault as the first one, and no fault. -/
theorem witness_FaultPriority :
    Inv broken ∧ isHalted broken = true ∧ Inv busy ∧ isHalted busy = false ∧
    [Instr.sshl 1 0 8, .cvt 1 0 0, .cvt 1 1 0, .bset 1 8, .div 1 1 3, .add 1 1 5, .add 1 1 4].map (firstFault busy)
      = [some .illegalCommand, some .unconstructed, some .widthError, some .outOfRange, some .divisionByZero]
        ++ [some .overflow, none] := by decide +kernel

theorem witness_ResetSatisfiesInvariant :
    (Config.mk .w8 1).legal = true ∧ (Config.mk .w64 255).legal = true ∧ Config.ref.legal = true := by decide +kernel

/-- A command, a faulting command, reset and an idle step, from states of the invariant. -/
theorem witness_StepKeepsInvariant :
    Inv busy ∧ (after busy 0xA3C48000#32 0 0).isSome = true ∧ (after busy 0xB3C4C000#32 0 0).isSome = true ∧
    (afterSteps 1 { busy with pending := [.rst] }).isSome = true ∧ (afterSteps 1 busy).isSome = true := by
  decide +kernel

/-- The state after reset, of the model and of the smallest and the largest configuration. -/
theorem witness_ResetValues :
    State.reset = State.resetIn Config.ref ∧ Config.ref.legal = true ∧ (Config.mk .w8 1).legal = true ∧
    (Config.mk .w64 255).legal = true := ⟨rfl, by decide, by decide, by decide⟩

theorem witness_ConstructedRegisterHoldsOneVector :
    Inv busy ∧ (regAt busy 1).n ≠ 0 ∧ Holds busy 1 8 200 ∧ (regAt busy 8).n ≠ 0 ∧ Holds busy 8 12 4095 := by
  decide +kernel

theorem witness_CommandChangesOnlyItsDestinations :
    exec (.zero 3 64) busy = .next (respond (writeVec busy 3 (mkVec busy.config 64 0)) false 0) ∧
    (0 : Reg) ∉ destinations (.zero 3 64) ∧ (3 : Reg) ∈ inPlace (.bset 3 0) := ⟨rfl, by decide, by decide⟩

/-- `busy` with a register that ADD x3, x1, x2 does not read changed, and an earlier response. -/
theorem witness_CommandReadsOnlyItsSources :
    let t := respond (writeVec busy 0 (mkVec busy.config 8 77)) true 1
    t.config = busy.config ∧ t.fsr = busy.fsr ∧ t.fcmd = busy.fcmd ∧ t.port = busy.port ∧
    (∀ r ∈ sources (.add 3 1 2) ++ inPlace (.add 3 1 2), regAt t r = regAt busy r) ∧ t.x ≠ busy.x := by decide +kernel

/-- `busy` with other blocks in the unconstructed register `x0`. -/
theorem witness_UnconstructedBlocksUnobservable :
    let t := { busy with x := busy.x.set 0 { n := 0, blk := List.replicate 8 255 } }
    SameObservable busy t ∧ t.x ≠ busy.x := by decide +kernel

/-- Operands that differ only in the bits LDB, BSET and ADDB ignore at `W = 8`. -/
theorem witness_UnusedOperandBitsIgnored :
    sameOperands busy.config ⟨0, 0x1FF, 0⟩ ⟨0, 0x0FF, 5⟩ (.ldb 1 0) ∧
    sameOperands busy.config ⟨0, 3, 0⟩ ⟨0, 1, 5⟩ (.bset 1 0) ∧
    sameOperands busy.config ⟨0, 0x100, 0x2FF⟩ ⟨0, 0, 0xFF⟩ (.addb true) ∧
    sameOperands busy.config ⟨0, 7, 0⟩ ⟨0, 7, 9⟩ (.ldi 1 8) := by
  simp only [sameOperands]; decide +kernel

/-- One block of 64 bits and eight blocks of 8 bits, one register constructed in both. -/
theorem witness_ResultsIndependentOfBlockWidth :
    let s := holding Config.t8 [(1, 20, 0xABCDE)]
    let t := holding (Config.mk .w64 1) [(1, 20, 0xABCDE)]
    blockWidthDependent (.shl 2 1 11) = false ∧ s.config.legal = true ∧ t.config.legal = true ∧
    s.config.nmax = t.config.nmax ∧ s.fsr = t.fsr ∧ s.fcmd = t.fcmd ∧ s.port = t.port ∧ ∀ r : Reg, SameVector s t r := by
  refine ⟨by decide, by decide, by decide, by decide, by decide, by decide, by decide, fun r => ?_⟩
  by_cases h : r = 1
  · subst h; exact .inr ⟨20, 0xABCDE, by decide +kernel⟩
  · exact .inl ((by decide +kernel : ∀ r : Reg, r ≠ 1 →
      (regAt (holding Config.t8 [(1, 20, 0xABCDE)]) r).n = 0 ∧
      (regAt (holding (Config.mk .w64 1) [(1, 20, 0xABCDE)]) r).n = 0) r h)

theorem witness_NopCompletes :
    opcodeField 0x04000001#32 = 0x01#6 ∧ isHalted busy = false ∧ isHalted broken = true := by decide +kernel

theorem witness_RdsrReadsSystemRegisters :
    busy.config.legal = true ∧ broken.config.legal = true ∧ 2 < (3#14).toNat ∧ isHalted busy = false ∧
    isHalted broken = true := by decide +kernel

/-- Widths 0, 1, `NMAX` and `NMAX + 1`. -/
theorem witness_ZeroAndLdiConstruct :
    Ready busy ∧ (0#14).toNat = 0 ∧ busy.config.nmax < (65#14).toNat ∧ 1 ≤ (1#14).toNat ∧
    (64#14).toNat ≤ busy.config.nmax := by decide +kernel

/-- The premises the unary statements share: a constructed and an unconstructed register. MOV, SIZE, COUNT, ANY, NONE,
TONUM, NOT. -/
theorem witness_MovCopiesTheVector : Ready busy ∧ (regAt busy 0).n = 0 ∧ Holds busy 1 8 200 := by decide +kernel

theorem witness_CvtTruncatesOrExtends :
    Ready busy ∧ (regAt busy 0).n = 0 ∧ Holds busy 8 12 4095 ∧ (0#14).toNat = 0 ∧ busy.config.nmax < (65#14).toNat ∧
    1 ≤ (11#14).toNat ∧ (64#14).toNat ≤ busy.config.nmax := by decide +kernel

/-- LDB and STB: the last block and the one after it. -/
theorem witness_LdbStoresOneBlock :
    Ready busy ∧ (regAt busy 0).n = 0 ∧ Holds busy 6 20 0xABCDE ∧ blockCount busy.config 20 ≤ (3#14).toNat ∧
    (2#14).toNat < blockCount busy.config 20 := by decide +kernel

theorem witness_StbReadsOneBlock :
    Ready busy ∧ (regAt busy 15).n = 0 ∧ Holds busy 8 12 4095 ∧ blockCount busy.config 12 ≤ (2#14).toNat ∧
    (1#14).toNat < blockCount busy.config 12 := by decide +kernel

theorem witness_BgetReadsOneBit :
    Ready busy ∧ (regAt busy 0).n = 0 ∧ Holds busy 1 8 200 ∧ 8 ≤ (8#14).toNat ∧ (7#14).toNat < 8 := by decide +kernel

theorem witness_BsetAndBflipChangeOneBit :
    Ready busy ∧ (regAt busy 0).n = 0 ∧ Holds busy 10 1 1 ∧ 1 ≤ (1#14).toNat ∧ (0#14).toNat < 1 := by decide +kernel

theorem witness_SizeCountAnyNoneAnswer :
    Ready busy ∧ (regAt busy 0).n = 0 ∧ Holds busy 3 8 0 ∧ Holds busy 8 12 4095 := by decide +kernel

/-- A register with every bit set and one without. -/
theorem witness_AllTestsEveryBit :
    Ready busy ∧ (regAt busy 0).n = 0 ∧ Holds busy 8 12 (2 ^ 12 - 1) ∧ Holds busy 1 8 200 := by decide +kernel

theorem witness_TonumAnswersLow64Bits :
    Ready busy ∧ (regAt busy 0).n = 0 ∧ Holds busy 7 60 1 ∧ Ready (holding Config.ref [(1, 100, 2 ^ 99 + 5)]) ∧
    Holds (holding Config.ref [(1, 100, 2 ^ 99 + 5)]) 1 100 (2 ^ 99 + 5) := by decide +kernel

theorem witness_AddbAndSubbAreExact :
    isHalted { busy with port := ⟨0, 0x1C8, 0x264⟩ } = false ∧ 200 = (0x1C8#64).toNat % 2 ^ busy.config.W ∧
    100 = (0x264#64).toNat % 2 ^ busy.config.W := by decide +kernel

theorem witness_BlockShiftsMoveWholeBlocks : Ready busy ∧ (regAt busy 0).n = 0 ∧ Holds busy 6 20 0xABCDE := by
  decide +kernel

theorem witness_SubBlockShiftsMoveBits :
    Ready busy ∧ (regAt busy 0).n = 0 ∧ Holds busy 6 20 0xABCDE ∧ busy.config.W ≤ (8#14).toNat ∧
    (7#14).toNat < busy.config.W := by decide +kernel

theorem witness_ShiftsMoveBits :
    Ready busy ∧ (regAt busy 0).n = 0 ∧ Holds busy 6 20 0xABCDE ∧ 20 ≤ (20#14).toNat ∧ ¬ 20 ≤ (19#14).toNat := by
  decide +kernel

/-- Sums of 255 and 256 at width 8, and different widths. -/
theorem witness_AddGivesSumOrOverflow :
    Ready busy ∧ (regAt busy 0).n = 0 ∧ Holds busy 1 8 200 ∧ Holds busy 2 16 1000 ∧ Holds busy 4 8 55 ∧
    Holds busy 5 8 56 ∧ 2 ^ max 8 8 ≤ 200 + 56 ∧ 200 + 55 < 2 ^ max 8 8 ∧ 200 + 1000 < 2 ^ max 8 16 := by decide +kernel

theorem witness_SubWraps :
    Ready busy ∧ (regAt busy 0).n = 0 ∧ Holds busy 1 8 200 ∧ Holds busy 2 16 1000 ∧ Holds busy 3 8 0 := by decide +kernel

theorem witness_TwocNegatesOrOverflows :
    Ready busy ∧ (regAt busy 0).n = 0 ∧ Holds busy 3 8 0 ∧ Holds busy 10 1 1 := by decide +kernel

/-- Widths 60 + 4 and 60 + 8 against `NMAX = 64`. -/
theorem witness_MulGivesProduct :
    Ready busy ∧ (regAt busy 0).n = 0 ∧ Holds busy 7 60 1 ∧ Holds busy 11 4 15 ∧ Holds busy 1 8 200 ∧
    60 + 4 ≤ busy.config.nmax ∧ busy.config.nmax < 60 + 8 := by decide +kernel

theorem witness_DivAndRemGiveQuotientAndRemainder :
    Ready busy ∧ (regAt busy 0).n = 0 ∧ Holds busy 2 16 1000 ∧ Holds busy 3 8 0 ∧ Holds busy 10 1 1 := by decide +kernel

theorem witness_DivrGivesBoth :
    Ready busy ∧ (regAt busy 0).n = 0 ∧ Holds busy 2 16 1000 ∧ Holds busy 3 8 0 ∧ Holds busy 1 8 200 ∧
    (14 : Reg) ≠ 13 := by decide +kernel

theorem witness_AndAndOrAreBitwise :
    Ready busy ∧ (regAt busy 0).n = 0 ∧ Holds busy 1 8 200 ∧ Holds busy 2 16 1000 := by decide +kernel

theorem witness_NotInvertsTheLogicalBits :
    Ready busy ∧ (regAt busy 0).n = 0 ∧ Holds busy 6 20 0xABCDE ∧ Holds busy 10 1 1 := by decide +kernel

/-- Equal values at different widths, less and greater. -/
theorem witness_CmpComparesValues :
    Ready busy ∧ (regAt busy 0).n = 0 ∧ Holds busy 1 8 200 ∧ Holds busy 9 16 200 ∧ Holds busy 2 16 1000 := by decide +kernel

/-- The largest number that fits, at widths 8 and 64. -/
theorem witness_LoadThenReadRoundTrip :
    Ready { busy with port := ⟨0, 255, 0⟩ } ∧ 1 ≤ (8#14).toNat ∧ (64#14).toNat ≤ busy.config.nmax ∧
    (255#64).toNat < 2 ^ min (8#14).toNat 64 ∧ (0xFFFFFFFFFFFFFFFF#64).toNat < 2 ^ min (64#14).toNat 64 := by
  decide +kernel

theorem witness_AdditionAndMultiplicationCommute : Inv busy ∧ Inv broken := by decide +kernel

theorem witness_AdditionAndMultiplicationAssociate :
    Ready busy ∧ Holds busy 2 16 1000 ∧ Holds busy 1 8 200 ∧ Holds busy 9 16 200 ∧ (13 : Reg) ≠ 2 ∧ (13 : Reg) ≠ 9 ∧
    1000 + 200 + 200 < 2 ^ min (max 16 8) (max 8 16) ∧ 16 + 8 + 16 ≤ busy.config.nmax := by decide +kernel

theorem witness_DivisionMultiplicationRelation :
    Ready busy ∧ Holds busy 2 16 1000 ∧ Holds busy 1 8 200 ∧ 200 ≠ 0 ∧ 16 + 8 ≤ busy.config.nmax ∧ (13 : Reg) ≠ 2 ∧
    (13 : Reg) ≠ 1 ∧ (14 : Reg) ≠ 2 ∧ (14 : Reg) ≠ 1 ∧ (14 : Reg) ≠ 13 ∧ (15 : Reg) ≠ 2 ∧ (15 : Reg) ≠ 14 := by
  decide +kernel

theorem witness_ShiftPairsClearOneEnd :
    Ready busy ∧ Holds busy 6 20 0xABCDE ∧ (19#14).toNat < 20 ∧ (0#14).toNat < 20 := by decide +kernel

theorem witness_CrossWidthEquivalence :
    Ready busy ∧ Holds busy 1 8 200 ∧ Holds busy 2 16 1000 ∧ Holds busy 9 (max 8 16) 200 ∧ Holds busy 12 (max 8 16) 1000 ∧
    max 8 16 + max 8 16 ≤ busy.config.nmax := by decide +kernel

end Sys2Proof.Tests
end

section
/-! PROOFS. The statements of 00_scope.md: a step runs the decoded instruction (R19), and the results that do not depend
on the block width (R6).

For R6 two blocks that differ in `W` are run side by side. `SameContent` relates their states, `SameValue` the vectors
they compute with, `SameResult` the results of the operations between the read of a source and the write of a
destination; each shared operation keeps the relations, and so does every meaning composed of them. -/

namespace Sys2Proof.Machine

/-! The step. -/

theorem step_command {s : State} (hc : s.config.legal = true) {t : Transaction} {rest : List HostEvent}
    (hp : s.pending = .command t :: rest) : step s = runPort (presentTransaction (dropEvent s) t) := by
  rw [step, if_pos hc, hp]

theorem runPort_decoded {s : State} {i : Instr} (h : decode s.port.cmd = .ok i) : runPort s = exec i s := by
  simp only [runPort, h]

theorem presentTransaction_dropEvent {s : State} {t : Transaction} {e : HostEvent} {rest : List HostEvent}
    (hp : s.pending = e :: rest) : presentTransaction (dropEvent s) t = { s with pending := rest, port := t } := by
  simp [presentTransaction, dropEvent, hp]

/-- Settles O6: the pending command is put on the port, and `runPort` runs what it decodes to. -/
theorem stepRunsDecodedInstruction : Obligations.StepRunsDecodedInstruction := by
  intro s t rest i hc hp hd
  have hport : decode (presentTransaction (dropEvent s) t).port.cmd = .ok i := by
    rw [presentTransaction_port, hd]
  rw [step_command hc hp, runPort_decoded hport, presentTransaction_dropEvent hp]

/-! The relations between two blocks. -/

/-- Vectors of two configurations with the same width and the same value: `mk(n, x)` in each. -/
inductive SameValue (c d : Config) : Vec → Vec → Prop
  | mk {n x : Nat} (pos : 1 ≤ n) (left : n ≤ c.nmax) (right : n ≤ d.nmax) (lt : x < 2 ^ n) :
      SameValue c d (mkVec c n x) (mkVec d n x)

/-- Two pairs of vectors, each of the same width and the same value. -/
abbrev SameValues (c d : Config) (v w : Vec × Vec) : Prop := SameValue c d v.1 w.1 ∧ SameValue c d v.2 w.2

/-- Two results agree: the same fault, or two values that are related. -/
inductive SameResult {α β : Type} (R : α → β → Prop) : Except Cause α → Except Cause β → Prop
  | ok {a : α} {b : β} (h : R a b) : SameResult R (.ok a) (.ok b)
  | error (f : Cause) : SameResult R (.error f) (.error f)

/-- Two blocks with the same `NMAX`, fault registers and port, whose registers hold the same vector values, whatever
their block widths. -/
structure SameContent (s t : State) : Prop where
  legalLeft : s.config.legal = true
  legalRight : t.config.legal = true
  nmax : s.config.nmax = t.config.nmax
  fsr : s.fsr = t.fsr
  fcmd : s.fcmd = t.fcmd
  port : s.port = t.port
  regs : ∀ r : Reg, SameVector s t r

/-- Two blocks with the same content that gave the same response. -/
structure SameAnswer (s t : State) : Prop extends SameContent s t where
  response : s.response = t.response

/-- Both outcomes are next states, of blocks with the same content and the same response. -/
def SameOutcome (o p : Host.Outcome State Fault Refusal) : Prop :=
  ∃ s t, o = .next s ∧ p = .next t ∧ SameAnswer s t

theorem SameResult.bind {α β γ δ : Type} {R : α → β → Prop} {S : γ → δ → Prop} {x : Except Cause α}
    {y : Except Cause β} {f : α → Except Cause γ} {g : β → Except Cause δ} (h : SameResult R x y)
    (hfg : ∀ {a b}, R a b → SameResult S (f a) (g b)) : SameResult S (x >>= f) (y >>= g) := by
  cases h with
  | ok h => exact hfg h
  | error e => exact .error e

/-- A condition on the fields of the command, which both blocks receive, holds in both or in neither. -/
theorem SameResult.requireLegal (b : Bool) : SameResult Eq (requireLegal b) (requireLegal b) := by
  cases b
  · exact .error _
  · exact .ok rfl

/-! The operations on vectors. -/

namespace SameValue

variable {c d : Config} {a b a' b' : Vec}

theorem n_eq (h : SameValue c d a a') : a.n = a'.n := by
  cases h; rfl

theorem val_eq (h : SameValue c d a a') : a.val c = a'.val d := by
  obtain ⟨-, hc, hd, hx⟩ := h
  rw [mkVec_val hc hx, mkVec_val hd hx]

theorem ucmp_eq (ha : SameValue c d a a') (hb : SameValue c d b b') : ucmp c a b = ucmp d a' b' := by
  rw [ucmp, ucmp, ha.val_eq, hb.val_eq]

theorem convert (h : SameValue c d a a') {n : Nat} (pos : 1 ≤ n) (left : n ≤ c.nmax) (right : n ≤ d.nmax) :
    SameValue c d (a.convert c n) (a'.convert d n) := by
  obtain ⟨-, hc, hd, hx⟩ := h
  rw [convert_eq hc hx, convert_eq hd hx]
  exact .mk pos left right (Nat.mod_lt _ (Nat.two_pow_pos n))

theorem shlVec (h : SameValue c d a a') (k : Nat) : SameValue c d (shlVec c a k) (shlVec d a' k) := by
  obtain ⟨pos, hc, hd, hx⟩ := h
  rw [shlVec_eq hc hx, shlVec_eq hd hx]
  exact .mk pos hc hd (Nat.mod_lt _ (Nat.two_pow_pos _))

theorem shrVec (h : SameValue c d a a') (k : Nat) : SameValue c d (shrVec c a k) (shrVec d a' k) := by
  obtain ⟨pos, hc, hd, hx⟩ := h
  rw [shrVec_eq hc hx, shrVec_eq hd hx]
  exact .mk pos hc hd (lt_of_le_of_lt (Nat.div_le_self _ _) hx)

theorem notVec (h : SameValue c d a a') : SameValue c d (notVec c a) (notVec d a') := by
  obtain ⟨pos, hc, hd, hx⟩ := h
  rw [notVec_eq hc hx, notVec_eq hd hx]
  exact .mk pos hc hd (by omega)

theorem twosComplement (h : SameValue c d a a') :
    SameResult (SameValue c d) (twosComplement c a) (twosComplement d a') := by
  obtain @⟨n, x, pos, hc, hd, hx⟩ := h
  rw [twosComplement_eq pos hc hx, twosComplement_eq pos hd hx]
  by_cases h0 : x = 0
  · simpa [h0] using .error .overflow
  · rw [if_pos h0, if_pos h0]
    exact .ok (.mk pos hc hd (by omega))

theorem andVec (ha : SameValue c d a a') (hb : SameValue c d b b') : SameValue c d (andVec c a b) (andVec d a' b') := by
  obtain ⟨pos, hc, hd, hx⟩ := ha
  obtain ⟨-, kc, kd, hy⟩ := hb
  rw [andVec_eq hc kc hx hy, andVec_eq hd kd hx hy]
  exact .mk (le_max_of_le_left pos) (max_le hc kc) (max_le hd kd)
    (lt_of_le_of_lt Nat.and_le_left (lt_of_width (le_max_left _ _) hx))

theorem orVec (ha : SameValue c d a a') (hb : SameValue c d b b') : SameValue c d (orVec c a b) (orVec d a' b') := by
  obtain ⟨pos, hc, hd, hx⟩ := ha
  obtain ⟨-, kc, kd, hy⟩ := hb
  rw [orVec_eq hc kc hx hy, orVec_eq hd kd hx hy]
  exact .mk (le_max_of_le_left pos) (max_le hc kc) (max_le hd kd)
    (Nat.or_lt_two_pow (lt_of_width (le_max_left _ _) hx) (lt_of_width (le_max_right _ _) hy))

theorem addVec (ha : SameValue c d a a') (hb : SameValue c d b b') :
    SameResult (SameValue c d) (addVec c a b) (addVec d a' b') := by
  obtain ⟨pos, hc, hd, hx⟩ := ha
  obtain ⟨-, kc, kd, hy⟩ := hb
  rw [addVec_eq hc kc hx hy, addVec_eq hd kd hx hy]
  split
  · exact .ok (.mk (le_max_of_le_left pos) (max_le hc kc) (max_le hd kd) ‹_›)
  · exact .error _

theorem subVec (ha : SameValue c d a a') (hb : SameValue c d b b') : SameValue c d (subVec c a b) (subVec d a' b') := by
  obtain ⟨pos, hc, hd, hx⟩ := ha
  obtain ⟨-, kc, kd, hy⟩ := hb
  rw [subVec_eq hc kc hx hy, subVec_eq hd kd hx hy]
  exact .mk (le_max_of_le_left pos) (max_le hc kc) (max_le hd kd) (Nat.mod_lt _ (Nat.two_pow_pos _))

theorem mulVec (ha : SameValue c d a a') (hb : SameValue c d b b') (left : a.n + b.n ≤ c.nmax)
    (right : a.n + b.n ≤ d.nmax) :
    SameResult (SameValue c d) (mulVec c a b) (mulVec d a' b') := by
  obtain ⟨pos, -, -, hx⟩ := ha
  obtain ⟨-, -, -, hy⟩ := hb
  simp only [mkVec_n] at left right
  rw [mulVec_eq left hx hy, mulVec_eq right hx hy]
  exact .ok (.mk (Nat.le_add_right_of_le pos) left right (by rw [Nat.pow_add]; exact Nat.mul_lt_mul'' hx hy))

theorem divRemVec (ha : SameValue c d a a') (hb : SameValue c d b b') :
    SameResult (SameValues c d) (divRemVec c a b) (divRemVec d a' b') := by
  obtain ⟨pos, hc, hd, hx⟩ := ha
  obtain ⟨-, kc, kd, hy⟩ := hb
  rw [divRemVec_eq hc kc hx hy, divRemVec_eq hd kd hx hy]
  split
  · exact .error _
  · exact .ok ⟨.mk pos hc hd (lt_of_le_of_lt (Nat.div_le_self _ _) hx),
      .mk pos hc hd (lt_of_le_of_lt (Nat.mod_le _ _) hx)⟩

end SameValue

/-! The operations over State. -/

namespace SameContent

variable {s t : State} (h : SameContent s t)

include h

theorem isHalted : isHalted s = isHalted t := congrArg fsrH h.fsr

theorem respond {f f' : Bool} {d d' : Nat} (hf : f = f') (hd : d = d') :
    SameResult SameAnswer (.ok (respond s f d)) (.ok (respond t f' d')) := by
  subst hf hd
  exact .ok { h with response := rfl }

theorem answerHalted : SameAnswer (answerHalted s) (answerHalted t) := { h with response := rfl }

theorem enterFault (f : Cause) : SameAnswer (enterFault s f) (enterFault t f) :=
  { h with
    fsr := congrArg (fsrFaulted · f.code) h.fsr
    fcmd := congrArg Transaction.cmd h.port
    response := rfl }

/-- A command whose effects agree in the two blocks has the same outcome in both (60_exceptions.md R271). -/
theorem runCommand {x y : Except Cause State} (hxy : SameResult SameAnswer x y) :
    SameOutcome (runCommand s x) (runCommand t y) := by
  rcases hs : Machine.isHalted s with _ | _
  · have ht := h.isHalted.symm.trans hs
    cases hxy with
    | ok hab => exact ⟨_, _, runCommand_ok hs rfl, runCommand_ok ht rfl, hab⟩
    | error f => exact ⟨_, _, runCommand_error hs rfl, runCommand_error ht rfl, h.enterFault f⟩
  · exact ⟨_, _, runCommand_halted hs _, runCommand_halted (h.isHalted.symm.trans hs) _, h.answerHalted⟩

theorem readVec (r : Reg) : SameResult (SameValue s.config t.config) (readVec s r) (readVec t r) := by
  rcases h.regs r with ⟨hs, ht⟩ | ⟨n, x, hs, ht⟩
  · rw [readVec_unconstructed hs, readVec_unconstructed ht]
    exact .error _
  · rw [hs.readVec h.legalLeft, ht.readVec h.legalRight]
    have ⟨pos, left, lt, _⟩ := hs
    have ⟨_, right, _, _⟩ := ht
    exact .ok (.mk pos left right lt)

theorem readVecs (p q : Reg) :
    SameResult (SameValues s.config t.config) (readVecs s p q) (readVecs t p q) :=
  (h.readVec p).bind fun ha => (h.readVec q).bind fun hb => .ok ⟨ha, hb⟩

theorem writeVec (r : Reg) {v w : Vec} (hv : SameValue s.config t.config v w) :
    SameContent (writeVec s r v) (writeVec t r w) := by
  obtain @⟨n, x, pos, hc, hd, hx⟩ := hv
  refine { h with regs := fun q => ?_ }
  by_cases hq : q = r
  · subst hq
    exact .inr ⟨n, x, holds_writeVec pos hc hx, holds_writeVec pos hd hx⟩
  · rcases h.regs q with ⟨hs, ht⟩ | ⟨m, y, hs, ht⟩
    · exact .inl ⟨by rw [regAt_writeVec_other _ _ hq]; exact hs, by rw [regAt_writeVec_other _ _ hq]; exact ht⟩
    · exact .inr ⟨m, y, hs.writeVec_other _ hq, ht.writeVec_other _ hq⟩

/-- Equal capacities refuse the same widths (40_construct_convert.md R106). -/
theorem checkWidth {n m : Nat} (e : n = m) :
    SameResult (fun _ _ => 1 ≤ n ∧ n ≤ s.config.nmax ∧ n ≤ t.config.nmax)
      (checkWidth s.config n) (checkWidth t.config m) := by
  subst e
  rcases checkWidth_cases s.config n with ⟨pos, hn, e⟩ | ⟨hn, e⟩
  · rw [e, checkWidth_ok pos (h.nmax ▸ hn)]
    exact .ok ⟨pos, hn, h.nmax ▸ hn⟩
  · rw [e, checkWidth_error (h.nmax ▸ hn)]
    exact .error _

theorem memReadBit (r : Reg) (p : Nat) : SameResult Eq (memReadBit s r p) (memReadBit t r p) := by
  rcases h.regs r with ⟨hs, ht⟩ | ⟨n, x, hs, ht⟩
  · rw [memReadBit_unconstructed hs, memReadBit_unconstructed ht]
    exact .error _
  · rw [hs.memReadBit h.legalLeft, ht.memReadBit h.legalRight]
    split
    · exact .error _
    · exact .ok rfl

theorem memWriteBit (r : Reg) (p : Nat) {d d' : Nat} (e : d = d') (hd : d < 2) :
    SameResult SameContent (memWriteBit s r p d) (memWriteBit t r p d') := by
  subst e
  rcases h.regs r with ⟨hs, ht⟩ | ⟨n, x, hs, ht⟩
  · rw [memWriteBit_unconstructed hs, memWriteBit_unconstructed ht]
    exact .error _
  · rw [hs.memWriteBit h.legalLeft p hd, ht.memWriteBit h.legalRight p hd]
    split
    · exact .error _
    · rename_i hp
      have ⟨pos, left, lt, _⟩ := hs
      have ⟨_, right, _, _⟩ := ht
      exact .ok (h.writeVec r (.mk pos left right (replaceBit_lt_width lt (Nat.lt_of_not_le hp) hd)))

theorem opaBit : opaBit s = opaBit t := by
  rw [Machine.opaBit, Machine.opaBit, h.port]

theorem opaNumber : opaNumber s = opaNumber t := by
  rw [Machine.opaNumber, Machine.opaNumber, h.port]

/-- The end of a command that writes one register. -/
theorem write_respond (rd : Reg) {v w : Vec} (hv : SameValue s.config t.config v w) :
    SameResult SameAnswer (.ok (Machine.respond (Machine.writeVec s rd v) false 0))
      (.ok (Machine.respond (Machine.writeVec t rd w) false 0)) :=
  (h.writeVec rd hv).respond rfl rfl

/-! The meanings. -/

theorem execNop : SameOutcome (execNop s) (execNop t) := h.runCommand (h.respond rfl rfl)

theorem execZero (rd : Reg) (imm : Imm) : SameOutcome (execZero rd imm s) (execZero rd imm t) :=
  h.runCommand <| (h.checkWidth rfl).bind fun ⟨pos, hc, hd⟩ =>
    h.write_respond rd (.mk pos hc hd (Nat.two_pow_pos _))

theorem execLdi (rd : Reg) (imm : Imm) : SameOutcome (execLdi rd imm s) (execLdi rd imm t) :=
  h.runCommand <| (h.checkWidth rfl).bind fun ⟨pos, hc, hd⟩ => h.write_respond rd <| by
    rw [h.opaNumber, decompose_eq]
    exact .mk pos hc hd (Nat.mod_lt _ (Nat.two_pow_pos _))

theorem execMov (rd rs1 : Reg) : SameOutcome (execMov rd rs1 s) (execMov rd rs1 t) :=
  h.runCommand <| (h.readVec rs1).bind fun ha => h.write_respond rd ha

theorem execCvt (rd rs1 : Reg) (imm : Imm) : SameOutcome (execCvt rd rs1 imm s) (execCvt rd rs1 imm t) :=
  h.runCommand <| (h.readVec rs1).bind fun ha => (h.checkWidth rfl).bind fun ⟨pos, hc, hd⟩ =>
    h.write_respond rd (ha.convert pos hc hd)

theorem execBget (rs1 : Reg) (imm : Imm) : SameOutcome (execBget rs1 imm s) (execBget rs1 imm t) :=
  h.runCommand <| (h.memReadBit rs1 _).bind fun hb => h.respond (congrArg flagOfBit hb) rfl

theorem execBset (rd : Reg) (imm : Imm) : SameOutcome (execBset rd imm s) (execBset rd imm t) :=
  h.runCommand <| (h.memWriteBit rd _ h.opaBit (opaBit_lt s)).bind fun h' => h'.respond rfl rfl

theorem execBflip (rd : Reg) (imm : Imm) : SameOutcome (execBflip rd imm s) (execBflip rd imm t) :=
  h.runCommand <| (h.memReadBit rd _).bind fun hb =>
    (h.memWriteBit rd _ (congrArg (1 - ·) hb) (by omega)).bind fun h' => h'.respond rfl rfl

theorem execSize (rs1 : Reg) : SameOutcome (execSize rs1 s) (execSize rs1 t) :=
  h.runCommand <| (h.readVec rs1).bind fun ha => h.respond rfl ha.n_eq

theorem execCount (rs1 : Reg) : SameOutcome (execCount rs1 s) (execCount rs1 t) :=
  h.runCommand <| (h.readVec rs1).bind fun ha => h.respond rfl (by rw [ha.n_eq, ha.val_eq])

theorem execAll (rs1 : Reg) : SameOutcome (execAll rs1 s) (execAll rs1 t) :=
  h.runCommand <| (h.readVec rs1).bind fun ha => h.respond (by rw [allFlag, allFlag, ha.n_eq, ha.val_eq]) rfl

theorem execAny (rs1 : Reg) : SameOutcome (execAny rs1 s) (execAny rs1 t) :=
  h.runCommand <| (h.readVec rs1).bind fun ha => h.respond (by rw [anyFlag, anyFlag, ha.val_eq]) rfl

theorem execNone (rs1 : Reg) : SameOutcome (execNone rs1 s) (execNone rs1 t) :=
  h.runCommand <| (h.readVec rs1).bind fun ha => h.respond (by rw [noneFlag, noneFlag, ha.val_eq]) rfl

theorem execTonum (rs1 : Reg) : SameOutcome (execTonum rs1 s) (execTonum rs1 t) :=
  h.runCommand <| (h.readVec rs1).bind fun ha => h.respond rfl (by rw [ha.val_eq])

theorem execShl (rd rs1 : Reg) (imm : Imm) : SameOutcome (execShl rd rs1 imm s) (execShl rd rs1 imm t) :=
  h.runCommand <| (h.readVec rs1).bind fun ha => h.write_respond rd (ha.shlVec _)

theorem execShr (rd rs1 : Reg) (imm : Imm) : SameOutcome (execShr rd rs1 imm s) (execShr rd rs1 imm t) :=
  h.runCommand <| (h.readVec rs1).bind fun ha => h.write_respond rd (ha.shrVec _)

theorem execAdd (rd rs1 rs2 : Reg) : SameOutcome (execAdd rd rs1 rs2 s) (execAdd rd rs1 rs2 t) :=
  h.runCommand <| (h.readVecs rs1 rs2).bind fun ⟨ha, hb⟩ => (ha.addVec hb).bind fun hr => h.write_respond rd hr

theorem execSub (rd rs1 rs2 : Reg) : SameOutcome (execSub rd rs1 rs2 s) (execSub rd rs1 rs2 t) :=
  h.runCommand <| (h.readVecs rs1 rs2).bind fun ⟨ha, hb⟩ => h.write_respond rd (ha.subVec hb)

theorem execTwoc (rd rs1 : Reg) : SameOutcome (execTwoc rd rs1 s) (execTwoc rd rs1 t) :=
  h.runCommand <| (h.readVec rs1).bind fun ha => ha.twosComplement.bind fun hr => h.write_respond rd hr

theorem execMul (rd rs1 rs2 : Reg) : SameOutcome (execMul rd rs1 rs2 s) (execMul rd rs1 rs2 t) :=
  h.runCommand <| (h.readVecs rs1 rs2).bind fun ⟨ha, hb⟩ =>
    (h.checkWidth (congrArg₂ (· + ·) ha.n_eq hb.n_eq)).bind fun ⟨_, hc, hd⟩ =>
      (ha.mulVec hb hc hd).bind fun hr => h.write_respond rd hr

theorem execDiv (rd rs1 rs2 : Reg) : SameOutcome (execDiv rd rs1 rs2 s) (execDiv rd rs1 rs2 t) :=
  h.runCommand <| (h.readVecs rs1 rs2).bind fun ⟨ha, hb⟩ =>
    (ha.divRemVec hb).bind fun ⟨hq, _⟩ => h.write_respond rd hq

theorem execRem (rd rs1 rs2 : Reg) : SameOutcome (execRem rd rs1 rs2 s) (execRem rd rs1 rs2 t) :=
  h.runCommand <| (h.readVecs rs1 rs2).bind fun ⟨ha, hb⟩ =>
    (ha.divRemVec hb).bind fun ⟨_, hr⟩ => h.write_respond rd hr

theorem execDivr (rd rd2 rs1 rs2 : Reg) : SameOutcome (execDivr rd rd2 rs1 rs2 s) (execDivr rd rd2 rs1 rs2 t) :=
  h.runCommand <| (SameResult.requireLegal _).bind fun _ => (h.readVecs rs1 rs2).bind fun ⟨ha, hb⟩ =>
    (ha.divRemVec hb).bind fun ⟨hq, hr⟩ => (h.writeVec rd hq).write_respond rd2 hr

theorem execAnd (rd rs1 rs2 : Reg) : SameOutcome (execAnd rd rs1 rs2 s) (execAnd rd rs1 rs2 t) :=
  h.runCommand <| (h.readVecs rs1 rs2).bind fun ⟨ha, hb⟩ => h.write_respond rd (ha.andVec hb)

theorem execOr (rd rs1 rs2 : Reg) : SameOutcome (execOr rd rs1 rs2 s) (execOr rd rs1 rs2 t) :=
  h.runCommand <| (h.readVecs rs1 rs2).bind fun ⟨ha, hb⟩ => h.write_respond rd (ha.orVec hb)

theorem execNot (rd rs1 : Reg) : SameOutcome (execNot rd rs1 s) (execNot rd rs1 t) :=
  h.runCommand <| (h.readVec rs1).bind fun ha => h.write_respond rd ha.notVec

theorem execCmp (rs1 rs2 : Reg) : SameOutcome (execCmp rs1 rs2 s) (execCmp rs1 rs2 t) :=
  h.runCommand <| (h.readVecs rs1 rs2).bind fun ⟨ha, hb⟩ =>
    h.respond (congrArg cmpFlag (ha.ucmp_eq hb)) (congrArg cmpNumber (ha.ucmp_eq hb))

/-- Every command but the nine of 00_scope.md R6 keeps two blocks in step. -/
theorem exec {i : Instr} (hi : blockWidthDependent i = false) : SameOutcome (exec i s) (exec i t) := by
  cases i with
  | nop => exact h.execNop
  | zero rd imm => exact h.execZero rd imm
  | ldi rd imm => exact h.execLdi rd imm
  | mov rd rs1 => exact h.execMov rd rs1
  | cvt rd rs1 imm => exact h.execCvt rd rs1 imm
  | bget rs1 imm => exact h.execBget rs1 imm
  | bset rd imm => exact h.execBset rd imm
  | bflip rd imm => exact h.execBflip rd imm
  | size rs1 => exact h.execSize rs1
  | count rs1 => exact h.execCount rs1
  | all rs1 => exact h.execAll rs1
  | any rs1 => exact h.execAny rs1
  | none rs1 => exact h.execNone rs1
  | tonum rs1 => exact h.execTonum rs1
  | shl rd rs1 imm => exact h.execShl rd rs1 imm
  | shr rd rs1 imm => exact h.execShr rd rs1 imm
  | add rd rs1 rs2 => exact h.execAdd rd rs1 rs2
  | sub rd rs1 rs2 => exact h.execSub rd rs1 rs2
  | twoc rd rs1 => exact h.execTwoc rd rs1
  | mul rd rs1 rs2 => exact h.execMul rd rs1 rs2
  | div rd rs1 rs2 => exact h.execDiv rd rs1 rs2
  | rem rd rs1 rs2 => exact h.execRem rd rs1 rs2
  | divr rd rd2 rs1 rs2 => exact h.execDivr rd rd2 rs1 rs2
  | and rd rs1 rs2 => exact h.execAnd rd rs1 rs2
  | or rd rs1 rs2 => exact h.execOr rd rs1 rs2
  | not rd rs1 => exact h.execNot rd rs1
  | cmp rs1 rs2 => exact h.execCmp rs1 rs2
  | rdsr _ | ldb _ _ | stb _ _ | addb _ | subb _ | bshl _ _ _ | bshr _ _ _ | sshl _ _ _ | sshr _ _ _ => cases hi

end SameContent

/-- Settles O29: two blocks with the same content have the same outcome for every command but nine. -/
theorem resultsIndependentOfBlockWidth : Obligations.ResultsIndependentOfBlockWidth := by
  intro i s t hi hs ht hn hfsr hfcmd hport hregs
  have h : SameContent s t := ⟨hs, ht, hn, hfsr, hfcmd, hport, hregs⟩
  obtain ⟨s', t', es, et, h'⟩ := h.exec hi
  exact ⟨s', t', es, et, h'.response, h'.fsr, h'.fcmd, h'.regs⟩

end Sys2Proof.Machine
end

section
/-! PROOFS. The statements of 10_state.md: reset (R39), what a command reads and writes (R26 to R28, R37), the
unobservable blocks of an unconstructed register (R27), and the invariant (R22, R25, R34, R35).

What a command does is an `Answer`: refused, faulted, or completed with a list of register writes. `SameReads.exec` gives
two states that agree on what the command reads the same answer; the frame and both noninterference statements are read
off from it. The invariant is kept because a block whose registers hold vector values has the content of itself
(`SameContent s s`), and every command keeps that. -/

namespace Sys2Proof.Machine

/-! Reset. -/

/-- `CFG` of a legal configuration: its four bytes (10_state.md R33). -/
theorem toNat_cfgWord {c : Config} (hc : c.legal = true) :
    (cfgWord c).toNat = 1 * 2 ^ 24 + 16 * 2 ^ 16 + c.cap * 2 ^ 8 + c.W := by
  have hcap : c.cap < 256 := by
    simp only [Config.legal, decide_eq_true_eq] at hc
    omega
  have hW : c.W < 256 := by have := c.W_le; omega
  have hlow : c.cap * 2 ^ 8 + c.W < 2 ^ 16 := by omega
  simp only [cfgWord, commandSetVersion, nreg, BitVec.toNat_append, BitVec.toNat_ofNat, Nat.mod_eq_of_lt hcap,
    Nat.mod_eq_of_lt hW]
  rw [← Nat.shiftLeft_add_eq_or_of_lt (show c.W < 2 ^ 8 from hW),
    ← Nat.shiftLeft_add_eq_or_of_lt (show c.cap < 2 ^ 8 from hcap),
    ← Nat.shiftLeft_add_eq_or_of_lt (show 16 % 2 ^ 8 < 2 ^ 8 by decide)]
  simp only [Nat.shiftLeft_eq]
  omega

/-- A register as reset leaves it is unconstructed (10_state.md R39). -/
@[simp] theorem unconstructed_n (c : Config) : (VReg.unconstructed c).n = 0 := rfl

/-- A state whose registers are all unconstructed and whose fault registers are clear satisfies the invariant. -/
theorem inv_of_cleared {s : State} (hc : s.config.legal = true) (hx : ∀ r : Reg, (regAt s r).n = 0) (hf : s.fsr = 0)
    (hm : s.fcmd = 0) : Inv s := by
  refine ⟨hc, fun r => .inl (hx r), ?_, ?_⟩
  · rw [hf]; rfl
  · rw [if_neg (by rw [isHalted, hf]; decide)]
    exact ⟨by rw [hf]; rfl, hm⟩

theorem resetIn_inv {c : Config} (hc : c.legal = true) : Inv (State.resetIn c) :=
  inv_of_cleared hc (fun r => by rw [resetIn_regAt, unconstructed_n]) rfl rfl

/-- Settles O10: `State.reset` is the reset state of `REF`, and the values hold in every legal configuration. -/
theorem resetValues : Obligations.ResetValues := by
  intro s hs
  obtain ⟨c, hc, rfl⟩ : ∃ c : Config, c.legal = true ∧ s = State.resetIn c :=
    hs.elim (fun e => ⟨Config.ref, by decide, e⟩) id
  have hcause : fsrCause 0 = 0 := by decide
  have hreserved : fsrReserved 0 = 0 := by decide
  exact ⟨fun r => by rw [resetIn_regAt, unconstructed_n], rfl, hcause, hreserved, rfl,
    congrArg some (toNat_cfgWord hc)⟩

/-- Settles O22. -/
theorem resetSatisfiesInvariant : Obligations.ResetSatisfiesInvariant :=
  ⟨resetIn_inv (by decide), fun _ hc => resetIn_inv hc⟩

/-! The vector a register holds. -/

/-- A register holds one vector at most: the one its width field and its blocks give (10_state.md R24). -/
theorem Holds.eq_width_and_value {s : State} (hc : s.config.legal = true) {r : Reg} {n x : Nat} (h : Holds s r n x) :
    n = widthOf s r ∧ x = valueAt s r := by
  have e := h.toVec hc
  constructor
  · rw [widthOf, ← toVec_n, e, mkVec_n]
  · rw [valueAt, e, h.val]

/-- A register that holds a vector value is well formed (10_state.md R22, R25). -/
theorem Holds.regWf {s : State} (hc : s.config.legal = true) {r : Reg} {n x : Nat} (h : Holds s r n x) :
    VReg.Wf s.config (regAt s r) :=
  .inr (by rw [h.toVec hc]; exact h.wf)

/-- Settles O24. -/
theorem constructedRegisterHoldsOneVector : Obligations.ConstructedRegisterHoldsOneVector := by
  intro s r ⟨hc, hregs, _⟩ hn
  exact ⟨holds_of_wf (hregs r) hn, fun n x h => h.eq_width_and_value hc⟩

/-! The writes of a command. -/

/-- Blocks written under a register's own width leave its width field as it is. -/
theorem toReg_n_of_width (r : VReg) (blk : List Nat) : (Vec.toReg { n := r.n.toNat, blk := blk }).n = r.n := by
  simp [Vec.toReg]

/-- The register writes of a command, applied in order. -/
def writeAll (s : State) (ws : List (Reg × Vec)) : State := ws.foldl (fun u w => writeVec u w.1 w.2) s

@[simp] theorem writeAll_nil (s : State) : writeAll s [] = s := rfl

@[simp] theorem writeAll_cons (s : State) (w : Reg × Vec) (ws : List (Reg × Vec)) :
    writeAll s (w :: ws) = writeAll (writeVec s w.1 w.2) ws := rfl

/-- Register writes change the registers and nothing else. -/
theorem writeAll_frame (s : State) (ws : List (Reg × Vec)) : ∃ x, writeAll s ws = { s with x := x } := by
  induction ws generalizing s with
  | nil => exact ⟨s.x, rfl⟩
  | cons w ws ih =>
    obtain ⟨x, e⟩ := ih (writeVec s w.1 w.2)
    exact ⟨x, e⟩

section

variable (s t : State) (ws : List (Reg × Vec))

@[simp] theorem writeAll_config : (writeAll s ws).config = s.config := by obtain ⟨x, e⟩ := writeAll_frame s ws; rw [e]
@[simp] theorem writeAll_fsr : (writeAll s ws).fsr = s.fsr := by obtain ⟨x, e⟩ := writeAll_frame s ws; rw [e]
@[simp] theorem writeAll_fcmd : (writeAll s ws).fcmd = s.fcmd := by obtain ⟨x, e⟩ := writeAll_frame s ws; rw [e]
@[simp] theorem writeAll_pending : (writeAll s ws).pending = s.pending := by
  obtain ⟨x, e⟩ := writeAll_frame s ws; rw [e]
@[simp] theorem writeAll_port : (writeAll s ws).port = s.port := by obtain ⟨x, e⟩ := writeAll_frame s ws; rw [e]

variable {s t ws} {r : Reg}

/-- A register no write names is unchanged. -/
theorem regAt_writeAll_other (h : r ∉ ws.map Prod.fst) : regAt (writeAll s ws) r = regAt s r := by
  induction ws generalizing s with
  | nil => rfl
  | cons w ws ih =>
    rw [List.map_cons, List.mem_cons, not_or] at h
    obtain ⟨hw, hws⟩ := h
    rw [writeAll_cons, ih hws, regAt_writeVec_other s w.2 hw]

/-- A register some write names holds the same afterwards, whatever the state before. -/
theorem regAt_writeAll_mem (h : r ∈ ws.map Prod.fst) : regAt (writeAll t ws) r = regAt (writeAll s ws) r := by
  induction ws generalizing s t with
  | nil => cases h
  | cons w ws ih =>
    rw [writeAll_cons, writeAll_cons]
    by_cases hws : r ∈ ws.map Prod.fst
    · exact ih hws
    · have hw : r = w.1 := (List.mem_cons.mp h).resolve_right hws
      rw [regAt_writeAll_other hws, regAt_writeAll_other hws, hw, regAt_writeVec_same, regAt_writeVec_same]

/-- A register keeps its width when every write to it does. -/
theorem width_writeAll (h : ∀ w ∈ ws, w.1 = r → w.2.toReg.n = (regAt s r).n) :
    (regAt (writeAll s ws) r).n = (regAt s r).n := by
  induction ws generalizing s with
  | nil => rfl
  | cons w ws ih =>
    have hw : (regAt (writeVec s w.1 w.2) r).n = (regAt s r).n := by
      rw [regAt_writeVec]
      split
      · exact h w List.mem_cons_self (Eq.symm ‹_›)
      · rfl
    rw [writeAll_cons, ih fun v hv e => (h v (List.mem_cons_of_mem _ hv) e).trans hw.symm, hw]

end

/-! What a command answers. -/

/-- What a command does to the state: refused in the FAULTED state, faulted, or completed with its register writes and
its response (60_exceptions.md R271). -/
inductive Answer where
  | halted
  | faulted (f : Cause)
  | completed (ws : List (Reg × Vec)) (flag : Bool) (rdata : Nat)

/-- The next state after an answer. -/
def Answer.apply : Answer → State → State
  | .halted, s => answerHalted s
  | .faulted f, s => enterFault s f
  | .completed ws flag rdata, s => respond (writeAll s ws) flag rdata

/-- The writes are those the instruction may make: to its destinations, and keeping the width of a register modified in
place (10_state.md R28). -/
def WritesOf (i : Instr) (s : State) (ws : List (Reg × Vec)) : Prop :=
  ws.map Prod.fst = destinations i ∧ ∀ w ∈ ws, w.1 ∈ inPlace i → w.2.toReg.n = (regAt s w.1).n

/-- The answer is one the instruction can give in this state: it is refused in the FAULTED state only, it
faults outside that state only, and a completed command makes the writes of the instruction. -/
def Answer.Possible (i : Instr) (s : State) : Answer → Prop
  | .halted => isHalted s = true
  | .faulted _ => isHalted s = false
  | .completed ws _ _ => WritesOf i s ws

/-- Two states that agree on everything the instruction may read, but for the blocks of an unconstructed register. -/
structure SameReads (i : Instr) (s t : State) : Prop where
  config : t.config = s.config
  fsr : t.fsr = s.fsr
  fcmd : t.fcmd = s.fcmd
  port : t.port = s.port
  regs : ∀ r ∈ sources i ++ inPlace i,
    (regAt t r).n = (regAt s r).n ∧ ((regAt s r).n ≠ 0 → regAt t r = regAt s r)

/-- Both states are answered alike. -/
def AnsweredAlike (i : Instr) (s t : State) (o p : Host.Outcome State Fault Refusal) : Prop :=
  ∃ a : Answer, o = .next (a.apply s) ∧ p = .next (a.apply t) ∧ a.Possible i s

/-- The two next states of a command that completed alike in `s` and `t`. -/
inductive CompletedAlike (i : Instr) (s t : State) : State → State → Prop
  | mk {ws : List (Reg × Vec)} {flag : Bool} {rdata : Nat} (h : WritesOf i s ws) :
      CompletedAlike i s t (respond (writeAll s ws) flag rdata) (respond (writeAll t ws) flag rdata)

/-- The two states after one register was modified in place alike in `s` and `t`. -/
inductive ModifiedAlike (r : Reg) (s t : State) : State → State → Prop
  | mk {v : Vec} (h : v.toReg.n = (regAt s r).n) : ModifiedAlike r s t (writeVec s r v) (writeVec t r v)

/-- A computation that reads no state gives both commands the same value or the same fault. -/
theorem SameResult.refl_bind {α γ δ : Type} {S : γ → δ → Prop} {x : Except Cause α} {f : α → Except Cause γ}
    {g : α → Except Cause δ} (h : ∀ a, SameResult S (f a) (g a)) : SameResult S (x >>= f) (x >>= g) := by
  cases x with
  | ok a => exact h a
  | error e => exact .error e

namespace SameReads

theorem refl (i : Instr) (s : State) : SameReads i s s := ⟨rfl, rfl, rfl, rfl, fun _ _ => ⟨rfl, fun _ => rfl⟩⟩

variable {i : Instr} {s t : State} (h : SameReads i s t)

include h

theorem isHalted : isHalted t = isHalted s := congrArg fsrH h.fsr

/-! The reads. -/

section

variable {r : Reg} (hr : r ∈ sources i ++ inPlace i)

include hr

theorem readVec : readVec t r = readVec s r := by
  obtain ⟨hn, hv⟩ := h.regs r hr
  by_cases h0 : (regAt s r).n = 0
  · rw [readVec_unconstructed h0, readVec_unconstructed (hn.trans h0)]
  · rw [readVec_constructed h0, readVec_constructed (hn ▸ h0), hv h0]

theorem memReadBlock (k : Nat) : memReadBlock t r k = memReadBlock s r k := by
  rw [Machine.memReadBlock, Machine.memReadBlock, h.readVec hr, h.config]

theorem memReadBit (p : Nat) : memReadBit t r p = memReadBit s r p := by
  rw [Machine.memReadBit, Machine.memReadBit, h.readVec hr, h.config]

/-- A checked write in place, of blocks computed from the register alone. -/
theorem modify (outside : Vec → Prop) [DecidablePred outside] (blk : Vec → List Nat) :
    SameResult (ModifiedAlike r s t)
      (Machine.readVec s r >>= fun v =>
        if outside v then .error .outOfRange else .ok (writeVec s r { n := v.n, blk := blk v }))
      (Machine.readVec t r >>= fun v =>
        if outside v then .error .outOfRange else .ok (writeVec t r { n := v.n, blk := blk v })) := by
  rw [h.readVec hr]
  rcases readVec_cases s r with ⟨-, e⟩ | ⟨-, e⟩
  · rw [e]
    exact .error _
  · rw [e, except_ok_bind, except_ok_bind]
    split
    · exact .error _
    · exact .ok (.mk (toReg_n_of_width _ _))

theorem memWriteBlock (k d : Nat) :
    SameResult (ModifiedAlike r s t) (memWriteBlock s r k d) (memWriteBlock t r k d) := by
  rw [Machine.memWriteBlock, Machine.memWriteBlock, h.config]
  exact h.modify hr _ _

theorem memWriteBit (p d : Nat) :
    SameResult (ModifiedAlike r s t) (memWriteBit s r p d) (memWriteBit t r p d) := by
  rw [Machine.memWriteBit, Machine.memWriteBit, h.config]
  exact h.modify hr _ _

end

theorem systemRegister (k : Nat) : systemRegister t k = systemRegister s k := by
  unfold Machine.systemRegister
  rw [h.config, h.fsr, h.fcmd]

theorem bind_readVec {γ δ : Type} {S : γ → δ → Prop} {r : Reg} {f : Vec → Except Cause γ} {g : Vec → Except Cause δ}
    (hfg : ∀ a, SameResult S (f a) (g a)) (hr : r ∈ sources i ++ inPlace i := by simp [sources]) :
    SameResult S (Machine.readVec s r >>= f) (Machine.readVec t r >>= g) := by
  rw [h.readVec hr]
  exact .refl_bind hfg

theorem bind_readVecs {γ δ : Type} {S : γ → δ → Prop} {p q : Reg} {f : Vec × Vec → Except Cause γ}
    {g : Vec × Vec → Except Cause δ} (hfg : ∀ a b, SameResult S (f (a, b)) (g (a, b)))
    (hp : p ∈ sources i ++ inPlace i := by simp [sources]) (hq : q ∈ sources i ++ inPlace i := by simp [sources]) :
    SameResult S (readVecs s p q >>= f) (readVecs t p q >>= g) := by
  rw [readVecs, readVecs, h.readVec hp, h.readVec hq]
  exact .refl_bind fun v => hfg v.1 v.2

/-! The answers. -/

theorem runCommand {x y : Except Cause State} (hxy : SameResult (CompletedAlike i s t) x y) :
    AnsweredAlike i s t (runCommand s x) (runCommand t y) := by
  rcases hs : Machine.isHalted s with _ | _
  · have ht := h.isHalted.trans hs
    cases hxy with
    | ok hab =>
      obtain ⟨hw⟩ := hab
      exact ⟨.completed _ _ _, runCommand_ok hs rfl, runCommand_ok ht rfl, hw⟩
    | error f => exact ⟨.faulted f, runCommand_error hs rfl, runCommand_error ht rfl, hs⟩
  · exact ⟨.halted, runCommand_halted hs _, runCommand_halted (h.isHalted.trans hs) _, hs⟩

omit h in
/-- The end of a command that writes no register. -/
theorem respond (flag : Bool) (d : Nat) (hd : destinations i = [] := by rfl) :
    SameResult (CompletedAlike i s t) (.ok (Machine.respond s flag d)) (.ok (Machine.respond t flag d)) :=
  .ok (.mk (ws := []) ⟨hd.symm, by simp⟩)

omit h in
/-- The end of a command that writes one register with a new value. -/
theorem write (rd : Reg) (v : Vec) (hd : destinations i = [rd] := by rfl) (hi : inPlace i = [] := by rfl) :
    SameResult (CompletedAlike i s t) (.ok (Machine.respond (writeVec s rd v) false 0))
      (.ok (Machine.respond (writeVec t rd v) false 0)) :=
  .ok (.mk (ws := [(rd, v)]) ⟨hd.symm, by simp [hi]⟩)

omit h in
/-- The end of a command that modified one register in place. -/
theorem modified {rd : Reg} {u v : State} (huv : ModifiedAlike rd s t u v) (hd : destinations i = [rd] := by rfl) :
    SameResult (CompletedAlike i s t) (.ok (Machine.respond u false 0)) (.ok (Machine.respond v false 0)) := by
  obtain @⟨v, hn⟩ := huv
  exact .ok (.mk (ws := [(rd, v)]) ⟨hd.symm, by simpa using fun _ => hn⟩)

/-! The meanings. -/

theorem execRdsr (imm : Imm) (hd : destinations i = [] := by rfl) :
    AnsweredAlike i s t (execRdsr imm s) (execRdsr imm t) := by
  unfold Machine.execRdsr
  rw [h.systemRegister]
  split
  · exact ⟨.completed [] _ _, rfl, rfl, hd.symm, by simp⟩
  · exact h.runCommand (.error _)

/-- Every command answers two states alike that agree on what it may read. -/
theorem exec : AnsweredAlike i s t (exec i s) (exec i t) := by
  -- With one configuration and one port, what both commands compute from them is the same term.
  have hconfig := h.config
  have hport := h.port
  cases s
  cases t
  cases hconfig
  cases hport
  cases i with
  | nop => exact h.runCommand (respond _ _)
  | rdsr imm => exact h.execRdsr imm
  | zero rd imm => exact h.runCommand <| .refl_bind fun _ => write rd _
  | ldi rd imm => exact h.runCommand <| .refl_bind fun _ => write rd _
  | mov rd rs1 => exact h.runCommand <| h.bind_readVec fun _ => write rd _
  | cvt rd rs1 imm => exact h.runCommand <| h.bind_readVec fun _ => .refl_bind fun _ => write rd _
  | ldb rd imm => exact h.runCommand <| (h.memWriteBlock (by simp [inPlace]) _ _).bind modified
  | stb rs1 imm =>
    refine h.runCommand ?_
    rw [h.memReadBlock (by simp [sources])]
    exact .refl_bind fun _ => respond _ _
  | bget rs1 imm =>
    refine h.runCommand ?_
    rw [h.memReadBit (by simp [sources])]
    exact .refl_bind fun _ => respond _ _
  | bset rd imm => exact h.runCommand <| (h.memWriteBit (by simp [inPlace]) _ _).bind modified
  | bflip rd imm =>
    refine h.runCommand ?_
    rw [h.memReadBit (by simp [inPlace])]
    exact .refl_bind fun _ => (h.memWriteBit (by simp [inPlace]) _ _).bind modified
  | size rs1 => exact h.runCommand <| h.bind_readVec fun _ => respond _ _
  | count rs1 => exact h.runCommand <| h.bind_readVec fun _ => respond _ _
  | all rs1 => exact h.runCommand <| h.bind_readVec fun _ => respond _ _
  | any rs1 => exact h.runCommand <| h.bind_readVec fun _ => respond _ _
  | none rs1 => exact h.runCommand <| h.bind_readVec fun _ => respond _ _
  | tonum rs1 => exact h.runCommand <| h.bind_readVec fun _ => respond _ _
  | addb cin => exact h.runCommand (respond _ _)
  | subb cin => exact h.runCommand (respond _ _)
  | bshl rd rs1 imm => exact h.runCommand <| h.bind_readVec fun _ => write rd _
  | bshr rd rs1 imm => exact h.runCommand <| h.bind_readVec fun _ => write rd _
  | sshl rd rs1 imm => exact h.runCommand <| .refl_bind fun _ => h.bind_readVec fun _ => write rd _
  | sshr rd rs1 imm => exact h.runCommand <| .refl_bind fun _ => h.bind_readVec fun _ => write rd _
  | shl rd rs1 imm => exact h.runCommand <| h.bind_readVec fun _ => write rd _
  | shr rd rs1 imm => exact h.runCommand <| h.bind_readVec fun _ => write rd _
  | add rd rs1 rs2 => exact h.runCommand <| h.bind_readVecs fun _ _ => .refl_bind fun _ => write rd _
  | sub rd rs1 rs2 => exact h.runCommand <| h.bind_readVecs fun _ _ => write rd _
  | twoc rd rs1 => exact h.runCommand <| h.bind_readVec fun _ => .refl_bind fun _ => write rd _
  | mul rd rs1 rs2 =>
    exact h.runCommand <| h.bind_readVecs fun _ _ => .refl_bind fun _ => .refl_bind fun _ => write rd _
  | div rd rs1 rs2 => exact h.runCommand <| h.bind_readVecs fun _ _ => .refl_bind fun _ => write rd _
  | rem rd rs1 rs2 => exact h.runCommand <| h.bind_readVecs fun _ _ => .refl_bind fun _ => write rd _
  | divr rd rd2 rs1 rs2 =>
    exact h.runCommand <| .refl_bind fun _ => h.bind_readVecs fun _ _ => .refl_bind fun v =>
      .ok (.mk (ws := [(rd, v.1), (rd2, v.2)]) ⟨rfl, by simp [inPlace]⟩)
  | and rd rs1 rs2 => exact h.runCommand <| h.bind_readVecs fun _ _ => write rd _
  | or rd rs1 rs2 => exact h.runCommand <| h.bind_readVecs fun _ _ => write rd _
  | not rd rs1 => exact h.runCommand <| h.bind_readVec fun _ => write rd _
  | cmp rs1 rs2 => exact h.runCommand <| h.bind_readVecs fun _ _ => respond _ _

end SameReads

/-- What one command does from one state: `SameReads.exec` of a state beside itself. -/
theorem exec_answer (i : Instr) (s : State) : ∃ a : Answer, exec i s = .next (a.apply s) ∧ a.Possible i s := by
  obtain ⟨a, e, -, ha⟩ := (SameReads.refl i s).exec
  exact ⟨a, e, ha⟩

/-! The frame. -/

theorem Answer.apply_frame (a : Answer) (s : State) :
    (a.apply s).config = s.config ∧ (a.apply s).pending = s.pending ∧ (a.apply s).port = s.port := by
  cases a <;> simp [Answer.apply]

/-- Settles O25: the answer names its writes, and nothing else changes but by fault entry. -/
theorem commandChangesOnlyItsDestinations : Obligations.CommandChangesOnlyItsDestinations := by
  intro i s t e
  obtain ⟨a, ea, ha⟩ := exec_answer i s
  obtain rfl : a.apply s = t := Host.Outcome.next.inj (ea.symm.trans e)
  refine ⟨?_, ?_, ?_, a.apply_frame s⟩
  · intro r hr
    cases a with
    | halted | faulted f => rfl
    | completed ws flag d =>
      obtain ⟨hdest, -⟩ := ha
      exact regAt_writeAll_other (hdest ▸ hr)
  · intro r hr
    cases a with
    | halted | faulted f => rfl
    | completed ws flag d =>
      obtain ⟨-, hkept⟩ := ha
      exact width_writeAll fun w hw hwr => hwr ▸ hkept w hw (hwr ▸ hr)
  · cases a with
    | halted => exact .inl ⟨rfl, rfl⟩
    | faulted f => exact .inr ⟨f, ha, rfl⟩
    | completed ws flag d => exact .inl ⟨writeAll_fsr s ws, writeAll_fcmd s ws⟩

/-! What a command may depend on. -/

/-- Settles O26: states that agree on what the command reads get the same answer, and its writes decide what the
destinations hold. -/
theorem commandReadsOnlyItsSources : Obligations.CommandReadsOnlyItsSources := by
  intro i s t hconfig hfsr hfcmd hport hregs
  have h : SameReads i s t := ⟨hconfig, hfsr, hfcmd, hport, fun r hr => ⟨by rw [hregs r hr], fun _ => hregs r hr⟩⟩
  obtain ⟨a, es, et, ha⟩ := h.exec
  refine ⟨_, _, es, et, ?_⟩
  cases a with
  | halted => exact ⟨rfl, hfsr, hfcmd, nofun⟩
  | faulted f => exact ⟨rfl, congrArg (fsrFaulted · f.code) hfsr, congrArg Transaction.cmd hport, nofun⟩
  | completed ws flag d =>
    obtain ⟨hdest, -⟩ := ha
    refine ⟨rfl, ?_, ?_, fun _ r hr => regAt_writeAll_mem (hdest ▸ hr)⟩
    · simpa [Answer.apply] using hfsr
    · simpa [Answer.apply] using hfcmd

namespace SameObservable

variable {s t : State}

theorem sameReads (h : SameObservable s t) (i : Instr) : SameReads i s t := by
  obtain ⟨hconfig, hfsr, hfcmd, -, hport, -, hregs⟩ := h
  exact ⟨hconfig, hfsr, hfcmd, hport, fun r _ => hregs r⟩

theorem writeVec (h : SameObservable s t) (r : Reg) (v : Vec) :
    SameObservable (writeVec s r v) (writeVec t r v) := by
  obtain ⟨hconfig, hfsr, hfcmd, hpending, hport, hresponse, hregs⟩ := h
  refine ⟨hconfig, hfsr, hfcmd, hpending, hport, hresponse, fun q => ?_⟩
  rw [regAt_writeVec, regAt_writeVec]
  split
  · exact ⟨rfl, fun _ => rfl⟩
  · exact hregs q

theorem writeAll (h : SameObservable s t) (ws : List (Reg × Vec)) :
    SameObservable (writeAll s ws) (writeAll t ws) := by
  induction ws generalizing s t with
  | nil => exact h
  | cons w ws ih => exact ih (h.writeVec w.1 w.2)

/-- The same answer keeps two states alike. -/
theorem apply (h : SameObservable s t) (a : Answer) : SameObservable (a.apply s) (a.apply t) := by
  cases a with
  | halted =>
    obtain ⟨hconfig, hfsr, hfcmd, hpending, hport, -, hregs⟩ := h
    exact ⟨hconfig, hfsr, hfcmd, hpending, hport, rfl, hregs⟩
  | faulted f =>
    obtain ⟨hconfig, hfsr, -, hpending, hport, -, hregs⟩ := h
    exact ⟨hconfig, congrArg (fsrFaulted · f.code) hfsr, congrArg Transaction.cmd hport, hpending, hport, rfl, hregs⟩
  | completed ws flag d =>
    obtain ⟨hconfig, hfsr, hfcmd, hpending, hport, -, hregs⟩ := h.writeAll ws
    exact ⟨hconfig, hfsr, hfcmd, hpending, hport, rfl, hregs⟩

end SameObservable

/-- Settles O27: the blocks of an unconstructed register are no part of what a command reads. -/
theorem unconstructedBlocksUnobservable : Obligations.UnconstructedBlocksUnobservable := by
  intro i s t h
  obtain ⟨a, es, et, -⟩ := (h.sameReads i).exec
  exact ⟨_, _, es, et, h.apply a⟩

/-! The invariant. -/

/-- A result agrees with itself. -/
theorem SameResult.refl {α : Type} (x : Except Cause α) : SameResult Eq x x := by
  cases x with
  | ok a => exact .ok rfl
  | error f => exact .error f

/-! The shifts within one configuration: the commands whose distance counts blocks of `W` bits. -/

namespace SameValue

variable {c : Config} {a b : Vec}

theorem wholeLeft (h : SameValue c c a b) (k : Nat) :
    SameValue c c (Vec.ofUsed c a.n (blockShiftLeft (a.used c) k)) (Vec.ofUsed c b.n (blockShiftLeft (b.used c) k)) := by
  obtain ⟨pos, hn, -, hx⟩ := h
  rw [mkVec_n, wholeLeft_eq hn hx]
  exact .mk pos hn hn (Nat.mod_lt _ (Nat.two_pow_pos _))

theorem wholeRight (h : SameValue c c a b) (k : Nat) :
    SameValue c c ⟨a.n, padBlocks c (blockShiftRight (a.used c) k)⟩
      ⟨b.n, padBlocks c (blockShiftRight (b.used c) k)⟩ := by
  obtain ⟨pos, hn, -, hx⟩ := h
  rw [mkVec_n, wholeRight_eq hn hx]
  exact .mk pos hn hn (lt_of_le_of_lt (Nat.div_le_self _ _) hx)

theorem subLeft (h : SameValue c c a b) {r : Nat} (hr : r < c.W) :
    SameValue c c (Vec.ofUsed c a.n (subShiftLeft c.W (a.used c) r))
      (Vec.ofUsed c b.n (subShiftLeft c.W (b.used c) r)) := by
  obtain ⟨pos, hn, -, hx⟩ := h
  rw [mkVec_n, subLeft_eq hn hx hr]
  exact .mk pos hn hn (Nat.mod_lt _ (Nat.two_pow_pos _))

theorem subRight (h : SameValue c c a b) {r : Nat} (hr : r < c.W) :
    SameValue c c ⟨a.n, padBlocks c (subShiftRight c.W (a.used c) r)⟩
      ⟨b.n, padBlocks c (subShiftRight c.W (b.used c) r)⟩ := by
  obtain ⟨pos, hn, -, hx⟩ := h
  rw [mkVec_n, subRight_eq hn hx hr]
  exact .mk pos hn hn (lt_of_le_of_lt (Nat.div_le_self _ _) hx)

end SameValue

/-- A legal block whose registers are well formed has the content of itself. -/
theorem SameContent.of_regs_wf {s : State} (hc : s.config.legal = true)
    (hregs : ∀ r : Reg, VReg.Wf s.config (regAt s r)) : SameContent s s where
  legalLeft := hc
  legalRight := hc
  nmax := rfl
  fsr := rfl
  fcmd := rfl
  port := rfl
  regs r := by
    by_cases hn : (regAt s r).n = 0
    · exact .inl ⟨hn, hn⟩
    · exact .inr ⟨_, _, holds_of_wf (hregs r) hn, holds_of_wf (hregs r) hn⟩

namespace SameContent

/-- A block that has the content of some block has well-formed registers. -/
theorem regs_wf {s t : State} (h : SameContent s t) (r : Reg) : VReg.Wf s.config (regAt s r) := by
  rcases h.regs r with ⟨hn, -⟩ | ⟨n, x, hs, -⟩
  · exact .inl hn
  · exact hs.regWf h.legalLeft

variable {s : State} (h : SameContent s s)

include h

theorem memWriteBlock (r : Reg) (k : Nat) {d : Nat} (hd : d < 2 ^ s.config.W) :
    SameResult SameContent (memWriteBlock s r k d) (memWriteBlock s r k d) := by
  rcases h.regs r with ⟨hn, -⟩ | ⟨n, x, hs, -⟩
  · rw [memWriteBlock_unconstructed hn]
    exact .error _
  · rw [hs.memWriteBlock h.legalLeft k hd]
    split
    · exact .error _
    · have ⟨pos, hn, _, _⟩ := hs
      exact .ok (h.writeVec r (.mk pos hn hn (Nat.mod_lt _ (Nat.two_pow_pos _))))

theorem execRdsr (imm : Imm) : SameOutcome (execRdsr imm s) (execRdsr imm s) := by
  unfold Machine.execRdsr
  split
  · exact ⟨_, _, rfl, rfl, { h with response := rfl }⟩
  · exact h.runCommand (.error _)

omit h in
/-- A condition of the command that holds is at hand in the rest of its meaning. -/
theorem bind_requireLegal {b : Bool} {f : Unit → Except Cause State}
    (hf : b = true → SameResult SameAnswer (f ()) (f ())) :
    SameResult SameAnswer (requireLegal b >>= f) (requireLegal b >>= f) := by
  cases b
  · exact .error _
  · exact hf rfl

/-- The nine commands of 00_scope.md R6 too keep the content of a block well formed. -/
theorem exec_self (i : Instr) : SameOutcome (Machine.exec i s) (Machine.exec i s) := by
  by_cases hi : blockWidthDependent i = false
  · exact h.exec hi
  cases i with
  | rdsr imm => exact h.execRdsr imm
  | ldb rd imm =>
    exact h.runCommand <| (h.memWriteBlock rd _ (opaBlock_lt s)).bind fun h' => h'.respond rfl rfl
  | stb rs1 imm => exact h.runCommand <| (SameResult.refl _).bind fun e => h.respond rfl e
  | addb cin => exact h.runCommand (h.respond rfl rfl)
  | subb cin => exact h.runCommand (h.respond rfl rfl)
  | bshl rd rs1 imm => exact h.runCommand <| (h.readVec rs1).bind fun ha => h.write_respond rd (ha.wholeLeft _)
  | bshr rd rs1 imm => exact h.runCommand <| (h.readVec rs1).bind fun ha => h.write_respond rd (ha.wholeRight _)
  | sshl rd rs1 imm =>
    exact h.runCommand <| bind_requireLegal fun hr => (h.readVec rs1).bind fun ha =>
      h.write_respond rd (ha.subLeft (of_decide_eq_true hr))
  | sshr rd rs1 imm =>
    exact h.runCommand <| bind_requireLegal fun hr => (h.readVec rs1).bind fun ha =>
      h.write_respond rd (ha.subRight (of_decide_eq_true hr))
  | _ => exact absurd rfl hi

end SameContent

/-- The code of a fault is 1 to 6 (60_exceptions.md R270). -/
theorem code_range (f : Cause) : 1 ≤ f.code.toNat ∧ f.code.toNat ≤ 6 := by
  cases f <;> decide

/-- Fault entry leaves the fault registers well formed. -/
theorem enterFault_faultRegsWf {s : State} (h : FaultRegsWf s) (f : Cause) : FaultRegsWf (enterFault s f) := by
  rw [FaultRegsWf, enterFault_isHalted, if_pos rfl, enterFault_fsr, fsrReserved_faulted, fsrCause_faulted]
  obtain ⟨hreserved, -⟩ := h
  exact ⟨hreserved, code_range f⟩

theorem FaultRegsWf.of_same {s t : State} (h : FaultRegsWf s) (hfsr : t.fsr = s.fsr) (hfcmd : t.fcmd = s.fcmd) :
    FaultRegsWf t := by
  rw [FaultRegsWf, Machine.isHalted, hfsr, hfcmd]
  exact h

theorem enterFault_inv {s : State} (h : Inv s) (f : Cause) : Inv (enterFault s f) := by
  obtain ⟨hc, hregs, hfault⟩ := h
  exact ⟨hc, hregs, enterFault_faultRegsWf hfault f⟩

/-- Every command keeps the invariant. -/
theorem exec_inv {i : Instr} {s t : State} (h : Inv s) (e : exec i s = .next t) : Inv t := by
  obtain ⟨hc, hregs, hfault⟩ := h
  obtain ⟨u, _, eu, -, hu⟩ := (SameContent.of_regs_wf hc hregs).exec_self i
  obtain rfl : u = t := Host.Outcome.next.inj (eu.symm.trans e)
  refine ⟨hu.legalLeft, hu.toSameContent.regs_wf, ?_⟩
  obtain ⟨-, -, ⟨hfsr, hfcmd⟩ | ⟨f, -, rfl⟩, -⟩ := commandChangesOnlyItsDestinations i s u e
  · exact hfault.of_same hfsr hfcmd
  · exact enterFault_faultRegsWf hfault f

theorem rejectCommand_inv {s t : State} (h : Inv s) (e : rejectCommand s = .next t) : Inv t := by
  rcases runCommand_cases e with ⟨-, rfl⟩ | ⟨-, e⟩ | ⟨-, f, -, rfl⟩
  · exact h
  · cases e
  · exact enterFault_inv h f

/-- Every transaction on the port keeps the invariant. -/
theorem runPort_inv {s t : State} (h : Inv s) (e : runPort s = .next t) : Inv t := by
  unfold runPort at e
  split at e
  · exact exec_inv h e
  · exact rejectCommand_inv h e

theorem applyReset_inv {s : State} (hc : s.config.legal = true) : Inv (applyReset s) :=
  inv_of_cleared hc (fun r => by rw [applyReset_regAt, unconstructed_n]) rfl rfl

/-- Settles O23: an idle step changes nothing, reset clears the state, and a command keeps the invariant. -/
theorem stepKeepsInvariant : Obligations.StepKeepsInvariant := by
  intro s t h e
  obtain ⟨hc, hregs, hfault⟩ := h
  rw [step, if_pos hc] at e
  split at e
  · cases e
    exact ⟨hc, hregs, hfault⟩
  · cases e
    exact applyReset_inv hc
  · exact runPort_inv (s := presentTransaction (dropEvent s) _) ⟨hc, hregs, hfault⟩ e

end Sys2Proof.Machine
end

section
/-! PROOFS. The statements of 30_encoding.md: the decoder and the encoder are inverse to each other (R71, R72, R74), the
illegal words (R75, R76), and the unused data operands (R79).

A word is read in two parts. Its opcode names the row, hence the instruction up to its operands (`decode_of_opcode`);
`Instr.reread` reads the operands back from the word. `decode_cases` says once what the decoder can answer, and every
statement on command words is read off from it. -/

namespace Sys2Proof

/-! The fields of a word as operands. -/

@[simp] theorem bitsOfReg_rdField (w : CmdWord) : bitsOfReg (rdField w) = rdBits w := bitsOfReg_regOfBits _

@[simp] theorem bitsOfReg_rs1Field (w : CmdWord) : bitsOfReg (rs1Field w) = rs1Bits w := bitsOfReg_regOfBits _

@[simp] theorem bitsOfReg_rs2Field (w : CmdWord) : bitsOfReg (rs2Field w) = rs2Bits w := bitsOfReg_regOfBits _

@[simp] theorem bitsOfReg_rd2Field (w : CmdWord) : bitsOfReg (rd2Field w) = w.extractLsb' 0 4 := bitsOfReg_regOfBits _

theorem bitsOfReg_inj {p q : Reg} : bitsOfReg p = bitsOfReg q ↔ p = q :=
  ⟨fun h => by rw [← regOfBits_bitsOfReg p, h, regOfBits_bitsOfReg], congrArg bitsOfReg⟩

/-- `imm[3:0]` of DIVR's command word is the number of the second destination. -/
theorem extractLsb'_commandWord_rd2Imm (op : BitVec 6) (rd rs1 rs2 rd2 : Reg) :
    (commandWord op rd rs1 rs2 (rd2Imm rd2)).extractLsb' 0 4 = bitsOfReg rd2 := by
  rw [← bitsOfReg_rd2Field, rd2Field_commandWord]

/-- An immediate whose bits from `k` up are zero is the low `k` bits of the word. -/
theorem setWidth_low_eq_immField {w : CmdWord} {k l : Nat} (hkl : k + l = 14) (h : (immField w).extractLsb' k l = 0) :
    (w.extractLsb' 0 k).setWidth 14 = immField w := by
  apply BitVec.eq_of_getLsbD_eq; intro i hi
  by_cases hk : i < k
  · simp [immField, hi, hk]
  · have hbit := congrArg (·.getLsbD (i - k)) h
    simp only [BitVec.getLsbD_extractLsb', show i - k < l by omega, show k + (i - k) = i by omega] at hbit
    simpa [hk] using hbit.symm

/-- DIVR's immediate is rebuilt from `rd2` when `imm[13:4]` is zero. -/
theorem rd2Imm_rd2Field {w : CmdWord} (h : (immField w).extractLsb' 4 10 = 0) : rd2Imm (rd2Field w) = immField w := by
  rw [← setWidth_low_eq_immField rfl h]
  exact BitVec.ofNat_toNat 14 (w.extractLsb' 0 4)

/-- The immediate of ADDB and SUBB is rebuilt from `cin` when `imm[13:1]` is zero. -/
theorem cinImm_cinField {w : CmdWord} (h : (immField w).extractLsb' 1 13 = 0) : cinImm (cinField w) = immField w := by
  have hbit : ∀ b : BitVec 1, (b == 1#1).toNat = b.toNat := by decide
  rw [← setWidth_low_eq_immField rfl h, cinImm, cinField, hbit, BitVec.ofNat_toNat]

/-! The rows of the opcode map. -/

/-- The instruction with the mnemonic of `i` and the operands that stand in `w`. -/
def Instr.reread (w : CmdWord) : Instr → Instr
  | .nop => .nop
  | .rdsr _ => .rdsr (immField w)
  | .zero _ _ => .zero (rdField w) (immField w)
  | .ldi _ _ => .ldi (rdField w) (immField w)
  | .mov _ _ => .mov (rdField w) (rs1Field w)
  | .cvt _ _ _ => .cvt (rdField w) (rs1Field w) (immField w)
  | .ldb _ _ => .ldb (rdField w) (immField w)
  | .stb _ _ => .stb (rs1Field w) (immField w)
  | .bget _ _ => .bget (rs1Field w) (immField w)
  | .bset _ _ => .bset (rdField w) (immField w)
  | .bflip _ _ => .bflip (rdField w) (immField w)
  | .size _ => .size (rs1Field w)
  | .count _ => .count (rs1Field w)
  | .all _ => .all (rs1Field w)
  | .any _ => .any (rs1Field w)
  | .none _ => .none (rs1Field w)
  | .tonum _ => .tonum (rs1Field w)
  | .addb _ => .addb (cinField w)
  | .subb _ => .subb (cinField w)
  | .bshl _ _ _ => .bshl (rdField w) (rs1Field w) (immField w)
  | .bshr _ _ _ => .bshr (rdField w) (rs1Field w) (immField w)
  | .sshl _ _ _ => .sshl (rdField w) (rs1Field w) (immField w)
  | .sshr _ _ _ => .sshr (rdField w) (rs1Field w) (immField w)
  | .shl _ _ _ => .shl (rdField w) (rs1Field w) (immField w)
  | .shr _ _ _ => .shr (rdField w) (rs1Field w) (immField w)
  | .add _ _ _ => .add (rdField w) (rs1Field w) (rs2Field w)
  | .sub _ _ _ => .sub (rdField w) (rs1Field w) (rs2Field w)
  | .twoc _ _ => .twoc (rdField w) (rs1Field w)
  | .mul _ _ _ => .mul (rdField w) (rs1Field w) (rs2Field w)
  | .div _ _ _ => .div (rdField w) (rs1Field w) (rs2Field w)
  | .rem _ _ _ => .rem (rdField w) (rs1Field w) (rs2Field w)
  | .divr _ _ _ _ => .divr (rdField w) (rd2Field w) (rs1Field w) (rs2Field w)
  | .and _ _ _ => .and (rdField w) (rs1Field w) (rs2Field w)
  | .or _ _ _ => .or (rdField w) (rs1Field w) (rs2Field w)
  | .not _ _ => .not (rdField w) (rs1Field w)
  | .cmp _ _ => .cmp (rs1Field w) (rs2Field w)

/-- An encoded instruction has its operands in its word. -/
theorem reread_encode (i : Instr) : i.reread (encode i) = i := by
  cases i <;> simp [Instr.reread, encode]

/-- A word with the opcode of an instruction, and zeros where its format requires them, is the encoding of what is
read back from it. -/
theorem encode_reread {i : Instr} {w : CmdWord} (ho : opcodeField w = i.opcode) (hz : i.format.reservedZero w = true) :
    encode (i.reread w) = w := by
  rw [word_eq_iff]
  cases i with
  | divr rd rd2 rs1 rs2 =>
    simp_all [Instr.reread, encode, Instr.opcode, Instr.format, Format.reservedZero, rd2Imm_rd2Field]
  | addb cin | subb cin =>
    simp_all [Instr.reread, encode, Instr.opcode, Instr.format, Format.reservedZero, cinImm_cinField]
  | _ => simp_all [Instr.reread, encode, Instr.opcode, Instr.format, Format.reservedZero]

/-- The opcode selects the row: its instruction is read in its format (30_encoding.md R74). -/
theorem decode_of_opcode {i : Instr} {w : CmdWord} (h : opcodeField w = i.opcode) :
    decode w = checkFormat i.format w (i.reread w) := by
  rw [decode, h]
  cases i <;> rfl

/-- A word that matches the row of an instruction is accepted, with the operands that stand in it. -/
theorem decode_of_fields {i : Instr} {w : CmdWord} (ho : opcodeField w = i.opcode)
    (hz : i.format.reservedZero w = true) : decode w = .ok (i.reread w) := by
  rw [decode_of_opcode ho, checkFormat, if_pos hz]

/-- A word with the opcode of an instruction and a must-be-zero field that is not zero is rejected. -/
theorem decode_of_reserved {i : Instr} {w : CmdWord} (ho : opcodeField w = i.opcode)
    (hz : i.format.reservedZero w = false) : decode w = .error .reservedField := by
  rw [decode_of_opcode ho, checkFormat, hz]
  rfl

/-- The word of every instruction matches the row of the instruction under the mask of its format. -/
theorem encode_masked (i : Instr) : encode i &&& i.format.mask = matchWord i.opcode := by
  cases i with
  | nop => exact Laws.MaskedWord.nop
  | rdsr imm => exact Laws.MaskedWord.rdsr imm
  | zero rd imm => exact Laws.MaskedWord.zero rd imm
  | ldi rd imm => exact Laws.MaskedWord.ldi rd imm
  | mov rd rs1 => exact Laws.MaskedWord.mov rd rs1
  | cvt rd rs1 imm => exact Laws.MaskedWord.cvt rd rs1 imm
  | ldb rd imm => exact Laws.MaskedWord.ldb rd imm
  | stb rs1 imm => exact Laws.MaskedWord.stb rs1 imm
  | bget rs1 imm => exact Laws.MaskedWord.bget rs1 imm
  | bset rd imm => exact Laws.MaskedWord.bset rd imm
  | bflip rd imm => exact Laws.MaskedWord.bflip rd imm
  | size rs1 => exact Laws.MaskedWord.size rs1
  | count rs1 => exact Laws.MaskedWord.count rs1
  | all rs1 => exact Laws.MaskedWord.all rs1
  | any rs1 => exact Laws.MaskedWord.any rs1
  | none rs1 => exact Laws.MaskedWord.none rs1
  | tonum rs1 => exact Laws.MaskedWord.tonum rs1
  | addb cin => exact Laws.MaskedWord.addb cin
  | subb cin => exact Laws.MaskedWord.subb cin
  | bshl rd rs1 imm => exact Laws.MaskedWord.bshl rd rs1 imm
  | bshr rd rs1 imm => exact Laws.MaskedWord.bshr rd rs1 imm
  | sshl rd rs1 imm => exact Laws.MaskedWord.sshl rd rs1 imm
  | sshr rd rs1 imm => exact Laws.MaskedWord.sshr rd rs1 imm
  | shl rd rs1 imm => exact Laws.MaskedWord.shl rd rs1 imm
  | shr rd rs1 imm => exact Laws.MaskedWord.shr rd rs1 imm
  | add rd rs1 rs2 => exact Laws.MaskedWord.add rd rs1 rs2
  | sub rd rs1 rs2 => exact Laws.MaskedWord.sub rd rs1 rs2
  | twoc rd rs1 => exact Laws.MaskedWord.twoc rd rs1
  | mul rd rs1 rs2 => exact Laws.MaskedWord.mul rd rs1 rs2
  | div rd rs1 rs2 => exact Laws.MaskedWord.div rd rs1 rs2
  | rem rd rs1 rs2 => exact Laws.MaskedWord.rem rd rs1 rs2
  | divr rd rd2 rs1 rs2 => exact Laws.MaskedWord.divr rd rd2 rs1 rs2
  | and rd rs1 rs2 => exact Laws.MaskedWord.and rd rs1 rs2
  | or rd rs1 rs2 => exact Laws.MaskedWord.or rd rs1 rs2
  | not rd rs1 => exact Laws.MaskedWord.not rd rs1
  | cmp rs1 rs2 => exact Laws.MaskedWord.cmp rs1 rs2

/-- Settles O1: the opcode of the word selects the instruction's row, its must-be-zero fields are zero, and its operands
are read back. -/
theorem decodeOfEncode : Obligations.DecodeOfEncode := by
  intro i
  obtain ⟨hopcode, hzero⟩ := (masked_iff _ _ _).mp (encode_masked i)
  rw [decode_of_fields hopcode hzero, reread_encode]

/-! What the decoder can answer. -/

/-- The opcodes of no row (30_encoding.md R76, item 1). -/
def unassignedOpcodes : List Nat :=
  [0x00, 0x03, 0x04, 0x05, 0x06, 0x07, 0x0C, 0x0D, 0x0E, 0x0F, 0x1B, 0x1E, 0x1F, 0x26, 0x27, 0x2F]
    ++ [0x34, 0x35, 0x36, 0x37, 0x38, 0x39, 0x3A, 0x3B, 0x3C, 0x3D, 0x3E, 0x3F]

/-- An instruction of each row, in the order of the rows; the operands do not matter. -/
def rowInstrs : List Instr :=
  [.nop, .rdsr 0, .zero 0 0, .ldi 0 0, .mov 0 0, .cvt 0 0 0, .ldb 0 0, .stb 0 0, .bget 0 0, .bset 0 0, .bflip 0 0,
    .size 0, .count 0, .all 0, .any 0, .none 0, .tonum 0, .addb false, .subb false, .bshl 0 0 0, .bshr 0 0 0,
    .sshl 0 0 0, .sshr 0 0 0, .shl 0 0 0, .shr 0 0 0, .add 0 0 0, .sub 0 0 0, .twoc 0 0, .mul 0 0 0, .div 0 0 0,
    .rem 0 0 0, .divr 0 0 0 0, .and 0 0 0, .or 0 0 0, .not 0 0, .cmp 0 0]

/-- The row of an instruction in the opcode map. -/
def Instr.row (i : Instr) : BitVec 6 × Format := (i.opcode, i.format)

theorem map_row_rowInstrs : rowInstrs.map Instr.row = opcodeRows := by decide

theorem row_mem_opcodeRows (i : Instr) : i.row ∈ opcodeRows := by
  cases i <;> simp [Instr.row, Instr.opcode, Instr.format, opcodeRows]

/-- Every row is the row of an instruction. -/
theorem exists_instr_of_mem_opcodeRows {row : BitVec 6 × Format} (h : row ∈ opcodeRows) : ∃ i : Instr, i.row = row := by
  rw [← map_row_rowInstrs, List.mem_map] at h
  obtain ⟨i, -, e⟩ := h
  exact ⟨i, e⟩

/-- The opcodes of the rows differ: a row is known by its opcode. -/
theorem row_eq_of_opcode_eq : ∀ p ∈ opcodeRows, ∀ q ∈ opcodeRows, p.1 = q.1 → p = q := by decide

/-- Every opcode is unassigned or the opcode of an instruction. -/
theorem opcode_unassigned_or_of_instr (op : BitVec 6) : op.toNat ∈ unassignedOpcodes ∨ ∃ i : Instr, i.opcode = op := by
  have h : op.toNat ∈ unassignedOpcodes ∨ ∃ i ∈ rowInstrs, i.opcode = op := by revert op; decide
  exact h.imp_right fun ⟨i, _, e⟩ => ⟨i, e⟩

theorem decode_unassigned {w : CmdWord} (h : (opcodeField w).toNat ∈ unassignedOpcodes) :
    decode w = .error .unassignedOpcode := by
  rw [decode]
  generalize (opcodeField w).toNat = n at h ⊢
  fin_cases h <;> rfl

/-- The three answers of the decoder: an unassigned opcode, a must-be-zero field of the row that is not zero, or the
instruction the word encodes (30_encoding.md R75). -/
theorem decode_cases (w : CmdWord) :
    ((opcodeField w).toNat ∈ unassignedOpcodes ∧ decode w = .error .unassignedOpcode) ∨
      (∃ i : Instr, opcodeField w = i.opcode ∧ i.format.reservedZero w = false ∧ decode w = .error .reservedField) ∨
        ∃ i : Instr, encode i = w ∧ decode w = .ok i := by
  rcases opcode_unassigned_or_of_instr (opcodeField w) with h | ⟨i, h⟩
  · exact .inl ⟨h, decode_unassigned h⟩
  · rcases hz : i.format.reservedZero w with _ | _
    · exact .inr (.inl ⟨i, h.symm, hz, decode_of_reserved h.symm hz⟩)
    · exact .inr (.inr ⟨i.reread w, encode_reread h.symm hz, decode_of_fields h.symm hz⟩)

/-- Settles O2: the decoder accepts a word only as the instruction the word encodes. -/
theorem encodeOfDecode : Obligations.EncodeOfDecode := by
  intro w i h
  rcases decode_cases w with ⟨-, e⟩ | ⟨j, -, -, e⟩ | ⟨j, hj, e⟩
  · cases e.symm.trans h
  · cases e.symm.trans h
  · cases e.symm.trans h
    exact hj

/-- Settles O3: an accepted word is an encoding and matches the row of its instruction; a word that matches a row has
the opcode of the row, which no other row has. -/
theorem everyWordMatchesAtMostOneRow : Obligations.EveryWordMatchesAtMostOneRow := by
  intro w
  refine ⟨⟨?_, ?_⟩, ?_⟩
  · rintro ⟨i, h⟩
    refine ⟨i.row, row_mem_opcodeRows i, ?_⟩
    rw [← encodeOfDecode w i h]
    exact encode_masked i
  · rintro ⟨row, hrow, h⟩
    obtain ⟨i, rfl⟩ := exists_instr_of_mem_opcodeRows hrow
    obtain ⟨hopcode, hzero⟩ := (masked_iff _ _ _).mp h
    exact ⟨i.reread w, decode_of_fields hopcode hzero⟩
  · intro p hp q hq hwp hwq
    obtain ⟨hopcodep, -⟩ := (masked_iff _ _ _).mp hwp
    obtain ⟨hopcodeq, -⟩ := (masked_iff _ _ _).mp hwq
    exact row_eq_of_opcode_eq p hp q hq (hopcodep.symm.trans hopcodeq)

/-- Settles O5: the eleven words are the encodings of their instructions, and the opcodes of the last two are
unassigned. -/
theorem exampleWordsDecode : Obligations.ExampleWordsDecode := by
  have accepted : ∀ {i : Instr} {w : CmdWord}, encode i = w → decode w = .ok i := fun h => h ▸ decodeOfEncode _
  exact ⟨accepted (by decide), accepted (by decide), accepted (by decide), accepted (by decide), accepted (by decide),
    accepted (by decide), accepted (by decide), accepted (by decide), accepted (by decide), accepted (by decide),
    accepted (by decide), decode_unassigned (by decide), decode_unassigned (by decide)⟩

/-! The value conditions (30_encoding.md R76, items 3 to 5), read from the command word. -/

theorem wellFormed_eq_false_iff (c : Config) (i : Instr) :
    i.wellFormed c = false ↔
      ((opcodeField (encode i) = 0x22#6 ∨ opcodeField (encode i) = 0x23#6) ∧ c.W ≤ (immField (encode i)).toNat) ∨
      (opcodeField (encode i) = 0x02#6 ∧ 2 < (immField (encode i)).toNat) ∨
      (opcodeField (encode i) = 0x2E#6 ∧ rdBits (encode i) = (encode i).extractLsb' 0 4) := by
  cases i with
  | divr rd rd2 rs1 rs2 =>
    simp [Instr.wellFormed, encode, extractLsb'_commandWord_rd2Imm, bitsOfReg_inj, eq_comm (a := rd2)]
  | _ => simp [Instr.wellFormed, encode]

end Sys2Proof

namespace Sys2Proof.Machine

/-! A word that is no instruction. -/

theorem rejectCommand_eq (s : State) :
    rejectCommand s = .next (if isHalted s then answerHalted s else enterFault s .illegalCommand) := by
  rcases h : isHalted s with _ | _
  · exact runCommand_error h rfl
  · exact runCommand_halted h _

theorem runPort_rejected {s : State} {e : DecodeError} (h : decode s.port.cmd = .error e) :
    runPort s = rejectCommand s := by
  simp only [runPort, h]

/-- Settles O7: the word is put on the port and rejected there. -/
theorem stepRejectsUndecodableWord : Obligations.StepRejectsUndecodableWord := by
  intro s t rest e hc hp hd
  have hport : decode (presentTransaction (dropEvent s) t).port.cmd = .error e := by
    rw [presentTransaction_port, hd]
  rw [step_command hc hp, runPort_rejected hport, rejectCommand_eq, presentTransaction_dropEvent hp]
  rfl

/-! The commands that raise `IllegalCommand`. -/

/-- The system registers are 0 to 2 (48_system.md R261). -/
theorem systemRegister_of_le {s : State} {k : Nat} (h : k ≤ 2) : ∃ v, systemRegister s k = some v := by
  interval_cases k <;> exact ⟨_, rfl⟩

theorem systemRegister_of_gt {s : State} {k : Nat} (h : 2 < k) : systemRegister s k = none := by
  obtain ⟨m, rfl⟩ := Nat.exists_eq_add_of_lt h
  rw [show 2 + m + 1 = m + 3 by omega]
  rfl

/-- The effects of a command that is legal: they do not end in `IllegalCommand`, and when they complete, the answer is
`OK`. -/
def Legal (x : Except Cause State) : Prop := x ≠ .error .illegalCommand ∧ ∀ t, x = .ok t → answeredOk t = true

/-- A fault is no completed answer. -/
theorem ne_enterFault_of_answeredOk {s t : State} {f : Cause} (h : answeredOk t = true) : t ≠ enterFault s f := by
  rintro rfl
  cases h

theorem enterFault_inj {s : State} {f g : Cause} (h : enterFault s f = enterFault s g) : f = g := by
  simpa using congrArg State.response h

namespace Legal

theorem respond (s : State) (flag : Bool) (d : Nat) : Legal (.ok (respond s flag d)) :=
  ⟨nofun, fun t h => by cases h; rfl⟩

/-- A command is composed of operations that do not raise `IllegalCommand`. -/
theorem bind {α : Type} {x : Except Cause α} {f : α → Except Cause State} (hx : x ≠ .error .illegalCommand)
    (hf : ∀ a, Legal (f a)) : Legal (x >>= f) := by
  cases x with
  | ok a => exact hf a
  | error e => exact ⟨fun h => hx (by cases h; rfl), nofun⟩

/-- A legal command does not raise `IllegalCommand`. -/
theorem runCommand_ne {s : State} (hs : isHalted s = false) {x : Except Cause State} (h : Legal x) :
    runCommand s x ≠ .next (enterFault s .illegalCommand) := by
  obtain ⟨hx, hok⟩ := h
  cases x with
  | ok t =>
    rw [runCommand_ok hs rfl]
    exact fun e => ne_enterFault_of_answeredOk (hok t rfl) (Host.Outcome.next.inj e)
  | error f =>
    rw [runCommand_error hs rfl]
    exact fun e => hx (congrArg Except.error (enterFault_inj (Host.Outcome.next.inj e)))

/-! No shared operation raises `IllegalCommand` but a value condition that fails. -/

section

variable {s : State} {p q : Reg} {k d : Nat} {c : Config} {a b : Vec}

theorem requireLegal_ne {b : Bool} (h : b = true) : requireLegal b ≠ .error .illegalCommand := by
  simp [requireLegal_true h]

theorem readVec_ne : readVec s p ≠ .error .illegalCommand := by simp [readVec_eq_error]

theorem readVecs_ne : readVecs s p q ≠ .error .illegalCommand := by simp [readVecs_eq_error]

theorem checkWidth_ne : checkWidth c k ≠ .error .illegalCommand := by simp [checkWidth_eq_error]

theorem memReadBlock_ne : memReadBlock s p k ≠ .error .illegalCommand := by simp [memReadBlock_eq_error]

theorem memWriteBlock_ne : memWriteBlock s p k d ≠ .error .illegalCommand := by simp [memWriteBlock_eq_error]

theorem memReadBit_ne : memReadBit s p k ≠ .error .illegalCommand := by simp [memReadBit_eq_error]

theorem memWriteBit_ne : memWriteBit s p k d ≠ .error .illegalCommand := by simp [memWriteBit_eq_error]

theorem addVec_ne : addVec c a b ≠ .error .illegalCommand := by
  rcases addVec_outcomes c a b with e | ⟨v, e, -⟩ <;> simp [e]

theorem mulVec_ne : mulVec c a b ≠ .error .illegalCommand := by
  rcases mulVec_outcomes c a b with e | ⟨v, e, -⟩ <;> simp [e]

theorem divRemVec_ne : divRemVec c a b ≠ .error .illegalCommand := by
  rcases divRemVec_outcomes c a b with ⟨-, e⟩ | ⟨-, v, e, -⟩ <;> simp [e]

end

/-- An instruction whose value conditions hold does not raise `IllegalCommand`. -/
theorem exec_ne {i : Instr} {s : State} (hs : isHalted s = false) (hw : i.wellFormed s.config = true) :
    exec i s ≠ .next (enterFault s .illegalCommand) := by
  cases i with
  | nop | addb cin | subb cin => exact runCommand_ne hs (respond _ _ _)
  | rdsr imm =>
    obtain ⟨v, e⟩ := systemRegister_of_le (s := s) (of_decide_eq_true hw)
    simp only [exec, execRdsr, e]
    exact fun h => ne_enterFault_of_answeredOk rfl (Host.Outcome.next.inj h)
  | zero rd imm | ldi rd imm => exact runCommand_ne hs <| bind checkWidth_ne fun _ => respond _ _ _
  | mov rd rs1 | size rs1 | count rs1 | all rs1 | any rs1 | none rs1 | tonum rs1 | bshl rd rs1 imm | bshr rd rs1 imm
  | shl rd rs1 imm | shr rd rs1 imm | not rd rs1 =>
    exact runCommand_ne hs <| bind readVec_ne fun _ => respond _ _ _
  | cvt rd rs1 imm => exact runCommand_ne hs <| bind readVec_ne fun _ => bind checkWidth_ne fun _ => respond _ _ _
  | ldb rd imm => exact runCommand_ne hs <| bind memWriteBlock_ne fun _ => respond _ _ _
  | stb rs1 imm => exact runCommand_ne hs <| bind memReadBlock_ne fun _ => respond _ _ _
  | bget rs1 imm => exact runCommand_ne hs <| bind memReadBit_ne fun _ => respond _ _ _
  | bset rd imm => exact runCommand_ne hs <| bind memWriteBit_ne fun _ => respond _ _ _
  | bflip rd imm => exact runCommand_ne hs <| bind memReadBit_ne fun _ => bind memWriteBit_ne fun _ => respond _ _ _
  | sshl rd rs1 imm | sshr rd rs1 imm =>
    exact runCommand_ne hs <| bind (requireLegal_ne hw) fun _ => bind readVec_ne fun _ => respond _ _ _
  | twoc rd rs1 => exact runCommand_ne hs <| bind readVec_ne fun _ => bind addVec_ne fun _ => respond _ _ _
  | sub rd rs1 rs2 | and rd rs1 rs2 | or rd rs1 rs2 | cmp rs1 rs2 =>
    exact runCommand_ne hs <| bind readVecs_ne fun _ => respond _ _ _
  | add rd rs1 rs2 => exact runCommand_ne hs <| bind readVecs_ne fun _ => bind addVec_ne fun _ => respond _ _ _
  | mul rd rs1 rs2 =>
    exact runCommand_ne hs <| bind readVecs_ne fun _ => bind checkWidth_ne fun _ => bind mulVec_ne fun _ =>
      respond _ _ _
  | div rd rs1 rs2 | rem rd rs1 rs2 =>
    exact runCommand_ne hs <| bind readVecs_ne fun _ => bind divRemVec_ne fun _ => respond _ _ _
  | divr rd rd2 rs1 rs2 =>
    exact runCommand_ne hs <| bind (requireLegal_ne hw) fun _ => bind readVecs_ne fun _ => bind divRemVec_ne fun _ =>
      respond _ _ _

end Legal

/-- An instruction with a value condition that fails raises `IllegalCommand` before it reads a register. -/
theorem exec_illFormed {i : Instr} {s : State} (hs : isHalted s = false) (hw : i.wellFormed s.config = false) :
    exec i s = .next (enterFault s .illegalCommand) := by
  cases i with
  | rdsr imm =>
    have himm : 2 < imm.toNat := Nat.lt_of_not_le (of_decide_eq_false hw)
    simp only [exec, execRdsr, systemRegister_of_gt himm]
    exact runCommand_error hs rfl
  | sshl rd rs1 imm | sshr rd rs1 imm | divr rd rd2 rs1 rs2 =>
    exact runCommand_error hs (bind_eq_error.mpr (.inl (requireLegal_false hw)))
  | _ => cases hw

theorem exec_illegalCommand_iff {i : Instr} {s : State} (hs : isHalted s = false) :
    exec i s = .next (enterFault s .illegalCommand) ↔ i.wellFormed s.config = false :=
  ⟨fun h => Bool.eq_false_iff.mpr fun hw => Legal.exec_ne hs hw h, exec_illFormed hs⟩

/-- Settles O4: a word the decoder rejects falls under item 1 or 2 of R76, and the word of an instruction under items 3
to 5 exactly when the instruction is not well formed. -/
theorem illegalCommandExactly : Obligations.IllegalCommandExactly := by
  intro s hs
  have rejected : ∀ {e}, decode s.port.cmd = .error e → runPort s = .next (enterFault s .illegalCommand) := by
    intro e h
    rw [runPort_rejected h, rejectCommand_eq, hs]
    rfl
  rcases decode_cases s.port.cmd with ⟨hop, e⟩ | ⟨i, hop, hz, e⟩ | ⟨i, hi, e⟩
  · exact iff_of_true (rejected e) (.inl hop)
  · refine iff_of_true (rejected e) (.inr (.inl ⟨i.row, row_mem_opcodeRows i, hop, fun h => ?_⟩))
    obtain ⟨-, hzero⟩ := (masked_iff _ _ _).mp h
    exact Bool.false_ne_true (hz.symm.trans hzero)
  · rw [runPort_decoded e, exec_illegalCommand_iff hs, wellFormed_eq_false_iff, hi]
    have assigned : (opcodeField s.port.cmd).toNat ∉ unassignedOpcodes := fun h => by
      cases e.symm.trans (decode_unassigned h)
    have matched : ¬ ∃ row ∈ opcodeRows,
        opcodeField s.port.cmd = row.1 ∧ s.port.cmd &&& row.2.mask ≠ matchWord row.1 := by
      rintro ⟨row, hrow, hop, hne⟩
      obtain ⟨hopcode, -⟩ := (masked_iff _ _ _).mp (encode_masked i)
      obtain rfl : i.row = row :=
        row_eq_of_opcode_eq _ (row_mem_opcodeRows i) _ hrow (hopcode.symm.trans (hi ▸ hop))
      exact hne (hi ▸ encode_masked i)
    exact ⟨fun h => .inr (.inr h), fun h => (h.resolve_left assigned).resolve_left matched⟩

/-! The unused data operands. -/

/-- The same state with each of two transactions on the port. -/
inductive SameButPort (p q : Transaction) : State → State → Prop
  | mk (t : State) : SameButPort p q (presentTransaction t p) (presentTransaction t q)

/-- Both outcomes are next states, equal but for the transaction on the port. -/
def SameOutcomeButPort (p q : Transaction) (o o' : Host.Outcome State Fault Refusal) : Prop :=
  ∃ t, o = .next (presentTransaction t p) ∧ o' = .next (presentTransaction t q)

/-- Fault entry takes the command word from the port, and nothing else (60_exceptions.md R272). -/
theorem enterFault_presentTransaction {p q : Transaction} (hcmd : p.cmd = q.cmd) (s : State) (f : Cause) :
    enterFault (presentTransaction s q) f = presentTransaction (enterFault (presentTransaction s p) f) q := by
  simp [enterFault, presentTransaction, hcmd]

namespace SameButPort

variable {p q : Transaction} {s : State}

theorem runCommand (hcmd : p.cmd = q.cmd) {x y : Except Cause State} (h : SameResult (SameButPort p q) x y) :
    SameOutcomeButPort p q (runCommand (presentTransaction s p) x) (runCommand (presentTransaction s q) y) := by
  have hp := presentTransaction_isHalted s p
  have hq := presentTransaction_isHalted s q
  rcases hs : isHalted s with _ | _
  · rw [hs] at hp hq
    cases h with
    | ok h =>
      obtain ⟨t⟩ := h
      exact ⟨t, runCommand_ok hp rfl, runCommand_ok hq rfl⟩
    | error f =>
      refine ⟨enterFault (presentTransaction s p) f, runCommand_error hp rfl, ?_⟩
      rw [runCommand_error hq rfl, enterFault_presentTransaction hcmd]
  · rw [hs] at hp hq
    exact ⟨answerHalted s, runCommand_halted hp _, runCommand_halted hq _⟩

/-- The end of a command, after its writes. -/
theorem respond {t u : State} (h : SameButPort p q t u) (flag : Bool) (d : Nat) :
    SameResult (SameButPort p q) (.ok (respond t flag d)) (.ok (respond u flag d)) := by
  obtain ⟨t⟩ := h
  exact .ok (.mk (Machine.respond t flag d))

theorem writeVec {t u : State} (h : SameButPort p q t u) (r : Reg) (v : Vec) :
    SameButPort p q (writeVec t r v) (writeVec u r v) := by
  obtain ⟨t⟩ := h
  exact .mk (Machine.writeVec t r v)

/-! No register access reads the port. -/

theorem bind_readVec {r : Reg} {f g : Vec → Except Cause State}
    (h : ∀ a, SameResult (SameButPort p q) (f a) (g a)) :
    SameResult (SameButPort p q) (readVec (presentTransaction s p) r >>= f)
      (readVec (presentTransaction s q) r >>= g) :=
  .refl_bind (x := readVec s r) h

theorem bind_readVecs {r₁ r₂ : Reg} {f g : Vec × Vec → Except Cause State}
    (h : ∀ a b, SameResult (SameButPort p q) (f (a, b)) (g (a, b))) :
    SameResult (SameButPort p q) (readVecs (presentTransaction s p) r₁ r₂ >>= f)
      (readVecs (presentTransaction s q) r₁ r₂ >>= g) :=
  .refl_bind (x := readVecs s r₁ r₂) fun v => h v.1 v.2

theorem bind_memReadBlock {r : Reg} {k : Nat} {f g : Nat → Except Cause State}
    (h : ∀ b, SameResult (SameButPort p q) (f b) (g b)) :
    SameResult (SameButPort p q) (memReadBlock (presentTransaction s p) r k >>= f)
      (memReadBlock (presentTransaction s q) r k >>= g) :=
  .refl_bind (x := memReadBlock s r k) h

theorem bind_memReadBit {r : Reg} {k : Nat} {f g : Nat → Except Cause State}
    (h : ∀ b, SameResult (SameButPort p q) (f b) (g b)) :
    SameResult (SameButPort p q) (memReadBit (presentTransaction s p) r k >>= f)
      (memReadBit (presentTransaction s q) r k >>= g) :=
  .refl_bind (x := memReadBit s r k) h

/-- A checked write in place, of blocks computed from the register alone. -/
theorem modify (r : Reg) (outside : Vec → Prop) [DecidablePred outside] (blk : Vec → List Nat) :
    SameResult (SameButPort p q)
      (readVec (presentTransaction s p) r >>= fun v => if outside v then .error .outOfRange
        else .ok (Machine.writeVec (presentTransaction s p) r { n := v.n, blk := blk v }))
      (readVec (presentTransaction s q) r >>= fun v => if outside v then .error .outOfRange
        else .ok (Machine.writeVec (presentTransaction s q) r { n := v.n, blk := blk v })) :=
  bind_readVec fun v => by
    split
    · exact .error _
    · exact .ok ((SameButPort.mk s).writeVec r _)

theorem memWriteBlock (r : Reg) (k d : Nat) :
    SameResult (SameButPort p q) (memWriteBlock (presentTransaction s p) r k d)
      (memWriteBlock (presentTransaction s q) r k d) :=
  modify r (fun v => blockCount s.config v.n ≤ k) fun v => trimTo s.config v.n (v.blk.set k d)

theorem memWriteBit (r : Reg) (k d : Nat) :
    SameResult (SameButPort p q) (memWriteBit (presentTransaction s p) r k d)
      (memWriteBit (presentTransaction s q) r k d) :=
  modify r (fun v => v.n ≤ k) fun v => setBitOf s.config v.blk k d

/-! The ends of a command: with one register written, and with none. -/

theorem write (r : Reg) (v : Vec) :
    SameResult (SameButPort p q) (.ok (Machine.respond (Machine.writeVec (presentTransaction s p) r v) false 0))
      (.ok (Machine.respond (Machine.writeVec (presentTransaction s q) r v) false 0)) :=
  ((SameButPort.mk s).writeVec r v).respond false 0

theorem answer (flag : Bool) (d : Nat) :
    SameResult (SameButPort p q) (.ok (Machine.respond (presentTransaction s p) flag d))
      (.ok (Machine.respond (presentTransaction s q) flag d)) :=
  (SameButPort.mk s).respond flag d

/-! The meanings. -/

/-- RDSR reads the system registers, which are not on the port. -/
theorem execRdsr (hcmd : p.cmd = q.cmd) (imm : Imm) :
    SameOutcomeButPort p q (execRdsr imm (presentTransaction s p)) (execRdsr imm (presentTransaction s q)) := by
  have e : ∀ t, systemRegister (presentTransaction s t) imm.toNat = systemRegister s imm.toNat := fun _ => rfl
  simp only [Machine.execRdsr, e]
  rcases systemRegister s imm.toNat with _ | v
  · exact runCommand hcmd (.error _)
  · exact ⟨Machine.respond s false v, rfl, rfl⟩

/-- Two transactions with the same word and the same used operand bits have the same outcome but for the port. -/
theorem exec {i : Instr} (hcmd : p.cmd = q.cmd) (h : sameOperands s.config p q i) :
    SameOutcomeButPort p q (exec i (presentTransaction s p)) (exec i (presentTransaction s q)) := by
  cases i with
  | nop => exact runCommand hcmd (answer _ _)
  | rdsr imm => exact execRdsr hcmd imm
  | zero rd imm => exact runCommand hcmd <| .refl_bind fun _ => write rd _
  | ldi rd imm =>
    have e : opaNumber (presentTransaction s p) = opaNumber (presentTransaction s q) := congrArg BitVec.toNat h
    simp only [Machine.exec, execLdi, e]
    exact runCommand hcmd <| .refl_bind fun _ => write rd _
  | ldb rd imm =>
    have e : opaBlock (presentTransaction s p) = opaBlock (presentTransaction s q) := h
    simp only [Machine.exec, execLdb, e]
    exact runCommand hcmd <| (memWriteBlock rd _ _).bind fun hw => hw.respond _ _
  | bset rd imm =>
    have e : opaBit (presentTransaction s p) = opaBit (presentTransaction s q) := by
      simpa [opaBit, bitOf] using (show p.opa.toNat % 2 = q.opa.toNat % 2 from h)
    simp only [Machine.exec, execBset, e]
    exact runCommand hcmd <| (memWriteBit rd _ _).bind fun hw => hw.respond _ _
  | addb cin | subb cin =>
    obtain ⟨ha, hb⟩ := h
    have ea : opaBlock (presentTransaction s p) = opaBlock (presentTransaction s q) := ha
    have eb : opbBlock (presentTransaction s p) = opbBlock (presentTransaction s q) := hb
    simp only [Machine.exec, execAddb, execSubb, ea, eb]
    exact runCommand hcmd (answer _ _)
  | stb rs1 imm => exact runCommand hcmd <| bind_memReadBlock fun _ => answer _ _
  | bget rs1 imm => exact runCommand hcmd <| bind_memReadBit fun _ => answer _ _
  | bflip rd imm =>
    exact runCommand hcmd <| bind_memReadBit fun _ => (memWriteBit rd _ _).bind fun hw => hw.respond _ _
  | size rs1 | count rs1 | all rs1 | any rs1 | none rs1 | tonum rs1 =>
    exact runCommand hcmd <| bind_readVec fun _ => answer _ _
  | mov rd rs1 | bshl rd rs1 imm | bshr rd rs1 imm | shl rd rs1 imm | shr rd rs1 imm | not rd rs1 =>
    exact runCommand hcmd <| bind_readVec fun _ => write rd _
  | cvt rd rs1 imm | twoc rd rs1 => exact runCommand hcmd <| bind_readVec fun _ => .refl_bind fun _ => write rd _
  | sshl rd rs1 imm | sshr rd rs1 imm =>
    exact runCommand hcmd <| .refl_bind fun _ => bind_readVec fun _ => write rd _
  | sub rd rs1 rs2 | and rd rs1 rs2 | or rd rs1 rs2 => exact runCommand hcmd <| bind_readVecs fun _ _ => write rd _
  | cmp rs1 rs2 => exact runCommand hcmd <| bind_readVecs fun _ _ => answer _ _
  | add rd rs1 rs2 | div rd rs1 rs2 | rem rd rs1 rs2 =>
    exact runCommand hcmd <| bind_readVecs fun _ _ => .refl_bind fun _ => write rd _
  | mul rd rs1 rs2 =>
    exact runCommand hcmd <| bind_readVecs fun _ _ => .refl_bind fun _ => .refl_bind fun _ => write rd _
  | divr rd rd2 rs1 rs2 =>
    exact runCommand hcmd <| .refl_bind fun _ => bind_readVecs fun _ _ => .refl_bind fun v =>
      (((SameButPort.mk s).writeVec rd v.1).writeVec rd2 v.2).respond _ _

end SameButPort

/-- Settles O28: `exec` reads the port through the operand bits of R79 and, on fault entry, the command word. -/
theorem unusedOperandBitsIgnored : Obligations.UnusedOperandBitsIgnored :=
  fun _ _ _ _ hcmd h => SameButPort.exec hcmd h

end Sys2Proof.Machine
end

section
/-! PROOFS. The statements of 40_construct_convert.md: ZERO and LDI (R101, R102), MOV (R103), CVT (R104).

A meaning is a sequence of checks and reads under `runCommand`: a check that fails decides the command
(`runCommand_bind_error`), one that succeeds is passed (`runCommand_bind_ok`). What LDI and CVT write is first said on
values (`execLdi_eq`, `Holds.execCvt`). -/

namespace Sys2Proof.Machine

/-! A command, one check or read at a time. -/

section

variable {s : State} {α : Type} {x : Except Cause α} {f : α → Except Cause State}

/-- The first check that fails is the fault the command raises (60_exceptions.md R283). -/
theorem runCommand_bind_error (hs : isHalted s = false) {c : Cause} (hx : x = .error c) :
    runCommand s (x >>= f) = .next (enterFault s c) :=
  runCommand_error hs (bind_eq_error.mpr (.inl hx))

theorem runCommand_bind_ok {a : α} (hx : x = .ok a) : runCommand s (x >>= f) = runCommand s (f a) := by
  rw [hx, except_ok_bind]

end

/-! A command of which only the capacity check is left (40_construct_convert.md R106): ZERO, LDI, and CVT once its source
is read. -/

section

variable {s t : State} {n : Nat} (hs : isHalted s = false)

include hs

theorem runCommand_checkWidth_error (hn : n = 0 ∨ s.config.nmax < n) :
    runCommand s (checkWidth s.config n >>= fun _ => .ok t) = .next (enterFault s .widthError) :=
  runCommand_bind_error hs (checkWidth_error hn)

theorem runCommand_checkWidth_ok (h1 : 1 ≤ n) (hn : n ≤ s.config.nmax) :
    runCommand s (checkWidth s.config n >>= fun _ => .ok t) = .next t :=
  (runCommand_bind_ok (checkWidth_ok h1 hn)).trans (runCommand_ok hs rfl)

end

/-! ZERO and LDI. -/

/-- LDI on values: the bit-by-bit decomposition is `opa mod 2^n` (40_construct_convert.md R102). -/
theorem execLdi_eq (rd : Reg) (imm : Imm) (s : State) :
    execLdi rd imm s = runCommand s (checkWidth s.config imm.toNat >>= fun _ =>
      .ok (respond (writeVec s rd (mkVec s.config imm.toNat (s.port.opa.toNat % 2 ^ imm.toNat))) false 0)) := by
  rw [← decompose_eq]
  rfl

/-- Settles O32: both commands check the width and write; the decomposition of LDI keeps the low bits of `opa`. -/
theorem zeroAndLdiConstruct : Obligations.ZeroAndLdiConstruct := by
  rintro s rd imm ⟨-, hs⟩
  refine ⟨decodeOfEncode (.zero rd imm), decodeOfEncode (.ldi rd imm), fun hn => ⟨?zeroFault, ?ldiFault⟩,
    fun h1 hn => ⟨?zero, ?ldi⟩⟩
  case zeroFault => exact runCommand_checkWidth_error hs hn
  case ldiFault => exact (execLdi_eq rd imm s).trans (runCommand_checkWidth_error hs hn)
  case zero => exact runCommand_checkWidth_ok hs h1 hn
  case ldi => exact (execLdi_eq rd imm s).trans (runCommand_checkWidth_ok hs h1 hn)

/-! MOV. -/

/-- Settles O33: the vector read from `rs1` is the vector written to `rd`. -/
theorem movCopiesTheVector : Obligations.MovCopiesTheVector := by
  rintro s rd rs1 n x ⟨hc, hs⟩
  refine ⟨decodeOfEncode (.mov rd rs1), fun hu => ?unconstructed, fun h => ?holds⟩
  case unconstructed => exact runCommand_bind_error hs (readVec_unconstructed hu)
  case holds => exact (runCommand_bind_ok (h.readVec hc)).trans (runCommand_ok hs rfl)

/-! CVT. -/

/-- CVT on values: the source is read, and what is left is the capacity check and the write of `x mod 2^m`
(40_construct_convert.md R104). -/
theorem Holds.execCvt {s : State} (hc : s.config.legal = true) {rs1 : Reg} {n x : Nat} (h : Holds s rs1 n x) (rd : Reg)
    (imm : Imm) :
    execCvt rd rs1 imm s = runCommand s (checkWidth s.config imm.toNat >>= fun _ =>
      .ok (respond (writeVec s rd (mkVec s.config imm.toNat (x % 2 ^ imm.toNat))) false 0)) := by
  have ⟨_, hn, hx, _⟩ := h
  rw [← convert_eq hn hx]
  exact runCommand_bind_ok (h.readVec hc)

/-- Settles O34: the source is read before the width is checked, and converting `mk(n, x)` keeps `x mod 2^imm`. -/
theorem cvtTruncatesOrExtends : Obligations.CvtTruncatesOrExtends := by
  rintro s rd rs1 imm n x ⟨hc, hs⟩
  refine ⟨decodeOfEncode (.cvt rd rs1 imm), fun hu => ?unconstructed, fun h => ⟨fun hn => ?widthError, fun h1 hn => ?ok⟩⟩
  case unconstructed => exact runCommand_bind_error hs (readVec_unconstructed hu)
  case widthError => exact (h.execCvt hc rd imm).trans (runCommand_checkWidth_error hs hn)
  case ok => exact (h.execCvt hc rd imm).trans (runCommand_checkWidth_ok hs h1 hn)

end Sys2Proof.Machine
end
section
/-! PROOFS. The statements of 41_storage_access.md: LDB and STB (R120, R121), BGET, BSET and BFLIP (R122 to R124), the
queries SIZE, COUNT, ALL, ANY, NONE and TONUM (R125 to R130).

There are two shapes of command here. An access inside a register checks its index against a limit, the block count or
the width (`runCommand_access`); a query reads a register and answers from its value (`Holds.query`). What is left is
arithmetic: the bits of a value as the statements read them (`testBit_withBit`, `popcount_eq_length_filter`,
`eq_two_pow_sub_one_iff`). -/

namespace Sys2Proof.Machine

/-! The two shapes of command. -/

/-- An access to a constructed register: an index at the limit or above decides the command, one below it leaves the
rest of the command (20_memory.md R52 to R54). -/
theorem runCommand_access {s t : State} (hs : isHalted s = false) {α : Type} {x : Except Cause α}
    {f : α → Except Cause State} {a : α} {limit k : Nat}
    (hx : x = if limit ≤ k then .error .outOfRange else .ok a) (hf : k < limit → f a = .ok t) :
    (limit ≤ k → runCommand s (x >>= f) = .next (enterFault s .outOfRange)) ∧
      (k < limit → runCommand s (x >>= f) = .next t) := by
  refine ⟨fun hk => ?outside, fun hk => ?inside⟩
  case outside => exact runCommand_bind_error hs (hx.trans (if_pos hk))
  case inside =>
    have hok : x = .ok a := hx.trans (if_neg (Nat.not_le.mpr hk))
    exact (runCommand_bind_ok hok).trans (runCommand_ok hs (hf hk))

/-- A query of a register that holds `mk(n, x)` answers what it makes of `mk(n, x)`, and changes nothing else. -/
theorem Holds.query {s : State} (hc : s.config.legal = true) (hs : isHalted s = false) {r : Reg} {n x : Nat}
    (h : Holds s r n x) {flag : Vec → Bool} {data : Vec → Nat} {b : Bool} {d : Nat}
    (hflag : flag (mkVec s.config n x) = b) (hdata : data (mkVec s.config n x) = d) :
    runCommand s (Machine.readVec s r >>= fun a => .ok (respond s (flag a) (data a))) = .next (respond s b d) := by
  subst hflag hdata
  exact (runCommand_bind_ok (h.readVec hc)).trans (runCommand_ok hs rfl)

/-- A command that begins by reading an unconstructed register raises `Unconstructed` (00_scope.md R13). -/
theorem runCommand_readVec_unconstructed {s : State} (hs : isHalted s = false) {r : Reg} (hu : (regAt s r).n = 0)
    (f : Vec → Except Cause State) : runCommand s (readVec s r >>= f) = .next (enterFault s .unconstructed) :=
  runCommand_bind_error hs (readVec_unconstructed hu)

/-! Bits of a value. -/

theorem bitOf_eq_toNat_testBit (x p : Nat) : bitOf x p = (x.testBit p).toNat := (Nat.toNat_testBit x p).symm

theorem flagOfBit_bitOf (x p : Nat) : flagOfBit (bitOf x p) = x.testBit p := by
  rw [flagOfBit, bitOf_eq_toNat_testBit]
  cases x.testBit p <;> rfl

theorem one_sub_bitOf (x p : Nat) : 1 - bitOf x p = (!x.testBit p).toNat := by
  rw [bitOf_eq_toNat_testBit]
  cases x.testBit p <;> rfl

theorem opaBit_eq (s : State) : opaBit s = (s.port.opa.getLsbD 0).toNat := bitOf_eq_toNat_testBit _ _

/-- `x` with bit `p` replaced by `b`, as a bit write computes it (20_memory.md R54). -/
def withBit (x p : Nat) (b : Bool) : Nat := x - bitOf x p * 2 ^ p + b.toNat * 2 ^ p

theorem withBit_lt {n x p : Nat} (hx : x < 2 ^ n) (hp : p < n) (b : Bool) : withBit x p b < 2 ^ n :=
  replaceBit_lt_width hx hp b.toNat_lt

/-- The bits above position `p`, the bit `b`, and the bits below. -/
theorem withBit_eq_split (x p : Nat) (b : Bool) :
    withBit x p b = 2 ^ p * Nat.bit b (x / 2 ^ (p + 1)) + x % 2 ^ p := by
  have hsplit := bit_split x p
  have hhigh : 2 ^ p * Nat.bit b (x / 2 ^ (p + 1)) = x / 2 ^ (p + 1) * 2 ^ (p + 1) + b.toNat * 2 ^ p := by
    rw [Nat.bit_val]; ring
  rw [withBit, hhigh]
  omega

/-- Bit `p` is replaced, and no other. -/
theorem testBit_withBit (x p : Nat) (b : Bool) (q : Nat) :
    (withBit x p b).testBit q = if q = p then b else x.testBit q := by
  rw [withBit_eq_split, Nat.testBit_two_pow_mul_add _ (Nat.mod_lt x (Nat.two_pow_pos p))]
  rcases lt_trichotomy q p with below | rfl | above
  · simp [below, below.ne, Nat.testBit_mod_two_pow]
  · simp
  · obtain ⟨d, rfl⟩ := Nat.exists_eq_add_of_lt above
    rw [if_neg (by omega), if_neg (by omega), show p + d + 1 - p = d + 1 by omega, Nat.testBit_bit_succ,
      Nat.testBit_div_two_pow, show d + (p + 1) = p + d + 1 by omega]

/-- `popcount` counts the positions whose bit is set (00_scope.md R11). -/
theorem popcount_eq_length_filter (n x : Nat) :
    popcount n x = ((List.range n).filter fun p => x.testBit p).length := by
  rw [popcount]
  induction List.range n with
  | nil => rfl
  | cons p ps ih =>
    rw [List.map_cons, List.sum_cons, ih, bitOf_eq_toNat_testBit, List.filter_cons]
    cases x.testBit p <;> simp [Nat.add_comm]

/-- Below `2^n`, the value with every one of the `n` bits set is `2^n - 1` (41_storage_access.md R127). -/
theorem eq_two_pow_sub_one_iff {n x : Nat} (hx : x < 2 ^ n) : x = 2 ^ n - 1 ↔ ∀ p, p < n → x.testBit p = true := by
  constructor
  · rintro rfl p hp
    simpa using hp
  · intro hset
    apply Nat.eq_of_testBit_eq
    intro p
    rw [Nat.testBit_two_pow_sub_one]
    by_cases hp : p < n
    · simp [hp, hset p hp]
    · simp [hp, Nat.testBit_lt_two_pow (lt_of_width (Nat.le_of_not_lt hp) hx)]

/-! LDB and STB. -/

/-- Settles O35: a block write below the block count replaces the block and trims. -/
theorem ldbStoresOneBlock : Obligations.LdbStoresOneBlock := by
  rintro s rd k n x ⟨hc, hs⟩
  refine ⟨decodeOfEncode (.ldb rd k), fun hu => ?unconstructed, fun h => ?holds⟩
  case unconstructed => exact runCommand_bind_error hs (memWriteBlock_unconstructed hu _ _)
  case holds => exact runCommand_access hs (h.memWriteBlock hc k.toNat (opaBlock_lt s)) fun _ => rfl

/-- Settles O36: a block read below the block count answers the block. -/
theorem stbReadsOneBlock : Obligations.StbReadsOneBlock := by
  rintro s rs1 k n x ⟨hc, hs⟩
  refine ⟨decodeOfEncode (.stb rs1 k), fun hu => ?unconstructed, fun h => ?holds⟩
  case unconstructed => exact runCommand_bind_error hs (memReadBlock_unconstructed hu _)
  case holds => exact runCommand_access hs (h.memReadBlock hc k.toNat) fun _ => rfl

/-! BGET, BSET and BFLIP. -/

/-- Settles O37: a bit read below the width answers the bit in the flag. -/
theorem bgetReadsOneBit : Obligations.BgetReadsOneBit := by
  rintro s rs1 p n x ⟨hc, hs⟩
  refine ⟨decodeOfEncode (.bget rs1 p), fun hu => ?unconstructed, fun h => ?holds⟩
  case unconstructed => exact runCommand_bind_error hs (memReadBit_unconstructed hu _)
  case holds =>
    rw [← flagOfBit_bitOf]
    exact runCommand_access hs (h.memReadBit hc p.toNat) fun _ => rfl

section

variable {s : State} {rd : Reg} {n x : Nat}

/-- A bit write replaces one bit of the vector held (20_memory.md R54). -/
theorem Holds.memWriteBit_withBit (hc : s.config.legal = true) (h : Holds s rd n x) (p : Nat) {b : Bool} {d : Nat}
    (hd : d = b.toNat) :
    Machine.memWriteBit s rd p d =
      if n ≤ p then .error .outOfRange else .ok (writeVec s rd (mkVec s.config n (withBit x p b))) := by
  subst hd
  exact h.memWriteBit hc p b.toNat_lt

variable (hc : s.config.legal = true) (hs : isHalted s = false) (h : Holds s rd n x) (p : Imm)

include hc hs h

/-- BSET on values: bit `p` becomes `opa[0]` (41_storage_access.md R123). -/
theorem Holds.exec_bset :
    (n ≤ p.toNat → exec (.bset rd p) s = .next (enterFault s .outOfRange)) ∧
      (p.toNat < n → exec (.bset rd p) s = .next
        (respond (writeVec s rd (mkVec s.config n (withBit x p.toNat (s.port.opa.getLsbD 0)))) false 0)) :=
  runCommand_access hs (h.memWriteBit_withBit hc p.toNat (opaBit_eq s)) fun _ => rfl

/-- BFLIP on values: the bit read decides the command's fault, and its complement is written back
(41_storage_access.md R124). -/
theorem Holds.exec_bflip :
    (n ≤ p.toNat → exec (.bflip rd p) s = .next (enterFault s .outOfRange)) ∧
      (p.toNat < n → exec (.bflip rd p) s = .next
        (respond (writeVec s rd (mkVec s.config n (withBit x p.toNat (!x.testBit p.toNat)))) false 0)) := by
  refine runCommand_access hs (h.memReadBit hc p.toNat) fun hp => ?_
  rw [h.memWriteBit_withBit hc p.toNat (one_sub_bitOf x p.toNat), if_neg (Nat.not_le.mpr hp), except_ok_bind]

end

/-- Settles O38: both commands write the value with one bit replaced, by `opa[0]` or by its own complement. -/
theorem bsetAndBflipChangeOneBit : Obligations.BsetAndBflipChangeOneBit := by
  rintro s rd p n x ⟨hc, hs⟩
  refine ⟨decodeOfEncode (.bset rd p), decodeOfEncode (.bflip rd p), fun hu => ⟨?bsetFault, ?bflipFault⟩,
    fun h => ?holds⟩
  case bsetFault => exact runCommand_bind_error hs (memWriteBit_unconstructed hu _ _)
  case bflipFault => exact runCommand_bind_error hs (memReadBit_unconstructed hu _)
  case holds =>
    have ⟨_, _, hx, _⟩ := h
    obtain ⟨bsetOutside, bsetInside⟩ := h.exec_bset hc hs p
    obtain ⟨bflipOutside, bflipInside⟩ := h.exec_bflip hc hs p
    refine ⟨fun hp => ⟨bsetOutside hp, bflipOutside hp⟩, fun hp => ⟨?bset, ?bflip⟩⟩
    case bset => exact ⟨_, withBit_lt hx hp _, testBit_withBit x p.toNat _, bsetInside hp⟩
    case bflip =>
      refine ⟨_, withBit_lt hx hp _, fun q => ?_, bflipInside hp⟩
      rw [testBit_withBit]
      split
      · next hq => rw [hq]
      · rfl

/-! SIZE, COUNT, ANY and NONE. -/

/-- Settles O39: each query answers from the width and the value read. -/
theorem sizeCountAnyNoneAnswer : Obligations.SizeCountAnyNoneAnswer := by
  rintro s rs1 n x ⟨hc, hs⟩
  refine ⟨decodeOfEncode (.size rs1), decodeOfEncode (.count rs1), decodeOfEncode (.any rs1),
    decodeOfEncode (.none rs1), fun hu => ?unconstructed, fun h => ?holds⟩
  case unconstructed =>
    simp only [List.forall_mem_cons, List.not_mem_nil, false_implies, implies_true, and_true]
    have unconstructed := runCommand_readVec_unconstructed hs hu
    exact ⟨unconstructed _, unconstructed _, unconstructed _, unconstructed _⟩
  case holds =>
    have ⟨_, hn, hx, _⟩ := h
    have hany : (x != 0) = decide (x ≠ 0) := by rw [bne, beq_eq_decide, decide_not]
    refine ⟨?size, ?count, ?any, ?none⟩
    case size => exact h.query hc hs rfl rfl
    case count => exact h.query hc hs rfl ((popcount_mkVec hn hx).trans (popcount_eq_length_filter n x))
    case any => exact h.query hc hs ((anyFlag_mkVec hn hx).trans hany) rfl
    case none => exact h.query hc hs ((noneFlag_mkVec hn hx).trans (beq_eq_decide x 0)) rfl

/-! ALL. -/

/-- Settles O40: the value read is compared with `2^n - 1`, the value with every bit set. -/
theorem allTestsEveryBit : Obligations.AllTestsEveryBit := by
  rintro s rs1 n x ⟨hc, hs⟩
  refine ⟨decodeOfEncode (.all rs1), fun hu => ?unconstructed, fun h => ?holds⟩
  case unconstructed => exact runCommand_readVec_unconstructed hs hu _
  case holds =>
    have ⟨_, hn, hx, _⟩ := h
    have hflag : allFlag s.config (mkVec s.config n x) = decide (x = 2 ^ n - 1) :=
      (allFlag_mkVec hn hx).trans (beq_eq_decide x _)
    exact ⟨h.query hc hs hflag rfl, eq_two_pow_sub_one_iff hx⟩

/-! TONUM. -/

/-- Settles O41: the value read is answered modulo `2^64`. -/
theorem tonumAnswersLow64Bits : Obligations.TonumAnswersLow64Bits := by
  rintro s rs1 n x ⟨hc, hs⟩
  refine ⟨decodeOfEncode (.tonum rs1), fun hu => ?unconstructed, fun h => ?holds⟩
  case unconstructed => exact runCommand_readVec_unconstructed hs hu _
  case holds => exact h.query hc hs rfl (congrArg (· % 2 ^ 64) h.val)

end Sys2Proof.Machine
end

section
/-! PROOFS. The statements of 42_block_primitives.md: ADDB (R152) and SUBB (R153). Each command answers the result of one
block primitive on the low `W` bits of its operands, so what is left is the primitive's exact equation
(`addBlock_exact`, `subtractBlock_exact`), written with the carry or the borrow in front. -/

namespace Sys2Proof.Machine

/-- R152: ADDB reads no register and answers what `add_block` computes. -/
theorem exec_addb {s : State} (hs : isHalted s = false) (cin : Bool) :
    exec (.addb cin) s = .next (respond s (addBlock s.config.W (opaBlock s) (opbBlock s) cin).2
      (addBlock s.config.W (opaBlock s) (opbBlock s) cin).1) :=
  runCommand_ok hs rfl

/-- R153: SUBB reads no register and answers what `subtract_block` computes. -/
theorem exec_subb {s : State} (hs : isHalted s = false) (cin : Bool) :
    exec (.subb cin) s = .next (respond s (subtractBlock s.config.W (opaBlock s) (opbBlock s) cin).2
      (subtractBlock s.config.W (opaBlock s) (opbBlock s) cin).1) :=
  runCommand_ok hs rfl

/-- R151's equation on the integers, where `a - b - w` may be negative. -/
theorem subtractBlock_exact_int {W a b : Nat} (w : Bool) (ha : a < 2 ^ W) (hb : b < 2 ^ W) :
    (a : Int) - b - w.toNat = (subtractBlock W a b w).1 - (subtractBlock W a b w).2.toNat * 2 ^ W := by
  have exact_nat := congrArg (Nat.cast (R := Int)) (subtractBlock_exact w ha hb)
  push_cast at exact_nat
  linear_combination -exact_nat

/-- Settles O42: the answer is the block primitive's, which satisfies its exact equation. -/
theorem addbAndSubbAreExact : Obligations.AddbAndSubbAreExact := by
  rintro s cin _ _ hs rfl rfl
  refine ⟨decodeOfEncode (.addb cin), decodeOfEncode (.subb cin),
    ⟨_, _, addBlock_lt _ _ _ cin, ?sum, exec_addb hs cin⟩,
    ⟨_, _, subtractBlock_lt _ _ _ cin, ?difference, exec_subb hs cin⟩⟩
  case sum =>
    exact (addBlock_exact cin (opaBlock_lt s) (opbBlock_lt s)).symm.trans (by rw [Nat.add_comm, Nat.mul_comm])
  case difference => exact subtractBlock_exact_int cin (opaBlock_lt s) (opbBlock_lt s)

end Sys2Proof.Machine
end

section
/-! PROOFS. The statements of 43_shift.md: BSHL and BSHR (R166, R167), SSHL and SSHR (R168, R169), SHL and SHR (R170,
R171), and the shift pairs (R172; 49_arithmetic_laws.md R345).

All six commands have one shape (R173): read `rs1`, write to `rd` a vector of the same width, answer flag 0 and rdata 0
(`Holds.transform`). What the shift engine makes of `mk(n, x)` is said in Laws/Shift, so each command is one equation on
values (`Holds.exec_bshl` to `Holds.exec_shr`), and a shift pair is two of these equations in sequence. -/

namespace Sys2Proof.Machine

/-! The common part of the shift commands (43_shift.md R173). -/

/-- The state after a command that completes with `mk(n, y)` in `rd`, flag 0 and rdata 0. -/
def withResult (s : State) (rd : Reg) (n y : Nat) : State := respond (writeVec s rd (mkVec s.config n y)) false 0

section

variable {s : State} {rs1 : Reg} {n x : Nat}

/-- The command leaves the block ready for the next one. -/
theorem ready_withResult (hs : Ready s) (rd : Reg) (n y : Nat) : Ready (withResult s rd n y) := hs

/-- The next command finds the result in `rd`, at the width of the source. -/
theorem holds_withResult (h : Holds s rs1 n x) (rd : Reg) {y : Nat} (hy : y < 2 ^ n) :
    Holds (withResult s rd n y) rd n y := by
  have ⟨h1, hn, _, _⟩ := h
  exact holds_writeVec h1 hn hy

/-- A command that reads `rs1` and writes what `f` makes of it writes what `f` makes of `mk(n, x)`. -/
theorem Holds.transform (hs : Ready s) (h : Holds s rs1 n x) (rd : Reg) {f : Vec → Vec} {y : Nat}
    (hf : f (mkVec s.config n x) = mkVec s.config n y) :
    runCommand s (Machine.readVec s rs1 >>= fun a => .ok (respond (writeVec s rd (f a)) false 0))
      = .next (withResult s rd n y) := by
  obtain ⟨hc, hh⟩ := hs
  rw [runCommand_bind_ok (h.readVec hc), hf]
  exact runCommand_ok hh rfl

/-! The six commands on values. -/

variable (hs : Ready s) (h : Holds s rs1 n x) (rd : Reg) (a : Imm)

include hs h

/-- BSHL on values (43_shift.md R166). -/
theorem Holds.exec_bshl :
    exec (.bshl rd rs1 a) s = .next (withResult s rd n (x * 2 ^ (a.toNat * s.config.W) % 2 ^ n)) := by
  have ⟨_, hn, hx, _⟩ := h
  rw [Nat.mul_comm a.toNat]
  exact h.transform hs rd (wholeLeft_eq hn hx a.toNat)

/-- BSHR on values (43_shift.md R167). -/
theorem Holds.exec_bshr :
    exec (.bshr rd rs1 a) s = .next (withResult s rd n (x / 2 ^ (a.toNat * s.config.W))) := by
  have ⟨_, hn, hx, _⟩ := h
  rw [Nat.mul_comm a.toNat]
  exact h.transform hs rd (wholeRight_eq hn hx a.toNat)

/-- SSHL on values (43_shift.md R168). -/
theorem Holds.exec_sshl (ha : a.toNat < s.config.W) :
    exec (.sshl rd rs1 a) s = .next (withResult s rd n (x * 2 ^ a.toNat % 2 ^ n)) := by
  have ⟨_, hn, hx, _⟩ := h
  exact (runCommand_bind_ok (requireLegal_true (decide_eq_true ha))).trans (h.transform hs rd (subLeft_eq hn hx ha))

/-- SSHR on values (43_shift.md R169). -/
theorem Holds.exec_sshr (ha : a.toNat < s.config.W) :
    exec (.sshr rd rs1 a) s = .next (withResult s rd n (x / 2 ^ a.toNat)) := by
  have ⟨_, hn, hx, _⟩ := h
  exact (runCommand_bind_ok (requireLegal_true (decide_eq_true ha))).trans (h.transform hs rd (subRight_eq hn hx ha))

/-- SHL on values (43_shift.md R170). -/
theorem Holds.exec_shl :
    exec (.shl rd rs1 a) s = .next (withResult s rd n (x * 2 ^ a.toNat % 2 ^ n)) := by
  have ⟨_, hn, hx, _⟩ := h
  exact h.transform hs rd (shlVec_eq hn hx a.toNat)

/-- SHR on values (43_shift.md R171). -/
theorem Holds.exec_shr : exec (.shr rd rs1 a) s = .next (withResult s rd n (x / 2 ^ a.toNat)) := by
  have ⟨_, hn, hx, _⟩ := h
  exact h.transform hs rd (shrVec_eq hn hx a.toNat)

end

/-! BSHL and BSHR. -/

/-- Settles O43: the whole-block stage, left with a trim and right without one. -/
theorem blockShiftsMoveWholeBlocks : Obligations.BlockShiftsMoveWholeBlocks := by
  intro s rd rs1 k n x hs
  refine ⟨decodeOfEncode (.bshl rd rs1 k), decodeOfEncode (.bshr rd rs1 k), fun hu => ?unconstructed, fun h => ?holds⟩
  case unconstructed =>
    exact ⟨runCommand_readVec_unconstructed hs.2 hu _, runCommand_readVec_unconstructed hs.2 hu _⟩
  case holds => exact ⟨h.exec_bshl hs rd k, h.exec_bshr hs rd k⟩

/-! SSHL and SSHR. -/

section

variable {s : State} (hs : isHalted s = false) {r : Imm} (f : Unit → Except Cause State)

include hs

/-- An amount of `W` or more decides a sub-block shift, before anything is read (30_encoding.md R76). -/
theorem runCommand_subShift_illegal (hr : s.config.W ≤ r.toNat) :
    runCommand s (requireLegal (decide (r.toNat < s.config.W)) >>= f) = .next (enterFault s .illegalCommand) :=
  runCommand_bind_error hs (requireLegal_false (decide_eq_false (Nat.not_lt.mpr hr)))

/-- With an amount below `W` a sub-block shift comes to the read of its source. -/
theorem runCommand_subShift_unconstructed {rs1 : Reg} (hr : r.toNat < s.config.W) (hu : (regAt s rs1).n = 0)
    (g : Vec → Except Cause State) :
    runCommand s (requireLegal (decide (r.toNat < s.config.W)) >>= fun _ => readVec s rs1 >>= g)
      = .next (enterFault s .unconstructed) :=
  (runCommand_bind_ok (requireLegal_true (decide_eq_true hr))).trans (runCommand_readVec_unconstructed hs hu g)

end

/-- Settles O44: the check of the amount stands before the read; below `W` the sub-block stage is the shift. -/
theorem subBlockShiftsMoveBits : Obligations.SubBlockShiftsMoveBits := by
  intro s rd rs1 r n x hs
  refine ⟨decodeOfEncode (.sshl rd rs1 r), decodeOfEncode (.sshr rd rs1 r), fun hr => ?illegal,
    fun hr => ⟨fun hu => ?unconstructed, fun h => ?holds⟩⟩
  case illegal => exact ⟨runCommand_subShift_illegal hs.2 _ hr, runCommand_subShift_illegal hs.2 _ hr⟩
  case unconstructed =>
    exact ⟨runCommand_subShift_unconstructed hs.2 hr hu _, runCommand_subShift_unconstructed hs.2 hr hu _⟩
  case holds => exact ⟨h.exec_sshl hs rd r hr, h.exec_sshr hs rd r hr⟩

/-! SHL and SHR. -/

/-- Every bit of an `n`-bit vector is shifted out to the left by `n` or more. -/
theorem shiftLeft_mod_eq_zero {n a : Nat} (x : Nat) (ha : n ≤ a) : x * 2 ^ a % 2 ^ n = 0 :=
  Nat.mod_eq_zero_of_dvd (Dvd.dvd.mul_left (Nat.pow_dvd_pow 2 ha) x)

/-- Every bit of an `n`-bit vector is shifted out to the right by `n` or more. -/
theorem shiftRight_eq_zero {n a x : Nat} (hx : x < 2 ^ n) (ha : n ≤ a) : x / 2 ^ a = 0 :=
  Nat.div_eq_of_lt (lt_of_width ha hx)

/-- Settles O45: the composed shifts, zero from the width on. -/
theorem shiftsMoveBits : Obligations.ShiftsMoveBits := by
  intro s rd rs1 a n x hs
  refine ⟨decodeOfEncode (.shl rd rs1 a), decodeOfEncode (.shr rd rs1 a), fun hu => ?unconstructed, fun h => ?holds⟩
  case unconstructed =>
    exact ⟨runCommand_readVec_unconstructed hs.2 hu _, runCommand_readVec_unconstructed hs.2 hu _⟩
  case holds =>
    have ⟨_, _, hx, _⟩ := h
    exact ⟨h.exec_shl hs rd a, h.exec_shr hs rd a, fun ha => ⟨shiftLeft_mod_eq_zero x ha, shiftRight_eq_zero hx ha⟩⟩

/-! Shift pairs. -/

/-- Left, then right: the `k` most significant of `n` bits are cleared (43_shift.md R172). -/
theorem shiftLeft_shiftRight {n k : Nat} (x : Nat) (hk : k ≤ n) : x * 2 ^ k % 2 ^ n / 2 ^ k = x % 2 ^ (n - k) := by
  rw [← pow_sub_mul_pow 2 hk, Nat.mul_mod_mul_right, Nat.mul_div_cancel _ (Nat.two_pow_pos k)]

/-- Right, then left: the `k` least significant bits are cleared, and nothing leaves the width (43_shift.md R172). -/
theorem shiftRight_shiftLeft {n x : Nat} (k : Nat) (hx : x < 2 ^ n) :
    x / 2 ^ k * 2 ^ k % 2 ^ n = x - x % 2 ^ k := by
  rw [Nat.mod_eq_of_lt (lt_of_le_of_lt (Nat.div_mul_le_self x _) hx), Nat.div_mul_self_eq_mod_sub_self]

/-- Settles O59: the second shift of a pair reads the result of the first; a shift by 0 writes the value read, as MOV. -/
theorem shiftPairsClearOneEnd : Obligations.ShiftPairsClearOneEnd := by
  intro s rd rs1 k n x hs h
  have ⟨_, _, hx, _⟩ := h
  obtain ⟨_, _, mov⟩ := movCopiesTheVector s rd rs1 n x hs
  refine ⟨fun hk => ⟨?leftRight, ?rightLeft⟩, ?leftByZero, ?rightByZero⟩
  case leftRight =>
    have left := holds_withResult h rd (Nat.mod_lt (x * 2 ^ k.toNat) (Nat.two_pow_pos n))
    refine ⟨_, _, h.exec_shl hs rd k, left.exec_shr (ready_withResult hs rd n _) rd k, ?_⟩
    rw [← shiftLeft_shiftRight x hk.le]
    exact holds_withResult left rd (lt_of_le_of_lt (Nat.div_le_self _ _) (Nat.mod_lt _ (Nat.two_pow_pos n)))
  case rightLeft =>
    have right := holds_withResult h rd (lt_of_le_of_lt (Nat.div_le_self x (2 ^ k.toNat)) hx)
    refine ⟨_, _, h.exec_shr hs rd k, right.exec_shl (ready_withResult hs rd n _) rd k, ?_⟩
    rw [← shiftRight_shiftLeft k.toNat hx]
    exact holds_withResult right rd (Nat.mod_lt _ (Nat.two_pow_pos n))
  case leftByZero =>
    have hzero : x * 2 ^ (0 : Imm).toNat % 2 ^ n = x := by simp [Nat.mod_eq_of_lt hx]
    rw [h.exec_shl hs rd 0, hzero, mov h, withResult]
  case rightByZero =>
    have hzero : x / 2 ^ (0 : Imm).toNat = x := by simp
    rw [h.exec_shr hs rd 0, hzero, mov h, withResult]

end Sys2Proof.Machine
end

section
/-! PROOFS. The statements of 44_add_sub.md: ADD (R190, R193), SUB (R191, R194) and TWOC (R192).

The adder, the subtractor and the two's complement of `mk(n, x)` are computed in Laws/Adder, so each command is an
equation on values: one for each outcome of ADD and of TWOC (`Holds.exec_add`, `Holds.exec_add_overflow`), and a single
one for SUB, which discards its borrow. -/

namespace Sys2Proof.Machine

/-! The two sources of a binary operation. -/

/-- A binary operation with an unconstructed source raises `Unconstructed` (00_scope.md R13). -/
theorem runCommand_readVecs_unconstructed {s : State} (hs : isHalted s = false) {rs1 rs2 : Reg}
    (hu : (regAt s rs1).n = 0 ∨ (regAt s rs2).n = 0) (f : Vec × Vec → Except Cause State) :
    runCommand s (readVecs s rs1 rs2 >>= f) = .next (enterFault s .unconstructed) :=
  runCommand_bind_error hs (readVecs_unconstructed hu)

/-- Two constructed sources are read as the vectors they hold. -/
theorem Holds.readVecs {s : State} (hc : s.config.legal = true) {rs1 rs2 : Reg} {n1 n2 x y : Nat}
    (h1 : Holds s rs1 n1 x) (h2 : Holds s rs2 n2 y) :
    Machine.readVecs s rs1 rs2 = .ok (mkVec s.config n1 x, mkVec s.config n2 y) :=
  readVecs_ok (h1.readVec hc) (h2.readVec hc)

/-! ADD and SUB on values. -/

/-- The difference modulo `m` is `x - y`, or wraps once when `x < y` (44_add_sub.md R194). -/
theorem sub_wrap {m x y : Nat} (hx : x < m) (hy : y < m) :
    (m + x - y) % m = if y ≤ x then x - y else m - (y - x) := by
  split
  case isTrue hle => rw [show m + x - y = x - y + m by omega, Nat.add_mod_right, Nat.mod_eq_of_lt (by omega)]
  case isFalse hlt => rw [show m + x - y = m - (y - x) by omega, Nat.mod_eq_of_lt (by omega)]

section

variable {s : State} {rs1 rs2 : Reg} {n1 n2 x y : Nat} (hs : Ready s) (h1 : Holds s rs1 n1 x) (h2 : Holds s rs2 n2 y)
  (rd : Reg)

include hs h1 h2

/-- ADD on values, where the sum fits the larger width (44_add_sub.md R193). -/
theorem Holds.exec_add (hlt : x + y < 2 ^ max n1 n2) :
    exec (.add rd rs1 rs2) s = .next (withResult s rd (max n1 n2) (x + y)) := by
  have ⟨_, hn1, hx, _⟩ := h1
  have ⟨_, hn2, hy, _⟩ := h2
  have hsum := (addVec_eq hn1 hn2 hx hy).trans (if_pos hlt)
  exact (runCommand_bind_ok (h1.readVecs hs.1 h2)).trans ((runCommand_bind_ok hsum).trans (runCommand_ok hs.2 rfl))

/-- ADD on values, where the sum does not fit (44_add_sub.md R193, R195). -/
theorem Holds.exec_add_overflow (hle : 2 ^ max n1 n2 ≤ x + y) :
    exec (.add rd rs1 rs2) s = .next (enterFault s .overflow) := by
  have ⟨_, hn1, hx, _⟩ := h1
  have ⟨_, hn2, hy, _⟩ := h2
  have hsum := (addVec_eq hn1 hn2 hx hy).trans (if_neg (Nat.not_lt.mpr hle))
  exact (runCommand_bind_ok (h1.readVecs hs.1 h2)).trans (runCommand_bind_error hs.2 hsum)

/-- SUB on values, for every pair of them (44_add_sub.md R194). -/
theorem Holds.exec_sub :
    exec (.sub rd rs1 rs2) s
      = .next (withResult s rd (max n1 n2) (if y ≤ x then x - y else 2 ^ max n1 n2 - (y - x))) := by
  have ⟨_, hn1, hx, _⟩ := h1
  have ⟨_, hn2, hy, _⟩ := h2
  rw [← sub_wrap (lt_of_width (le_max_left n1 n2) hx) (lt_of_width (le_max_right n1 n2) hy), withResult,
    ← subVec_eq hn1 hn2 hx hy]
  exact (runCommand_bind_ok (h1.readVecs hs.1 h2)).trans (runCommand_ok hs.2 rfl)

end

/-- Settles O46: the bound `2^max(N1, N2)` on the sum decides between the two outcomes of the adder. -/
theorem addGivesSumOrOverflow : Obligations.AddGivesSumOrOverflow := by
  intro s rd rs1 rs2 n1 n2 x y hs
  refine ⟨decodeOfEncode (.add rd rs1 rs2), fun hu => ?unconstructed, fun h1 h2 =>
    ⟨fun hle => ?overflow, fun hlt => ?sum⟩⟩
  case unconstructed => exact runCommand_readVecs_unconstructed hs.2 hu _
  case overflow => exact h1.exec_add_overflow hs h2 rd hle
  case sum => exact h1.exec_add hs h2 rd hlt

/-- Settles O47: the subtractor has a result for every pair of values. -/
theorem subWraps : Obligations.SubWraps := by
  intro s rd rs1 rs2 n1 n2 x y hs
  refine ⟨decodeOfEncode (.sub rd rs1 rs2), fun hu => ?unconstructed, fun h1 h2 => ?difference⟩
  case unconstructed => exact runCommand_readVecs_unconstructed hs.2 hu _
  case difference => exact h1.exec_sub hs h2 rd

/-! TWOC on values. -/

section

variable {s : State} {rs1 : Reg} {n x : Nat} (hs : Ready s) (h : Holds s rs1 n x) (rd : Reg)

include hs h

/-- TWOC of a vector that is not zero (44_add_sub.md R192). -/
theorem Holds.exec_twoc (h0 : x ≠ 0) : exec (.twoc rd rs1) s = .next (withResult s rd n (2 ^ n - x)) := by
  have ⟨hpos, hn, hx, _⟩ := h
  have hneg := (twosComplement_eq hpos hn hx).trans (if_pos h0)
  exact (runCommand_bind_ok (h.readVec hs.1)).trans ((runCommand_bind_ok hneg).trans (runCommand_ok hs.2 rfl))

/-- TWOC of the zero vector: all bits flipped, plus 1, is `2^n` (44_add_sub.md R192, R195). -/
theorem Holds.exec_twoc_overflow (h0 : x = 0) : exec (.twoc rd rs1) s = .next (enterFault s .overflow) := by
  have ⟨hpos, hn, hx, _⟩ := h
  have hneg := (twosComplement_eq hpos hn hx).trans (if_neg (not_not_intro h0))
  exact (runCommand_bind_ok (h.readVec hs.1)).trans (runCommand_bind_error hs.2 hneg)

end

/-- Settles O48: zero is the one value whose complement plus 1 does not fit the width. -/
theorem twocNegatesOrOverflows : Obligations.TwocNegatesOrOverflows := by
  intro s rd rs1 n x hs
  refine ⟨decodeOfEncode (.twoc rd rs1), fun hu => ?unconstructed, fun h => ⟨fun h0 => ?overflow, fun h0 => ?negation⟩⟩
  case unconstructed => exact runCommand_readVec_unconstructed hs.2 hu _
  case overflow => exact h.exec_twoc_overflow hs rd h0
  case negation => exact h.exec_twoc hs rd h0

end Sys2Proof.Machine
end

section
/-! PROOFS. The statement of 45_multiply.md: MUL (R210, R211).

The shift-and-add loop over `mk(N1, x)` and `mk(N2, y)` is computed in Laws/MulDiv, where the choice of the driving
operand drops out. What is left of the command is the check of the product's width `N1 + N2`, one equation on values for
each of its outcomes (`Holds.exec_mul`, `Holds.exec_mul_widthError`). -/

namespace Sys2Proof.Machine

/-! MUL on values. -/

section

variable {s : State} {rs1 rs2 : Reg} {n1 n2 x y : Nat} (hs : Ready s) (h1 : Holds s rs1 n1 x) (h2 : Holds s rs2 n2 y)
  (rd : Reg)

include hs h1 h2

/-- MUL on values, where the product's width is within `NMAX` (45_multiply.md R211): the width is then enough for every
product, so no addition of the loop overflows. -/
theorem Holds.exec_mul (hle : n1 + n2 ≤ s.config.nmax) :
    exec (.mul rd rs1 rs2) s = .next (withResult s rd (n1 + n2) (x * y)) := by
  have ⟨hpos, _, hx, _⟩ := h1
  have ⟨_, _, hy, _⟩ := h2
  have hwidth := checkWidth_ok (Nat.le_add_right_of_le hpos) hle
  have hproduct := mulVec_eq hle hx hy
  exact (runCommand_bind_ok (h1.readVecs hs.1 h2)).trans <| (runCommand_bind_ok hwidth).trans <|
    (runCommand_bind_ok hproduct).trans (runCommand_ok hs.2 rfl)

/-- MUL on values, where the product's width is above `NMAX` (45_multiply.md R211): the check stands before the loop. -/
theorem Holds.exec_mul_widthError (hlt : s.config.nmax < n1 + n2) :
    exec (.mul rd rs1 rs2) s = .next (enterFault s .widthError) :=
  (runCommand_bind_ok (h1.readVecs hs.1 h2)).trans (runCommand_bind_error hs.2 (checkWidth_error (.inr hlt)))

end

/-- Settles O49: the bound `NMAX` on `N1 + N2` decides between the two outcomes of the multiplier. -/
theorem mulGivesProduct : Obligations.MulGivesProduct := by
  intro s rd rs1 rs2 n1 n2 x y hs
  refine ⟨decodeOfEncode (.mul rd rs1 rs2), fun hu => ?unconstructed, fun h1 h2 =>
    ⟨fun hlt => ?widthError, fun hle => ?product⟩⟩
  case unconstructed => exact runCommand_readVecs_unconstructed hs.2 hu _
  case widthError => exact h1.exec_mul_widthError hs h2 rd hlt
  case product => exact h1.exec_mul hs h2 rd hle

end Sys2Proof.Machine
end

section
/-! PROOFS. The statements of 46_divide.md: DIV and REM (R222, R223) and DIVR (R224), over `divrem_v` (R220).

The restoring divider over `mk(N1, x)` and `mk(N2, y)` is computed in Laws/MulDiv. The three commands differ only in what
they write, and DIVR in the check before it, so their common part (`divideAnd`) is settled once for each outcome: a source
that is unconstructed, a zero divisor, and a quotient with its remainder. -/

namespace Sys2Proof.Machine

/-! The common part of the divide commands. -/

/-- Both sources are read and divided; the quotient and the remainder go to `write` (46_divide.md R220). -/
def divideAnd (s : State) (rs1 rs2 : Reg) (write : Vec → Vec → State) : Except Cause State := do
  let (a, b) ← readVecs s rs1 rs2
  let (q, r) ← divRemVec s.config a b
  .ok (write q r)

theorem exec_div (s : State) (rd rs1 rs2 : Reg) :
    exec (.div rd rs1 rs2) s
      = runCommand s (divideAnd s rs1 rs2 fun q _ => respond (writeVec s rd q) false 0) := rfl

theorem exec_rem (s : State) (rd rs1 rs2 : Reg) :
    exec (.rem rd rs1 rs2) s
      = runCommand s (divideAnd s rs1 rs2 fun _ r => respond (writeVec s rd r) false 0) := rfl

/-- With two different destinations DIVR comes to the read of its sources (46_divide.md R224). -/
theorem exec_divr_of_ne (s : State) {rd rd2 : Reg} (hne : rd2 ≠ rd) (rs1 rs2 : Reg) :
    exec (.divr rd rd2 rs1 rs2) s
      = runCommand s (divideAnd s rs1 rs2 fun q r => respond (writeVec (writeVec s rd q) rd2 r) false 0) :=
  runCommand_bind_ok (requireLegal_true (decide_eq_true hne))

/-- Equal destinations decide DIVR, before anything is read (46_divide.md R224). -/
theorem exec_divr_of_eq {s : State} (hs : isHalted s = false) {rd rd2 : Reg} (heq : rd2 = rd) (rs1 rs2 : Reg) :
    exec (.divr rd rd2 rs1 rs2) s = .next (enterFault s .illegalCommand) :=
  runCommand_bind_error hs (requireLegal_false (decide_eq_false (not_not_intro heq)))

theorem runCommand_divideAnd_unconstructed {s : State} (hs : isHalted s = false) {rs1 rs2 : Reg}
    (hu : (regAt s rs1).n = 0 ∨ (regAt s rs2).n = 0) (write : Vec → Vec → State) :
    runCommand s (divideAnd s rs1 rs2 write) = .next (enterFault s .unconstructed) :=
  runCommand_readVecs_unconstructed hs hu _

section

variable {s : State} {rs1 rs2 : Reg} {n1 n2 x y : Nat} (hs : Ready s) (h1 : Holds s rs1 n1 x) (h2 : Holds s rs2 n2 y)
  (write : Vec → Vec → State)

include hs h1 h2

/-- A zero divisor decides a divide command, whatever the dividend (46_divide.md R220). -/
theorem Holds.divideAnd_divisionByZero (hy0 : y = 0) :
    runCommand s (divideAnd s rs1 rs2 write) = .next (enterFault s .divisionByZero) := by
  have ⟨_, hn1, hx, _⟩ := h1
  have ⟨_, hn2, hy, _⟩ := h2
  have hfault := (divRemVec_eq hn1 hn2 hx hy).trans (if_pos hy0)
  exact (runCommand_bind_ok (h1.readVecs hs.1 h2)).trans (runCommand_bind_error hs.2 hfault)

/-- By any other divisor the quotient and the remainder are written, both at the dividend's width (46_divide.md R220). -/
theorem Holds.divideAnd_write (hy0 : y ≠ 0) :
    runCommand s (divideAnd s rs1 rs2 write)
      = .next (write (mkVec s.config n1 (x / y)) (mkVec s.config n1 (x % y))) := by
  have ⟨_, hn1, hx, _⟩ := h1
  have ⟨_, hn2, hy, _⟩ := h2
  have hresult := (divRemVec_eq hn1 hn2 hx hy).trans (if_neg hy0)
  exact (runCommand_bind_ok (h1.readVecs hs.1 h2)).trans ((runCommand_bind_ok hresult).trans (runCommand_ok hs.2 rfl))

end

/-! DIV and REM. -/

/-- Settles O50: DIV writes the first and REM the second result of one division. -/
theorem divAndRemGiveQuotientAndRemainder : Obligations.DivAndRemGiveQuotientAndRemainder := by
  intro s rd rs1 rs2 n1 n2 x y hs
  rw [exec_div, exec_rem]
  refine ⟨decodeOfEncode (.div rd rs1 rs2), decodeOfEncode (.rem rd rs1 rs2), fun hu => ?unconstructed, fun h1 h2 =>
    ⟨fun hy0 => ?divisionByZero, fun hy0 => ?results⟩⟩
  case unconstructed =>
    exact ⟨runCommand_divideAnd_unconstructed hs.2 hu _, runCommand_divideAnd_unconstructed hs.2 hu _⟩
  case divisionByZero =>
    exact ⟨h1.divideAnd_divisionByZero hs h2 _ hy0, h1.divideAnd_divisionByZero hs h2 _ hy0⟩
  case results => exact ⟨h1.divideAnd_write hs h2 _ hy0, h1.divideAnd_write hs h2 _ hy0⟩

/-! DIVR. -/

/-- Settles O51: the check of the destinations stands before the reads; past it DIVR writes both results. -/
theorem divrGivesBoth : Obligations.DivrGivesBoth := by
  intro s rd rd2 rs1 rs2 n1 n2 x y hs
  refine ⟨decodeOfEncode (.divr rd rd2 rs1 rs2), fun heq => exec_divr_of_eq hs.2 heq rs1 rs2, fun hne => ?different⟩
  rw [exec_divr_of_ne s hne]
  refine ⟨fun hu => ?unconstructed, fun h1 h2 => ⟨fun hy0 => ?divisionByZero, fun hy0 => ?results⟩⟩
  case unconstructed => exact runCommand_divideAnd_unconstructed hs.2 hu _
  case divisionByZero => exact h1.divideAnd_divisionByZero hs h2 _ hy0
  case results => exact h1.divideAnd_write hs h2 _ hy0

end Sys2Proof.Machine
end

section
/-! PROOFS. The statements of 47_logic_compare.md: AND and OR (R240, R241), NOT (R242) and CMP (R243).

What the blockwise operations make of `mk(N1, x)` and `mk(N2, y)` is computed in Laws/Adder, and their comparison in
Laws/MulDiv, so each command is one equation on values (`Holds.exec_and` to `Holds.exec_cmp`). A value's bits beyond its
width are 0, so AND and OR of the values are AND and OR of the vectors bit by bit, whatever the widths. -/

namespace Sys2Proof.Machine

/-! AND and OR on values. -/

section

variable {s : State} {rs1 rs2 : Reg} {n1 n2 x y : Nat} (hs : Ready s) (h1 : Holds s rs1 n1 x) (h2 : Holds s rs2 n2 y)
  (rd : Reg)

include hs h1 h2

/-- A command that reads two sources and writes what `f` makes of them writes what `f` makes of `mk(N1, x)` and
`mk(N2, y)`. -/
theorem Holds.combine {f : Vec → Vec → Vec} {n z : Nat}
    (hf : f (mkVec s.config n1 x) (mkVec s.config n2 y) = mkVec s.config n z) :
    runCommand s (Machine.readVecs s rs1 rs2 >>= fun p => .ok (respond (writeVec s rd (f p.1 p.2)) false 0))
      = .next (withResult s rd n z) := by
  rw [runCommand_bind_ok (h1.readVecs hs.1 h2), hf]
  exact runCommand_ok hs.2 rfl

/-- AND on values (47_logic_compare.md R240). -/
theorem Holds.exec_and : exec (.and rd rs1 rs2) s = .next (withResult s rd (max n1 n2) (x &&& y)) := by
  have ⟨_, hn1, hx, _⟩ := h1
  have ⟨_, hn2, hy, _⟩ := h2
  exact h1.combine hs h2 rd (andVec_eq hn1 hn2 hx hy)

/-- OR on values (47_logic_compare.md R241). -/
theorem Holds.exec_or : exec (.or rd rs1 rs2) s = .next (withResult s rd (max n1 n2) (x ||| y)) := by
  have ⟨_, hn1, hx, _⟩ := h1
  have ⟨_, hn2, hy, _⟩ := h2
  exact h1.combine hs h2 rd (orVec_eq hn1 hn2 hx hy)

end

/-- Settles O52: the bits of `x &&& y` and `x ||| y`, which both fit the larger width. -/
theorem andAndOrAreBitwise : Obligations.AndAndOrAreBitwise := by
  intro s rd rs1 rs2 n1 n2 x y hs
  refine ⟨decodeOfEncode (.and rd rs1 rs2), decodeOfEncode (.or rd rs1 rs2), fun hu => ?unconstructed,
    fun h1 h2 => ?holds⟩
  case unconstructed =>
    exact ⟨runCommand_readVecs_unconstructed hs.2 hu _, runCommand_readVecs_unconstructed hs.2 hu _⟩
  case holds =>
    have ⟨_, _, hx, _⟩ := h1
    have ⟨_, _, hy, _⟩ := h2
    have hxm : x < 2 ^ max n1 n2 := lt_of_width (le_max_left n1 n2) hx
    have hym : y < 2 ^ max n1 n2 := lt_of_width (le_max_right n1 n2) hy
    exact ⟨⟨x &&& y, Nat.and_lt_two_pow x hym, Nat.testBit_and x y, h1.exec_and hs h2 rd⟩,
      ⟨x ||| y, Nat.or_lt_two_pow hxm hym, Nat.testBit_or x y, h1.exec_or hs h2 rd⟩⟩

/-! NOT. -/

/-- NOT on values (47_logic_compare.md R242). -/
theorem Holds.exec_not {s : State} {rs1 : Reg} {n x : Nat} (hs : Ready s) (h : Holds s rs1 n x) (rd : Reg) :
    exec (.not rd rs1) s = .next (withResult s rd n (2 ^ n - 1 - x)) := by
  have ⟨_, hn, hx, _⟩ := h
  exact h.transform hs rd (notVec_eq hn hx)

/-- Subtraction from the value with all `n` bits set borrows nowhere: it flips each of the `n` bits. -/
theorem testBit_two_pow_sub_one_sub {n x p : Nat} (hx : x < 2 ^ n) (hp : p < n) :
    (2 ^ n - 1 - x).testBit p = !x.testBit p := by
  rw [Nat.sub_sub, Nat.add_comm 1 x, Nat.testBit_two_pow_sub_succ hx, decide_eq_true hp, Bool.true_and]

/-- Settles O53: the negated vector has the value `2^n - 1 - x`, and that value the flipped bits. -/
theorem notInvertsTheLogicalBits : Obligations.NotInvertsTheLogicalBits := by
  intro s rd rs1 n x hs
  refine ⟨decodeOfEncode (.not rd rs1), fun hu => ?unconstructed, fun h => ⟨?value, fun p hp => ?bits⟩⟩
  case unconstructed => exact runCommand_readVec_unconstructed hs.2 hu _
  case value => exact h.exec_not hs rd
  case bits =>
    have ⟨_, _, hx, _⟩ := h
    exact testBit_two_pow_sub_one_sub hx hp

/-! CMP. -/

/-- The flag of CMP, from the values compared (47_logic_compare.md R243). -/
theorem cmpFlag_compare (x y : Nat) : cmpFlag (compare x y) = decide (x = y) := by
  rw [cmpFlag, beq_eq_decide]
  exact decide_eq_decide.mpr compare_eq_iff_eq

/-- The answer of CMP, from the values compared (47_logic_compare.md R243). -/
theorem cmpNumber_compare (x y : Nat) : cmpNumber (compare x y) = if x = y then 0 else if x < y then 1 else 2 := by
  rcases lt_trichotomy x y with less | equal | greater
  · rw [compare_lt_iff_lt.mpr less, if_neg less.ne, if_pos less, cmpNumber]
  · rw [compare_eq_iff_eq.mpr equal, if_pos equal, cmpNumber]
  · rw [compare_gt_iff_gt.mpr greater, if_neg greater.ne', if_neg greater.asymm, cmpNumber]

/-- CMP on values (47_logic_compare.md R243): the comparison reads them whole, so the widths do not matter. -/
theorem Holds.exec_cmp {s : State} {rs1 rs2 : Reg} {n1 n2 x y : Nat} (hs : Ready s) (h1 : Holds s rs1 n1 x)
    (h2 : Holds s rs2 n2 y) :
    exec (.cmp rs1 rs2) s
      = .next (respond s (decide (x = y)) (if x = y then 0 else if x < y then 1 else 2)) := by
  have ⟨_, hn1, hx, _⟩ := h1
  have ⟨_, hn2, hy, _⟩ := h2
  rw [← cmpFlag_compare, ← cmpNumber_compare, ← ucmp_eq hn1 hn2 hx hy]
  exact (runCommand_bind_ok (h1.readVecs hs.1 h2)).trans (runCommand_ok hs.2 rfl)

/-- Settles O54: the sources' values decide the answer. -/
theorem cmpComparesValues : Obligations.CmpComparesValues := by
  intro s rs1 rs2 n1 n2 x y hs
  refine ⟨decodeOfEncode (.cmp rs1 rs2), fun hu => ?unconstructed, fun h1 h2 => ?holds⟩
  case unconstructed => exact runCommand_readVecs_unconstructed hs.2 hu _
  case holds => exact h1.exec_cmp hs h2

end Sys2Proof.Machine
end

section
/-! PROOFS. The statements of 48_system.md: NOP (R260) and RDSR (R261).

Both come down to the decoder's row of the instruction and to `systemRegister`, which has a value for 0 to 2 and none
above. RDSR is the one command that may execute in the FAULTED state: every other one is refused there
(`exec_halted`). -/

namespace Sys2Proof.Machine

/-! The FAULTED state. -/

/-- RDSR of a system register that exists executes, in and out of the FAULTED state (48_system.md R261). -/
theorem exec_rdsr_of_some {s : State} {imm : Imm} {v : Nat} (hv : systemRegister s imm.toNat = some v) :
    exec (.rdsr imm) s = .next (respond s false v) := by
  simp only [exec, execRdsr, hv]

/-- RDSR of a number above 2 is rejected as a word that is no instruction is (48_system.md R261). -/
theorem exec_rdsr_of_gt {s : State} {imm : Imm} (himm : 2 < imm.toNat) : exec (.rdsr imm) s = rejectCommand s := by
  simp only [exec, execRdsr, systemRegister_of_gt himm]

/-- Every command but a legal RDSR is checked for the FAULTED state first (30_encoding.md R75, step 1). -/
theorem exec_eq_runCommand {i : Instr} (hi : ∀ imm, i = .rdsr imm → 2 < imm.toNat) (s : State) :
    ∃ body, exec i s = runCommand s body := by
  cases i with
  | rdsr imm => exact ⟨_, exec_rdsr_of_gt (hi imm rfl)⟩
  | nop | addb cin | subb cin => exact ⟨.ok _, rfl⟩
  | _ => exact ⟨_, rfl⟩

/-- In the FAULTED state every command but a legal RDSR answers `Halted` (60_exceptions.md R279). -/
theorem exec_halted {i : Instr} {s : State} (hs : isHalted s = true)
    (hi : ∀ imm, i = .rdsr imm → 2 < imm.toNat := by simp) : exec i s = .next (answerHalted s) := by
  obtain ⟨body, e⟩ := exec_eq_runCommand hi s
  exact e.trans (runCommand_halted hs body)

/-! NOP. -/

/-- Settles O30: with its opcode, a word that is accepted is the encoding of NOP, which is one word. -/
theorem nopCompletes : Obligations.NopCompletes := by
  have word : encode .nop = 0x04000000#32 := by decide
  refine ⟨?accepted, fun w hop hw => ?rejected, fun s => ⟨fun hs => exec_halted hs, fun hs => ?completes⟩⟩
  case accepted => exact word ▸ decodeOfEncode .nop
  case rejected =>
    rcases hz : Instr.nop.format.reservedZero w with _ | _
    · exact decode_of_reserved (i := .nop) hop hz
    · exact absurd ((encode_reread (i := .nop) hop hz).symm.trans word) hw
  case completes => exact runCommand_ok hs rfl

/-! RDSR. -/

/-- Settles O31: `CFG` is written out by `toNat_cfgWord`; `FSR` and `FCMD` are answered as they stand. -/
theorem rdsrReadsSystemRegisters : Obligations.RdsrReadsSystemRegisters := by
  refine ⟨fun imm => decodeOfEncode (.rdsr imm), fun s hc => ⟨?cfg, ?fsr, ?fcmd, fun imm himm => ?illegal⟩⟩
  case cfg => exact exec_rdsr_of_some (congrArg some (toNat_cfgWord hc))
  case fsr => exact exec_rdsr_of_some rfl
  case fcmd => exact exec_rdsr_of_some rfl
  case illegal =>
    rw [exec_rdsr_of_gt himm]
    exact ⟨fun hs => runCommand_error hs rfl, fun hs => runCommand_halted hs _⟩

end Sys2Proof.Machine
end

section
/-! PROOFS. The laws of 49_arithmetic_laws.md: LDI and TONUM (R340), commutativity (R342), associativity (R343),
division against multiplication (R344), and operands of different widths (R346).

The commands have equations on values (`Holds.exec_add` to `Holds.exec_cmp`); in a sequence, the next command finds the
result in its register (`holds_result`) and every other register as it was (`Holds.withResult_other`). What is left is
arithmetic on the values. -/

namespace Sys2Proof.Machine

/-! Commands in sequence. -/

section

variable {s : State} {rd : Reg} {n y : Nat}

/-- A command's result leaves every other register as it is (10_state.md R29). -/
theorem Holds.withResult_other {r : Reg} {m x : Nat} (h : Holds s r m x) (hr : rd ≠ r) :
    Holds (withResult s rd n y) r m x :=
  h.writeVec_other _ hr.symm

theorem regAt_withResult : regAt (withResult s rd n y) rd = (mkVec s.config n y).toReg := by
  rw [withResult, respond_regAt, regAt_writeVec_same]

variable (h1 : 1 ≤ n) (hn : n ≤ s.config.nmax) (hy : y < 2 ^ n)

include h1 hn hy

/-- The register a command wrote holds the result, at whatever width. -/
theorem holds_result : Holds (withResult s rd n y) rd n y := holds_writeVec h1 hn hy

/-- The value of the register a command wrote is the result (10_state.md R24). -/
theorem valueAt_withResult (hs : Ready s) : valueAt (withResult s rd n y) rd = y :=
  ((holds_result h1 hn hy).eq_width_and_value (ready_withResult hs rd n y).1).2.symm

end

/-! LDI, then TONUM. -/

/-- Settles O55: LDI keeps an integer that fits the width, and TONUM one that fits 64 bits. -/
theorem loadThenReadRoundTrip : Obligations.LoadThenReadRoundTrip := by
  intro s rd imm hs h1 hn hopa
  have fits : s.port.opa.toNat < 2 ^ imm.toNat := lt_of_width (min_le_left _ _) hopa
  obtain ⟨-, -, -, construct⟩ := zeroAndLdiConstruct s rd imm hs
  obtain ⟨-, ldi⟩ := construct h1 hn
  rw [Nat.mod_eq_of_lt fits] at ldi
  obtain ⟨-, -, read⟩ := tonumAnswersLow64Bits _ rd _ _ (ready_withResult hs rd imm.toNat s.port.opa.toNat)
  have tonum := read (holds_result h1 hn fits)
  rw [Nat.mod_eq_of_lt s.port.opa.isLt] at tonum
  exact ⟨_, ldi, tonum⟩

/-! ADD and MUL commute. -/

section

variable {s : State} {rs1 rs2 : Reg} {n1 n2 x y : Nat} (hs : Ready s) (h1 : Holds s rs1 n1 x) (h2 : Holds s rs2 n2 y)
  (rd : Reg)

include hs h1 h2

/-- Both outcomes of ADD, from the widths and the values. -/
theorem Holds.exec_add_eq : exec (.add rd rs1 rs2) s
    = .next (if x + y < 2 ^ max n1 n2 then withResult s rd (max n1 n2) (x + y) else enterFault s .overflow) := by
  split
  case isTrue hlt => exact h1.exec_add hs h2 rd hlt
  case isFalse hle => exact h1.exec_add_overflow hs h2 rd (Nat.le_of_not_lt hle)

/-- Both outcomes of MUL, from the widths and the values. -/
theorem Holds.exec_mul_eq : exec (.mul rd rs1 rs2) s
    = .next (if n1 + n2 ≤ s.config.nmax then withResult s rd (n1 + n2) (x * y) else enterFault s .widthError) := by
  split
  case isTrue hle => exact h1.exec_mul hs h2 rd hle
  case isFalse hlt => exact h1.exec_mul_widthError hs h2 rd (Nat.lt_of_not_le hlt)

end

/-- Settles O56: the outcome of each command is symmetric in its sources: as a refusal, as `Unconstructed`, and as a
function of the two vectors held. -/
theorem additionAndMultiplicationCommute : Obligations.AdditionAndMultiplicationCommute := by
  intro s rd rs1 rs2 hinv
  rcases hs : isHalted s with _ | _
  case true =>
    rw [exec_halted hs, exec_halted hs, exec_halted hs, exec_halted hs]
    exact ⟨rfl, rfl⟩
  case false =>
    have ready : Ready s := ⟨hinv.1, hs⟩
    by_cases hu : (regAt s rs1).n = 0 ∨ (regAt s rs2).n = 0
    case pos =>
      have unconstructed := runCommand_readVecs_unconstructed hs hu
      have swapped := runCommand_readVecs_unconstructed hs hu.symm
      exact ⟨(unconstructed _).trans (swapped _).symm, (unconstructed _).trans (swapped _).symm⟩
    case neg =>
      rw [not_or] at hu
      obtain ⟨n1, x, h1⟩ := (holds_or_unconstructed hinv rs1).resolve_left hu.1
      obtain ⟨n2, y, h2⟩ := (holds_or_unconstructed hinv rs2).resolve_left hu.2
      rw [h1.exec_add_eq ready h2, h2.exec_add_eq ready h1, h1.exec_mul_eq ready h2, h2.exec_mul_eq ready h1,
        max_comm n1, Nat.add_comm x, Nat.add_comm n1, Nat.mul_comm x]
      exact ⟨rfl, rfl⟩

/-! ADD and MUL associate. -/

/-- The product of values of `n` and `m` bits has `n + m` bits. -/
theorem mul_lt_width {n m x y : Nat} (hx : x < 2 ^ n) (hy : y < 2 ^ m) : x * y < 2 ^ (n + m) := by
  rw [Nat.pow_add]
  exact Nat.mul_lt_mul'' hx hy

/-- Settles O57: each sequence is two commands on values; a sum or product of all three fits the final width, and the
bound of R343 on the sum makes both inner sums fit theirs. -/
theorem additionAndMultiplicationAssociate : Obligations.AdditionAndMultiplicationAssociate := by
  intro s a b c d e n1 n2 n3 x y z hs ha hb hc hda hdc
  have ⟨h1, hn1, hx, _⟩ := ha
  have ⟨h2, hn2, hy, _⟩ := hb
  have ⟨_, hn3, hz, _⟩ := hc
  refine ⟨fun hsum => ?sum, fun hwidth => ?product⟩
  case sum =>
    have fits : ∀ {m}, min (max n1 n2) (max n2 n3) ≤ m → x + y + z < 2 ^ m := fun h => lt_of_width h hsum
    have hxy : x + y < 2 ^ max n1 n2 := lt_of_le_of_lt (Nat.le_add_right _ z) (fits (min_le_left _ _))
    have hyz : y + z < 2 ^ max n2 n3 := lt_of_le_of_lt (by omega) (fits (min_le_right _ _))
    have hxyz : x + y + z < 2 ^ max (max n1 n2) n3 := fits (min_le_of_left_le (le_max_left _ _))
    have left : Holds (withResult s d (max n1 n2) (x + y)) d (max n1 n2) (x + y) :=
      holds_result (le_max_of_le_left h1) (max_le hn1 hn2) hxy
    have right : Holds (withResult s d (max n2 n3) (y + z)) d (max n2 n3) (y + z) :=
      holds_result (le_max_of_le_left h2) (max_le hn2 hn3) hyz
    refine ⟨_, _, _, _, ha.exec_add hs hb d hxy,
      left.exec_add (ready_withResult hs d _ _) (hc.withResult_other hdc) e hxyz, hb.exec_add hs hc d hyz,
      (ha.withResult_other hda).exec_add (ready_withResult hs d _ _) right e ?_, ?_, ?_⟩
    · rwa [← Nat.add_assoc, ← max_assoc]
    · rw [← max_assoc]
      exact holds_result (le_max_of_le_left (le_max_of_le_left h1)) (max_le (max_le hn1 hn2) hn3) hxyz
    · rw [regAt_withResult, regAt_withResult, Nat.add_assoc, max_assoc]
      rfl
  case product =>
    have hxyz : x * y * z < 2 ^ (n1 + n2 + n3) := mul_lt_width (mul_lt_width hx hy) hz
    have hn12 : n1 + n2 ≤ s.config.nmax := by omega
    have hn23 : n2 + n3 ≤ s.config.nmax := by omega
    have left : Holds (withResult s d (n1 + n2) (x * y)) d (n1 + n2) (x * y) :=
      holds_result (by omega) hn12 (mul_lt_width hx hy)
    have right : Holds (withResult s d (n2 + n3) (y * z)) d (n2 + n3) (y * z) :=
      holds_result (by omega) hn23 (mul_lt_width hy hz)
    refine ⟨_, _, _, _, ha.exec_mul hs hb d hn12,
      left.exec_mul (ready_withResult hs d _ _) (hc.withResult_other hdc) e hwidth, hb.exec_mul hs hc d hn23,
      (ha.withResult_other hda).exec_mul (ready_withResult hs d _ _) right e ?_, ?_, ?_⟩
    · rwa [← Nat.add_assoc]
    · exact holds_result (by omega) hwidth hxyz
    · rw [regAt_withResult, regAt_withResult, Nat.mul_assoc, Nat.add_assoc]
      rfl

/-! Division against multiplication. -/

section

variable {s : State} {rs1 rs2 : Reg} {n1 n2 x y : Nat} (hs : Ready s) (h1 : Holds s rs1 n1 x) (h2 : Holds s rs2 n2 y)
  (rd : Reg) (hy0 : y ≠ 0)

include hs h1 h2 hy0

/-- DIV on values, by a divisor that is not zero (46_divide.md R222). -/
theorem Holds.exec_div : exec (.div rd rs1 rs2) s = .next (withResult s rd n1 (x / y)) :=
  (Machine.exec_div s rd rs1 rs2).trans (h1.divideAnd_write hs h2 _ hy0)

/-- REM on values, by a divisor that is not zero (46_divide.md R223). -/
theorem Holds.exec_rem : exec (.rem rd rs1 rs2) s = .next (withResult s rd n1 (x % y)) :=
  (Machine.exec_rem s rd rs1 rs2).trans (h1.divideAnd_write hs h2 _ hy0)

end

section

variable {s : State} {a b q r : Reg} {n1 n2 x y : Nat} (hs : Ready s) (ha : Holds s a n1 x) (hb : Holds s b n2 y)

include hs ha hb

/-- DIV, then REM: the quotient, the remainder and both sources are at hand. -/
theorem Holds.div_rem (hy0 : y ≠ 0) (hqa : q ≠ a) (hqb : q ≠ b) (hra : r ≠ a) (hrb : r ≠ b) (hrq : r ≠ q) :
    ∃ s1 s2, exec (.div q a b) s = .next s1 ∧ exec (.rem r a b) s1 = .next s2 ∧ Ready s2 ∧ s2.config = s.config ∧
      Holds s2 a n1 x ∧ Holds s2 b n2 y ∧ Holds s2 q n1 (x / y) ∧ Holds s2 r n1 (x % y) := by
  have ⟨h1, hn1, hx, _⟩ := ha
  have ready : Ready (withResult s q n1 (x / y)) := ready_withResult hs q _ _
  have ha' : Holds (withResult s q n1 (x / y)) a n1 x := ha.withResult_other hqa
  have hb' : Holds (withResult s q n1 (x / y)) b n2 y := hb.withResult_other hqb
  have quotient : Holds (withResult s q n1 (x / y)) q n1 (x / y) :=
    holds_result h1 hn1 (lt_of_le_of_lt (Nat.div_le_self x y) hx)
  exact ⟨_, _, ha.exec_div hs hb q hy0, ha'.exec_rem ready hb' r hy0, ready_withResult ready r _ _, rfl,
    ha'.withResult_other hra, hb'.withResult_other hrb, quotient.withResult_other hrq,
    holds_result h1 hn1 (lt_of_le_of_lt (Nat.mod_le x y) hx)⟩

/-- MUL, then ADD, then CMP: the product of the quotient and `y` fits its width, and with the remainder it is `x`
again. -/
theorem Holds.mul_add_cmp {p : Reg} (hq : Holds s q n1 (x / y)) (hr : Holds s r n1 (x % y))
    (hwidth : n1 + n2 ≤ s.config.nmax) (hpa : p ≠ a) (hpr : p ≠ r) :
    ∃ s3 s4 s5, exec (.mul p q b) s = .next s3 ∧ exec (.add p p r) s3 = .next s4 ∧ exec (.cmp p a) s4 = .next s5 ∧
      s5.response = some { status := .ok, flag := true, rdata := 0 } := by
  have ⟨h1, _, hx, _⟩ := ha
  have ⟨_, _, hy, _⟩ := hb
  have ⟨_, _, hdiv, _⟩ := hq
  have hsum : x / y * y + x % y = x := Nat.div_add_mod' x y
  have hmax : max (n1 + n2) n1 = n1 + n2 := max_eq_left (Nat.le_add_right n1 n2)
  have fits : x < 2 ^ (n1 + n2) := lt_of_width (Nat.le_add_right n1 n2) hx
  have ready : Ready (withResult s p (n1 + n2) (x / y * y)) := ready_withResult hs p _ _
  have product : Holds (withResult s p (n1 + n2) (x / y * y)) p (n1 + n2) (x / y * y) :=
    holds_result (Nat.le_add_right_of_le h1) hwidth (mul_lt_width hdiv hy)
  have add := product.exec_add ready (hr.withResult_other hpr) p (by rwa [hsum, hmax])
  rw [hsum, hmax] at add
  have sum : Holds (withResult (withResult s p (n1 + n2) (x / y * y)) p (n1 + n2) x) p (n1 + n2) x :=
    holds_result (Nat.le_add_right_of_le h1) hwidth fits
  have cmp := sum.exec_cmp (ready_withResult ready p _ _) ((ha.withResult_other hpa).withResult_other hpa)
  exact ⟨_, _, _, hq.exec_mul hs hb p hwidth, add, cmp, by simp⟩

end

/-- Settles O58: the two halves of the sequence, the second from the state the first leaves. -/
theorem divisionMultiplicationRelation : Obligations.DivisionMultiplicationRelation := by
  intro s a b q r p n1 n2 x y hs ha hb hy0 hwidth hqa hqb hra hrb hrq hpa hpr
  obtain ⟨s1, s2, div, rem, ready, hconfig, ha2, hb2, hq2, hr2⟩ := ha.div_rem hs hb hy0 hqa hqb hra hrb hrq
  obtain ⟨s3, s4, s5, mul, add, cmp, hresponse⟩ := ha2.mul_add_cmp ready hb2 hq2 hr2 (hconfig ▸ hwidth) hpa hpr
  exact ⟨s1, s2, s3, s4, s5, div, rem, mul, add, cmp, hresponse⟩

/-! Operands of different widths. -/

section

variable {s : State} {a b a' b' : Reg} {n1 n2 x y : Nat} (hs : Ready s) (ha : Holds s a n1 x) (hb : Holds s b n2 y)
  (ha' : Holds s a' (max n1 n2) x) (hb' : Holds s b' (max n1 n2) y) (rd : Reg)

include hs ha hb ha' hb'

/-- Two runs of a divide command that write the same result, one at each width: both fault, or both complete with the
same response and the same value. -/
theorem Holds.divideAnd_widen {pick : Vec → Vec → Vec} {z : Nat} (hz : z ≤ x)
    (hpick : ∀ n, pick (mkVec s.config n (x / y)) (mkVec s.config n (x % y)) = mkVec s.config n z) :
    ∃ t t', runCommand s (divideAnd s a b fun q r => respond (writeVec s rd (pick q r)) false 0) = .next t ∧
      runCommand s (divideAnd s a' b' fun q r => respond (writeVec s rd (pick q r)) false 0) = .next t' ∧
      t.response = t'.response ∧ (answeredOk t = true → valueAt t rd = valueAt t' rd) := by
  have ⟨h1, hn1, hx, _⟩ := ha
  have ⟨h1', hn1', hx', _⟩ := ha'
  by_cases hy0 : y = 0
  case pos =>
    exact ⟨_, _, ha.divideAnd_divisionByZero hs hb _ hy0, ha'.divideAnd_divisionByZero hs hb' _ hy0, rfl, nofun⟩
  case neg =>
    refine ⟨_, _, ha.divideAnd_write hs hb _ hy0, ha'.divideAnd_write hs hb' _ hy0, rfl, fun _ => ?_⟩
    rw [hpick, hpick]
    exact (valueAt_withResult h1 hn1 (lt_of_le_of_lt hz hx) hs).trans
      (valueAt_withResult h1' hn1' (lt_of_le_of_lt hz hx') hs).symm

end

/-- Settles O60: the commands' equations on values name the widths only through `max(N1, N2)`, but for the width of a
quotient, a remainder and a product, which does not change the value. -/
theorem crossWidthEquivalence : Obligations.CrossWidthEquivalence := by
  intro s rd a b a' b' n1 n2 x y hs ha hb ha' hb'
  have ⟨h1, _, hx, _⟩ := ha
  have ⟨_, _, hy, _⟩ := hb
  have ⟨h1', _, hx', _⟩ := ha'
  have ⟨_, _, hy', _⟩ := hb'
  refine ⟨?add, ?sub, ?and, ?or, ?cmp, ?div, ?rem, fun hwidth => ?mul⟩
  case add => rw [ha.exec_add_eq hs hb, ha'.exec_add_eq hs hb', max_self]
  case sub => rw [ha.exec_sub hs hb, ha'.exec_sub hs hb', max_self]
  case and => rw [ha.exec_and hs hb, ha'.exec_and hs hb', max_self]
  case or => rw [ha.exec_or hs hb, ha'.exec_or hs hb', max_self]
  case cmp => rw [ha.exec_cmp hs hb, ha'.exec_cmp hs hb']
  case div =>
    rw [exec_div, exec_div]
    exact ha.divideAnd_widen hs hb ha' hb' rd (pick := fun q _ => q) (Nat.div_le_self x y) fun _ => rfl
  case rem =>
    rw [exec_rem, exec_rem]
    exact ha.divideAnd_widen hs hb ha' hb' rd (pick := fun _ r => r) (Nat.mod_le x y) fun _ => rfl
  case mul =>
    have narrow : n1 + n2 ≤ s.config.nmax := by omega
    refine ⟨_, _, ha.exec_mul hs hb rd narrow, ha'.exec_mul hs hb' rd hwidth, rfl, rfl, ?_⟩
    rw [valueAt_withResult (by omega) narrow (mul_lt_width hx hy) hs,
      valueAt_withResult (by omega) hwidth (mul_lt_width hx' hy') hs]

end Sys2Proof.Machine
end

section
/-! PROOFS. The statements of 60_exceptions.md: the three outcomes of a command (R271), what fault entry leaves (R272),
the FAULTED state (R279), which command raises which fault and when (R273, R274, R276 to R278), and the order of the checks
(R283).

`firstCheck` is the first of the checks between `IllegalCommand` and `Overflow` that fails; `firstFault_eq` ties it to
`firstFault`. One pass over the instructions (`exec_follows`) shows that a meaning raises exactly that fault, in every
state, and that nothing is left after the checks but the adder's `Overflow`. The statements on single faults are read
off from it; for `Overflow` the registers must hold vector values, so the invariant comes in (`exec_overflow_iff`). -/

namespace Sys2Proof.Machine

/-! The effects of a command that completes. -/

/-- A width that leaves a register constructed: it is not 0 and fits the 14 bits of the width field
(10_state.md R20, R22). -/
def Constructible (v : Vec) : Prop := 1 ≤ v.n ∧ v.n < 2 ^ 14

namespace Constructible

variable {v w u : Vec}

theorem toReg_n_ne_zero (h : Constructible v) : v.toReg.n ≠ 0 := by
  obtain ⟨pos, lt⟩ := h
  intro e
  have hn : v.n % 2 ^ 14 = 0 := congrArg BitVec.toNat e
  rw [Nat.mod_eq_of_lt lt] at hn
  omega

theorem of_n_eq (h : Constructible v) (hn : w.n = v.n) : Constructible w := by
  rw [Constructible, hn]
  exact h

theorem of_n_eq_max (hv : Constructible v) (hw : Constructible w) (hn : u.n = max v.n w.n) : Constructible u := by
  obtain ⟨posv, ltv⟩ := hv
  obtain ⟨-, ltw⟩ := hw
  rw [Constructible, hn]
  exact ⟨le_max_of_le_left posv, max_lt ltv ltw⟩

theorem of_constructed {r : VReg} (h : r.n ≠ 0) : Constructible r.toVec :=
  ⟨Nat.one_le_iff_ne_zero.mpr fun e => h (BitVec.eq_of_toNat_eq e), r.n.isLt⟩

end Constructible

theorem shlVec_n (c : Config) (a : Vec) (k : Nat) : (shlVec c a k).n = a.n := by
  unfold shlVec
  split <;> rfl

theorem shrVec_n (c : Config) (a : Vec) (k : Nat) : (shrVec c a k).n = a.n := by
  unfold shrVec
  split <;> rfl

/-- The next states of a command that completed: register writes, none of which leaves a register unconstructed in a
legal configuration, and an answer with status `OK`. -/
inductive Completes (s : State) : State → Prop
  | mk {ws : List (Reg × Vec)} {flag : Bool} {d : Nat}
      (h : s.config.legal = true → ∀ w ∈ ws, Constructible w.2) : Completes s (respond (writeAll s ws) flag d)

namespace Completes

variable {s t : State}

theorem respond (s : State) (flag : Bool) (d : Nat) : Completes s (respond s flag d) :=
  .mk (ws := []) nofun

theorem write {rd : Reg} {v : Vec} (hv : s.config.legal = true → Constructible v) :
    Completes s (Machine.respond (writeVec s rd v) false 0) :=
  .mk (ws := [(rd, v)]) (by simpa using hv)

theorem answer (h : Completes s t) : ∃ flag d, t.response = some { status := .ok, flag := flag, rdata := d } := by
  obtain ⟨-⟩ := h
  exact ⟨_, _, rfl⟩

theorem ne_enterFault (h : Completes s t) (f : Cause) : t ≠ enterFault s f := by
  obtain ⟨-⟩ := h
  exact ne_enterFault_of_answeredOk rfl

theorem fsr_eq (h : Completes s t) : t.fsr = s.fsr := by
  obtain ⟨-⟩ := h
  simp

theorem fcmd_eq (h : Completes s t) : t.fcmd = s.fcmd := by
  obtain ⟨-⟩ := h
  simp

theorem pending_eq (h : Completes s t) : t.pending = s.pending := by
  obtain ⟨-⟩ := h
  simp

end Completes

/-! The checks of a command. -/

/-- The first check that fails, of the registers, the width, the index and the divisor, in the order of
60_exceptions.md R283. -/
def firstCheck (s : State) (i : Instr) : Option Cause :=
  if (sources i ++ inPlace i).any (isUnconstructed s) then some .unconstructed
  else if widthFails s i then some .widthError
  else if indexFails s i then some .outOfRange
  else if divisorIsZero s i then some .divisionByZero
  else none

/-- `firstFault` has two checks more: whether the command is legal, before these, and whether a sum overflows, after
them. -/
theorem firstFault_eq (s : State) (i : Instr) :
    firstFault s i = if i.wellFormed s.config = false then some .illegalCommand
      else (firstCheck s i).or (if sumOverflows s i then some .overflow else none) := by
  unfold firstFault firstCheck
  split_ifs <;> simp_all

/-- Every register the command reads as a source or modifies in place is constructed. -/
abbrev Constructed (s : State) (i : Instr) : Prop := ∀ r ∈ sources i ++ inPlace i, (regAt s r).n ≠ 0

theorem constructed_single {s : State} {p : Reg} (hp : (regAt s p).n ≠ 0) : ∀ r ∈ [p], (regAt s r).n ≠ 0 :=
  List.forall_mem_singleton.mpr hp

theorem constructed_pair {s : State} {p q : Reg} (hp : (regAt s p).n ≠ 0) (hq : (regAt s q).n ≠ 0) :
    ∀ r ∈ [p, q], (regAt s r).n ≠ 0 :=
  List.forall_mem_cons.mpr ⟨hp, constructed_single hq⟩

section

variable {s : State} {i : Instr}

theorem any_isUnconstructed {l : List Reg} : l.any (isUnconstructed s) = true ↔ ∃ r ∈ l, (regAt s r).n = 0 := by
  simp [isUnconstructed]

theorem any_isUnconstructed_false {l : List Reg} :
    ¬ l.any (isUnconstructed s) = true ↔ ∀ r ∈ l, (regAt s r).n ≠ 0 := by
  simp [isUnconstructed]

theorem firstCheck_eq_unconstructed :
    firstCheck s i = some .unconstructed ↔ ∃ r ∈ sources i ++ inPlace i, (regAt s r).n = 0 := by
  rw [← any_isUnconstructed, firstCheck]
  split_ifs <;> simp_all

theorem firstCheck_eq_widthError :
    firstCheck s i = some .widthError ↔ Constructed s i ∧ widthFails s i = true := by
  rw [Constructed, ← any_isUnconstructed_false, firstCheck]
  split_ifs <;> simp_all

theorem firstCheck_eq_outOfRange :
    firstCheck s i = some .outOfRange ↔ Constructed s i ∧ widthFails s i = false ∧ indexFails s i = true := by
  rw [Constructed, ← any_isUnconstructed_false, firstCheck]
  split_ifs <;> simp_all

theorem firstCheck_eq_divisionByZero :
    firstCheck s i = some .divisionByZero ↔
      Constructed s i ∧ widthFails s i = false ∧ indexFails s i = false ∧ divisorIsZero s i = true := by
  rw [Constructed, ← any_isUnconstructed_false, firstCheck]
  split_ifs <;> simp_all

theorem firstCheck_eq_none :
    firstCheck s i = none ↔
      Constructed s i ∧ widthFails s i = false ∧ indexFails s i = false ∧ divisorIsZero s i = false := by
  rw [Constructed, ← any_isUnconstructed_false, firstCheck]
  split_ifs <;> simp_all

theorem firstCheck_ne_overflow : firstCheck s i ≠ some .overflow := by
  unfold firstCheck
  split_ifs <;> simp

end

/-! The meanings follow the checks. -/

/-- The commands whose result comes from the adder under its overflow policy (44_add_sub.md R195). -/
def usesAdder : Instr → Bool
  | .add _ _ _ => true
  | .twoc _ _ => true
  | .mul _ _ _ => true
  | _ => false

/-- The effects of a command follow its checks: they raise the fault of the first check that fails; when none fails, the
command completes, or the adder overflows if it uses the adder. -/
inductive Follows (s : State) (adder : Bool) : Option Cause → Except Cause State → Prop
  | fault (f : Cause) : Follows s adder (some f) (.error f)
  | completes {t : State} (h : Completes s t) : Follows s adder none (.ok t)
  | overflow (h : adder = true) : Follows s adder none (.error .overflow)

namespace Follows

variable {s : State} {adder : Bool} {o : Option Cause}

section

variable {α : Type} {x : Except Cause α} {f : α → Except Cause State}

/-- One check of the meaning against one check of the list. -/
theorem check {c : Prop} [Decidable c] {e : Cause} (hfail : c → x = .error e)
    (hpass : ¬ c → ∃ a, x = .ok a ∧ Follows s adder o (f a)) :
    Follows s adder (if c then some e else o) (x >>= f) := by
  split
  case isTrue hc =>
    rw [hfail hc]
    exact .fault e
  case isFalse hc =>
    obtain ⟨a, e, h⟩ := hpass hc
    rw [e]
    exact h

/-- An access inside a register: the register is checked, and then the index. -/
theorem access {r : Reg} {limit k : Nat} {a : α} (hu : (regAt s r).n = 0 → x = .error .unconstructed)
    (hx : (regAt s r).n ≠ 0 → x = if limit ≤ k then .error .outOfRange else .ok a)
    (h : (regAt s r).n ≠ 0 → k < limit → Follows s adder o (f a)) :
    Follows s adder
      (if [r].any (isUnconstructed s) then some .unconstructed else if decide (limit ≤ k) then some .outOfRange else o)
      (x >>= f) := by
  by_cases hn : (regAt s r).n = 0
  case pos =>
    rw [if_pos (any_isUnconstructed.mpr ⟨r, List.mem_singleton_self r, hn⟩), hu hn]
    exact .fault _
  case neg =>
    rw [if_neg (any_isUnconstructed_false.mpr (constructed_single hn)), hx hn]
    refine check (fun hk => if_pos (of_decide_eq_true hk)) fun hk => ?_
    have inside : ¬ limit ≤ k := fun le => hk (decide_eq_true le)
    exact ⟨a, if_neg inside, h hn (Nat.lt_of_not_le inside)⟩

/-- A result of the adder: nothing else is left to check. -/
theorem adderResult {x : Except Cause Vec} {f : Vec → Except Cause State} {n : Nat}
    (hx : x = .error .overflow ∨ ∃ v, x = .ok v ∧ v.n = n) (h : ∀ v, v.n = n → Follows s true none (f v)) :
    Follows s true none (x >>= f) := by
  rcases hx with e | ⟨v, e, hv⟩
  · rw [e]
    exact .overflow rfl
  · rw [e]
    exact h v hv

end

theorem requireLegal {b : Bool} {f : Unit → Except Cause State} (hb : b = true) (h : Follows s adder o (f ())) :
    Follows s adder o (requireLegal b >>= f) := by
  rw [requireLegal_true hb]
  exact h

theorem readVec {r : Reg} {f : Vec → Except Cause State}
    (h : Constructible (regAt s r).toVec → Follows s adder o (f (regAt s r).toVec)) :
    Follows s adder (if [r].any (isUnconstructed s) then some .unconstructed else o) (readVec s r >>= f) := by
  refine check (fun hu => ?_) fun hc => ?_
  · obtain ⟨q, hq, hu⟩ := any_isUnconstructed.mp hu
    exact readVec_unconstructed (List.mem_singleton.mp hq ▸ hu)
  · have hr := any_isUnconstructed_false.mp hc r (List.mem_singleton_self r)
    exact ⟨_, readVec_constructed hr, h (.of_constructed hr)⟩

theorem readVecs {p q : Reg} {f : Vec × Vec → Except Cause State}
    (h : Constructible (regAt s p).toVec → Constructible (regAt s q).toVec →
      Follows s adder o (f ((regAt s p).toVec, (regAt s q).toVec))) :
    Follows s adder (if [p, q].any (isUnconstructed s) then some .unconstructed else o) (readVecs s p q >>= f) := by
  refine check (fun hu => readVecs_unconstructed (by simpa [isUnconstructed] using hu)) fun hc => ?_
  obtain ⟨hp, hq⟩ : (regAt s p).n ≠ 0 ∧ (regAt s q).n ≠ 0 := by simpa using any_isUnconstructed_false.mp hc
  exact ⟨_, readVecs_eq_ok.mpr ⟨hp, hq, rfl⟩, h (.of_constructed hp) (.of_constructed hq)⟩

theorem checkWidth {n : Nat} {f : Unit → Except Cause State}
    (h : 1 ≤ n → n ≤ s.config.nmax → Follows s adder o (f ())) :
    Follows s adder (if widthIllegal s.config n then some .widthError else o) (checkWidth s.config n >>= f) := by
  refine check (fun hn => checkWidth_error (of_decide_eq_true hn)) fun hn => ?_
  have within : ¬ (n = 0 ∨ s.config.nmax < n) := fun hw => hn (decide_eq_true hw)
  have pos : 1 ≤ n := by omega
  have le : n ≤ s.config.nmax := by omega
  exact ⟨(), checkWidth_ok pos le, h pos le⟩

theorem divRemVec {a b : Vec} {f : Vec × Vec → Except Cause State}
    (h : ∀ q r, q.n = a.n → r.n = a.n → Follows s adder o (f (q, r))) :
    Follows s adder (if b.val s.config == 0 then some .divisionByZero else o) (divRemVec s.config a b >>= f) := by
  rcases divRemVec_outcomes s.config a b with ⟨h0, e⟩ | ⟨h0, ⟨q, r⟩, e, hq, hr⟩
  · exact check (fun _ => e) fun hn => absurd (beq_iff_eq.mpr h0) hn
  · exact check (fun hz => absurd (beq_iff_eq.mp hz) h0) fun _ => ⟨_, e, h q r hq hr⟩

end Follows

/-- Every legal command follows its checks, whatever the state. -/
theorem exec_follows {i : Instr} {s : State} (hs : isHalted s = false) (hw : i.wellFormed s.config = true) :
    ∃ x, exec i s = runCommand s x ∧ Follows s (usesAdder i) (firstCheck s i) x := by
  cases i with
  | nop | addb cin | subb cin => exact ⟨.ok _, rfl, .completes (.respond _ _ _)⟩
  | rdsr imm =>
    obtain ⟨v, hv⟩ := systemRegister_of_le (s := s) (of_decide_eq_true hw)
    exact ⟨.ok _, (exec_rdsr_of_some hv).trans (runCommand_ok hs rfl).symm, .completes (.respond s false v)⟩
  | zero rd imm | ldi rd imm =>
    exact ⟨_, rfl, .checkWidth fun pos _ => .completes <| .write fun _ => ⟨pos, imm.isLt⟩⟩
  | cvt rd rs1 imm =>
    exact ⟨_, rfl, .readVec fun _ => .checkWidth fun pos _ => .completes <| .write fun _ => ⟨pos, imm.isLt⟩⟩
  | mov rd rs1 => exact ⟨_, rfl, .readVec fun h => .completes <| .write fun _ => h⟩
  | bshl rd rs1 imm | bshr rd rs1 imm | not rd rs1 =>
    exact ⟨_, rfl, .readVec fun h => .completes <| .write fun _ => h.of_n_eq rfl⟩
  | shl rd rs1 imm => exact ⟨_, rfl, .readVec fun h => .completes <| .write fun _ => h.of_n_eq (shlVec_n ..)⟩
  | shr rd rs1 imm => exact ⟨_, rfl, .readVec fun h => .completes <| .write fun _ => h.of_n_eq (shrVec_n ..)⟩
  | sshl rd rs1 imm | sshr rd rs1 imm =>
    exact ⟨_, rfl, .requireLegal hw <| .readVec fun h => .completes <| .write fun _ => h.of_n_eq rfl⟩
  | size rs1 | count rs1 | all rs1 | any rs1 | none rs1 | tonum rs1 =>
    exact ⟨_, rfl, .readVec fun _ => .completes (.respond _ _ _)⟩
  | ldb rd imm =>
    exact ⟨_, rfl, .access (fun hu => memWriteBlock_unconstructed hu _ _) (fun hn => memWriteBlock_constructed hn _ _)
      fun hn _ => .completes <| .write fun _ => (Constructible.of_constructed hn).of_n_eq rfl⟩
  | stb rs1 imm =>
    exact ⟨_, rfl, .access (fun hu => memReadBlock_unconstructed hu _) (fun hn => memReadBlock_constructed hn _)
      fun _ _ => .completes (.respond _ _ _)⟩
  | bget rs1 imm =>
    exact ⟨_, rfl, .access (fun hu => memReadBit_unconstructed hu _) (fun hn => memReadBit_constructed hn _)
      fun _ _ => .completes (.respond _ _ _)⟩
  | bset rd imm =>
    exact ⟨_, rfl, .access (fun hu => memWriteBit_unconstructed hu _ _) (fun hn => memWriteBit_constructed hn _ _)
      fun hn _ => .completes <| .write fun _ => (Constructible.of_constructed hn).of_n_eq rfl⟩
  | bflip rd imm =>
    refine ⟨_, rfl, .access (fun hu => memReadBit_unconstructed hu _) (fun hn => memReadBit_constructed hn _)
      fun hn hk => ?_⟩
    rw [memWriteBit_constructed hn, if_neg (Nat.not_le.mpr hk)]
    exact .completes <| .write fun _ => (Constructible.of_constructed hn).of_n_eq rfl
  | sub rd rs1 rs2 | and rd rs1 rs2 | or rd rs1 rs2 =>
    exact ⟨_, rfl, .readVecs fun ha hb => .completes <| .write fun _ => ha.of_n_eq_max hb rfl⟩
  | cmp rs1 rs2 => exact ⟨_, rfl, .readVecs fun _ _ => .completes (.respond _ _ _)⟩
  | add rd rs1 rs2 =>
    exact ⟨_, rfl, .readVecs fun ha hb => .adderResult (addVec_outcomes _ _ _) fun _ hv =>
      .completes <| .write fun _ => ha.of_n_eq_max hb hv⟩
  | twoc rd rs1 =>
    exact ⟨_, rfl, .readVec fun ha => .adderResult (addVec_outcomes _ _ _) fun _ hv =>
      .completes <| .write fun _ => ha.of_n_eq (hv.trans (max_self _))⟩
  | mul rd rs1 rs2 =>
    exact ⟨_, rfl, .readVecs fun _ _ => .checkWidth fun pos le => .adderResult (mulVec_outcomes _ _ _) fun _ hv =>
      .completes <| .write fun hc => ⟨hv ▸ pos, hv ▸ Nat.lt_succ_of_le (le.trans (Config.nmax_le hc))⟩⟩
  | div rd rs1 rs2 =>
    exact ⟨_, rfl, .readVecs fun ha _ => .divRemVec fun _ _ hq _ => .completes <| .write fun _ => ha.of_n_eq hq⟩
  | rem rd rs1 rs2 =>
    exact ⟨_, rfl, .readVecs fun ha _ => .divRemVec fun _ _ _ hr => .completes <| .write fun _ => ha.of_n_eq hr⟩
  | divr rd rd2 rs1 rs2 =>
    exact ⟨_, rfl, .requireLegal hw <| .readVecs fun ha _ => .divRemVec fun q r hq hr =>
      .completes <| .mk (ws := [(rd, q), (rd2, r)]) (by simpa using fun _ => ⟨ha.of_n_eq hq, ha.of_n_eq hr⟩)⟩

/-! The fault a command raises. -/

section

variable {i : Instr} {s : State} (hs : isHalted s = false)

include hs

/-- What a legal command does: it raises the fault of its first check that fails; past the checks it completes, or the
adder overflows. -/
theorem exec_cases (hw : i.wellFormed s.config = true) :
    (∃ f, firstCheck s i = some f ∧ exec i s = .next (enterFault s f)) ∨
      (firstCheck s i = none ∧ ∃ t, Completes s t ∧ exec i s = .next t) ∨
        (firstCheck s i = none ∧ usesAdder i = true ∧ exec i s = .next (enterFault s .overflow)) := by
  obtain ⟨x, e, h⟩ := exec_follows hs hw
  rw [e]
  generalize firstCheck s i = o at h ⊢
  cases h with
  | fault f => exact .inl ⟨f, rfl, runCommand_error hs rfl⟩
  | completes h => exact .inr (.inl ⟨rfl, _, h, runCommand_ok hs rfl⟩)
  | overflow h => exact .inr (.inr ⟨rfl, h, runCommand_error hs rfl⟩)

/-- The faults between `IllegalCommand` and `Overflow`: a legal command raises the one its checks select. -/
theorem exec_raises_iff {f : Cause} (hi : f ≠ .illegalCommand) (ho : f ≠ .overflow) :
    exec i s = .next (enterFault s f) ↔ i.wellFormed s.config = true ∧ firstCheck s i = some f := by
  rcases hw : i.wellFormed s.config with _ | _
  case false =>
    rw [exec_illFormed hs hw]
    exact iff_of_false (fun e => hi (enterFault_inj (Host.Outcome.next.inj e)).symm) nofun
  case true =>
    rcases exec_cases hs hw with ⟨g, hg, e⟩ | ⟨hnone, t, ht, e⟩ | ⟨hnone, -, e⟩
    · rw [e, hg]
      exact ⟨fun h => ⟨rfl, congrArg some (enterFault_inj (Host.Outcome.next.inj h))⟩,
        fun ⟨_, h⟩ => by rw [Option.some.inj h]⟩
    · rw [e, hnone]
      exact iff_of_false (fun h => ht.ne_enterFault f (Host.Outcome.next.inj h)) nofun
    · rw [e, hnone]
      exact iff_of_false (fun h => ho (enterFault_inj (Host.Outcome.next.inj h)).symm) nofun

end

/-- Settles O18: the check of the registers follows that of the command, and comes before all others. -/
theorem unconstructedExactly : Obligations.UnconstructedExactly := by
  intro i s hs
  rw [exec_raises_iff hs (by simp) (by simp), firstCheck_eq_unconstructed]

/-- Settles O19: a width is checked by four commands; the sum of two constructed widths is not 0. -/
theorem widthErrorExactly : Obligations.WidthErrorExactly := by
  intro i s hs
  rw [exec_raises_iff hs (by simp) (by simp), firstCheck_eq_widthError]
  constructor
  · rintro ⟨-, hc, hwidth⟩
    cases i with
    | zero rd imm => exact .inl ⟨rd, imm, .inl rfl, of_decide_eq_true hwidth⟩
    | ldi rd imm => exact .inl ⟨rd, imm, .inr rfl, of_decide_eq_true hwidth⟩
    | cvt rd rs1 imm =>
      exact .inr (.inl ⟨rd, rs1, imm, rfl, hc rs1 (by simp [sources]), of_decide_eq_true hwidth⟩)
    | mul rd rs1 rs2 =>
      have h1 : (regAt s rs1).n ≠ 0 := hc rs1 (by simp [sources])
      have h2 : (regAt s rs2).n ≠ 0 := hc rs2 (by simp [sources])
      have hsum : widthOf s rs1 + widthOf s rs2 ≠ 0 := by
        obtain ⟨pos, -⟩ := Constructible.of_constructed h1
        exact Nat.ne_of_gt (Nat.add_pos_left pos _)
      exact .inr (.inr ⟨rd, rs1, rs2, rfl, h1, h2, (of_decide_eq_true hwidth).resolve_left hsum⟩)
    | _ => cases hwidth
  · rintro (⟨rd, imm, rfl | rfl, hn⟩ | ⟨rd, rs1, imm, rfl, h1, hn⟩ | ⟨rd, rs1, rs2, rfl, h1, h2, hn⟩)
    · exact ⟨rfl, nofun, decide_eq_true hn⟩
    · exact ⟨rfl, nofun, decide_eq_true hn⟩
    · exact ⟨rfl, constructed_single h1, decide_eq_true hn⟩
    · exact ⟨rfl, constructed_pair h1 h2, decide_eq_true (.inr hn)⟩

/-- Settles O16: an index is checked by five commands, which have no width to check; each has it in the immediate. -/
theorem outOfRangeExactly : Obligations.OutOfRangeExactly := by
  intro i s hs
  refine ⟨?raised, fun hcmd r imm hi => ?index⟩
  case raised =>
    rw [exec_raises_iff hs (by simp) (by simp), firstCheck_eq_outOfRange]
    constructor
    · rintro ⟨-, hc, -, hindex⟩
      cases i with
      | bget r imm => exact .inl ⟨r, imm, .inl rfl, hc r (by simp [sources]), of_decide_eq_true hindex⟩
      | bset r imm => exact .inl ⟨r, imm, .inr (.inl rfl), hc r (by simp [inPlace]), of_decide_eq_true hindex⟩
      | bflip r imm => exact .inl ⟨r, imm, .inr (.inr rfl), hc r (by simp [inPlace]), of_decide_eq_true hindex⟩
      | ldb r imm => exact .inr ⟨r, imm, .inl rfl, hc r (by simp [inPlace]), of_decide_eq_true hindex⟩
      | stb r imm => exact .inr ⟨r, imm, .inr rfl, hc r (by simp [sources]), of_decide_eq_true hindex⟩
      | _ => cases hindex
    · rintro (⟨r, imm, rfl | rfl | rfl, hr, hk⟩ | ⟨r, imm, rfl | rfl, hr, hk⟩)
      all_goals exact ⟨rfl, constructed_single hr, rfl, decide_eq_true hk⟩
  case index =>
    rw [enterFault_fcmd, hcmd]
    rcases hi with rfl | rfl | rfl | rfl | rfl
    all_goals exact immField_commandWord ..

/-- Settles O17: the divisor is checked by three commands, which have no width and no index to check. -/
theorem divisionByZeroExactly : Obligations.DivisionByZeroExactly := by
  intro i s hs
  rw [exec_raises_iff hs (by simp) (by simp), firstCheck_eq_divisionByZero]
  constructor
  · rintro ⟨hw, hc, -, -, hzero⟩
    cases i with
    | div rd rs1 rs2 =>
      exact ⟨rd, rs1, rs2, .inl rfl, hc rs1 (by simp [sources]), hc rs2 (by simp [sources]), eq_of_beq hzero⟩
    | rem rd rs1 rs2 =>
      exact ⟨rd, rs1, rs2, .inr (.inl rfl), hc rs1 (by simp [sources]), hc rs2 (by simp [sources]), eq_of_beq hzero⟩
    | divr rd rd2 rs1 rs2 =>
      exact ⟨rd, rs1, rs2, .inr (.inr ⟨rd2, of_decide_eq_true hw, rfl⟩), hc rs1 (by simp [sources]),
        hc rs2 (by simp [sources]), eq_of_beq hzero⟩
    | _ => cases hzero
  · rintro ⟨rd, rs1, rs2, rfl | rfl | ⟨rd2, hne, rfl⟩, h1, h2, hzero⟩
    · exact ⟨rfl, constructed_pair h1 h2, rfl, rfl, beq_iff_eq.mpr hzero⟩
    · exact ⟨rfl, constructed_pair h1 h2, rfl, rfl, beq_iff_eq.mpr hzero⟩
    · exact ⟨decide_eq_true hne, constructed_pair h1 h2, rfl, rfl, beq_iff_eq.mpr hzero⟩

/-! Overflow, and the order of the checks. -/

/-- A command that completes with a result raises no fault. -/
theorem next_withResult_ne (s : State) (rd : Reg) (n y : Nat) (f : Cause) :
    (.next (withResult s rd n y) : Host.Outcome State Fault Refusal) ≠ .next (enterFault s f) :=
  fun e => ne_enterFault_of_answeredOk rfl (Host.Outcome.next.inj e)

section

variable {i : Instr} {s : State} (hinv : Inv s) (hs : isHalted s = false)

include hinv hs

/-- Past the other checks, `Overflow` is raised exactly when the sum does not fit: in a state of the invariant the
registers hold vector values, on which the adder's outcome is known (44_add_sub.md R193, R192; 45_multiply.md R211). -/
theorem exec_overflow_iff (hw : i.wellFormed s.config = true) (hnone : firstCheck s i = none) :
    exec i s = .next (enterFault s .overflow) ↔ sumOverflows s i = true := by
  have ready : Ready s := ⟨hinv.1, hs⟩
  obtain ⟨hc, hwidth, -, -⟩ := firstCheck_eq_none.mp hnone
  have holds : ∀ r ∈ sources i ++ inPlace i, Holds s r (widthOf s r) (valueAt s r) := fun r hr =>
    (constructedRegisterHoldsOneVector s r hinv (hc r hr)).1
  cases i with
  | add rd rs1 rs2 =>
    have h1 := holds rs1 (by simp [sources])
    have h2 := holds rs2 (by simp [sources])
    by_cases hlt : valueAt s rs1 + valueAt s rs2 < 2 ^ max (widthOf s rs1) (widthOf s rs2)
    · rw [h1.exec_add ready h2 rd hlt]
      exact iff_of_false (next_withResult_ne s rd _ _ .overflow) fun h => Nat.not_le.mpr hlt (of_decide_eq_true h)
    · have hle := Nat.le_of_not_lt hlt
      exact iff_of_true (h1.exec_add_overflow ready h2 rd hle) (decide_eq_true hle)
  | twoc rd rs1 =>
    have h1 := holds rs1 (by simp [sources])
    by_cases h0 : valueAt s rs1 = 0
    · exact iff_of_true (h1.exec_twoc_overflow ready rd h0) (beq_iff_eq.mpr h0)
    · rw [h1.exec_twoc ready rd h0]
      exact iff_of_false (next_withResult_ne s rd _ _ .overflow) fun h => h0 (eq_of_beq h)
  | mul rd rs1 rs2 =>
    have h1 := holds rs1 (by simp [sources])
    have h2 := holds rs2 (by simp [sources])
    have within : ¬ (widthOf s rs1 + widthOf s rs2 = 0 ∨ s.config.nmax < widthOf s rs1 + widthOf s rs2) :=
      of_decide_eq_false hwidth
    rw [h1.exec_mul ready h2 rd (by omega)]
    exact iff_of_false (next_withResult_ne s rd _ _ .overflow) Bool.false_ne_true
  | _ =>
    refine iff_of_false (fun e => ?_) Bool.false_ne_true
    rcases exec_cases hs hw with ⟨f, hf, -⟩ | ⟨-, t, ht, et⟩ | ⟨-, hadder, -⟩
    · cases hnone.symm.trans hf
    · exact ht.ne_enterFault .overflow (Host.Outcome.next.inj (et.symm.trans e))
    · cases hadder

/-- A command outside the FAULTED state: the first fault in the order of 60_exceptions.md R283, or completion. -/
theorem exec_firstFault :
    (∃ f, firstFault s i = some f ∧ exec i s = .next (enterFault s f)) ∨
      (firstFault s i = none ∧ ∃ t, Completes s t ∧ exec i s = .next t) := by
  rw [firstFault_eq]
  rcases hw : i.wellFormed s.config with _ | _
  case false => exact .inl ⟨_, if_pos rfl, exec_illFormed hs hw⟩
  case true =>
    rw [if_neg (by simp)]
    rcases exec_cases hs hw with ⟨f, hf, e⟩ | ⟨hnone, t, ht, e⟩ | ⟨hnone, -, e⟩
    · exact .inl ⟨f, by rw [hf, Option.some_or], e⟩
    · have fits : sumOverflows s i ≠ true := fun h =>
        ht.ne_enterFault .overflow (Host.Outcome.next.inj (e.symm.trans ((exec_overflow_iff hinv hs hw hnone).mpr h)))
      exact .inr ⟨by rw [hnone, Option.none_or, if_neg fits], t, ht, e⟩
    · have overflows := (exec_overflow_iff hinv hs hw hnone).mp e
      exact .inl ⟨_, by rw [hnone, Option.none_or, if_pos overflows], e⟩

theorem exec_raises_iff_firstFault {f : Cause} :
    exec i s = .next (enterFault s f) ↔ firstFault s i = some f := by
  rcases exec_firstFault (i := i) hinv hs with ⟨g, hg, e⟩ | ⟨hnone, t, ht, e⟩
  · rw [e, hg]
    exact ⟨fun h => congrArg some (enterFault_inj (Host.Outcome.next.inj h)), fun h => by rw [Option.some.inj h]⟩
  · rw [e, hnone]
    exact iff_of_false (fun h => ht.ne_enterFault f (Host.Outcome.next.inj h)) nofun

end

/-- `Overflow` is the last of the faults. -/
theorem firstFault_eq_overflow {s : State} {i : Instr} :
    firstFault s i = some .overflow ↔
      i.wellFormed s.config = true ∧ firstCheck s i = none ∧ sumOverflows s i = true := by
  rw [firstFault_eq]
  rcases hw : i.wellFormed s.config with _ | _
  · simp
  · rcases hf : firstCheck s i with _ | f
    · simp
    · have hne : f ≠ .overflow := fun e => firstCheck_ne_overflow (e ▸ hf)
      simp [hne]

/-- Settles O20: a sum is checked by ADD and TWOC, which have none of the other checks but that of their registers. -/
theorem overflowExactly : Obligations.OverflowExactly := by
  intro i s hinv hs
  rw [exec_raises_iff_firstFault hinv hs, firstFault_eq_overflow, firstCheck_eq_none]
  constructor
  · rintro ⟨-, ⟨hc, -⟩, hsum⟩
    cases i with
    | add rd rs1 rs2 =>
      exact .inl ⟨rd, rs1, rs2, rfl, hc rs1 (by simp [sources]), hc rs2 (by simp [sources]), of_decide_eq_true hsum⟩
    | twoc rd rs1 => exact .inr ⟨rd, rs1, rfl, hc rs1 (by simp [sources]), eq_of_beq hsum⟩
    | _ => cases hsum
  · rintro (⟨rd, rs1, rs2, rfl, h1, h2, hsum⟩ | ⟨rd, rs1, rfl, h1, hzero⟩)
    · exact ⟨rfl, ⟨constructed_pair h1 h2, rfl, rfl, rfl⟩, decide_eq_true hsum⟩
    · exact ⟨rfl, ⟨constructed_single h1, rfl, rfl, rfl⟩, beq_iff_eq.mpr hzero⟩

/-- Settles O21: `firstFault` decides the command outside the FAULTED state, and in it every command but a legal RDSR is
refused. -/
theorem faultPriority : Obligations.FaultPriority := by
  refine ⟨fun i s hinv => ⟨fun hs hi => exec_halted hs hi, fun hs => ⟨fun f hf => ?raised, fun hnone => ?completed⟩⟩,
    fun s e he => ?rejected⟩
  case raised => exact (exec_raises_iff_firstFault hinv hs).mpr hf
  case completed =>
    rcases exec_firstFault (i := i) hinv hs with ⟨f, hf, -⟩ | ⟨-, t, ht, e⟩
    · cases hnone.symm.trans hf
    · obtain ⟨flag, d, answer⟩ := ht.answer
      exact ⟨t, flag, d, e, answer⟩
  case rejected => exact (runPort_rejected he).trans (rejectCommand_eq s)

/-! The three outcomes. -/

/-- The outcomes of a transaction: a fault outside the FAULTED state, a refusal in it, or completion
(60_exceptions.md R271). -/
inductive Outcomes (s : State) : State → Prop
  | faulted (hs : isHalted s = false) (f : Cause) : Outcomes s (enterFault s f)
  | refused (hs : isHalted s = true) : Outcomes s (answerHalted s)
  | completed {t : State} (h : Completes s t) : Outcomes s t

theorem rejectCommand_outcomes (s : State) : ∃ t, rejectCommand s = .next t ∧ Outcomes s t := by
  rcases hs : isHalted s with _ | _
  · exact ⟨_, runCommand_error hs rfl, .faulted hs _⟩
  · exact ⟨_, runCommand_halted hs _, .refused hs⟩

theorem exec_outcomes (i : Instr) (s : State) : ∃ t, exec i s = .next t ∧ Outcomes s t := by
  rcases hs : isHalted s with _ | _
  case false =>
    rcases hw : i.wellFormed s.config with _ | _
    · exact ⟨_, exec_illFormed hs hw, .faulted hs _⟩
    · rcases exec_cases hs hw with ⟨f, -, e⟩ | ⟨-, t, ht, e⟩ | ⟨-, -, e⟩
      · exact ⟨_, e, .faulted hs f⟩
      · exact ⟨t, e, .completed ht⟩
      · exact ⟨_, e, .faulted hs _⟩
  case true =>
    by_cases hi : ∀ imm, i = .rdsr imm → 2 < imm.toNat
    · exact ⟨_, exec_halted hs hi, .refused hs⟩
    · push Not at hi
      obtain ⟨imm, rfl, himm⟩ := hi
      obtain ⟨v, hv⟩ := systemRegister_of_le (s := s) himm
      exact ⟨_, exec_rdsr_of_some hv, .completed (.respond s false v)⟩

theorem runPort_outcomes (s : State) : ∃ t, runPort s = .next t ∧ Outcomes s t := by
  rcases hd : decode s.port.cmd with e | i
  · rw [runPort_rejected hd]
    exact rejectCommand_outcomes s
  · rw [runPort_decoded hd]
    exact exec_outcomes i s

/-- Settles O11: the three constructors of `Outcomes`. -/
theorem threeOutcomesOfEveryCommand : Obligations.ThreeOutcomesOfEveryCommand := by
  intro s
  obtain ⟨t, e, h⟩ := runPort_outcomes s
  refine ⟨t, e, ?_⟩
  cases h with
  | faulted hs f => exact .inr (.inl ⟨hs, f, rfl⟩)
  | refused hs => exact .inr (.inr ⟨hs, rfl⟩)
  | completed h =>
    obtain ⟨flag, d, answer⟩ := h.answer
    exact .inl ⟨flag, d, answer, h.fsr_eq, h.fcmd_eq⟩

/-- Settles O12: an answer with a fault comes from fault entry, and what fault entry leaves is read off field by
field. -/
theorem faultEntryEffects : Obligations.FaultEntryEffects := by
  intro s t f flag d hs e answer
  obtain ⟨u, eu, h⟩ := runPort_outcomes s
  obtain rfl : u = t := Host.Outcome.next.inj (eu.symm.trans e)
  cases h with
  | refused hs' => cases hs.symm.trans hs'
  | completed h =>
    obtain ⟨flag', d', completed⟩ := h.answer
    cases completed.symm.trans answer
  | faulted _ f' =>
    cases (enterFault_response s f').symm.trans answer
    have code : (f, f.code) ∈ [(Cause.outOfRange, 1#4), (.divisionByZero, 2#4), (.overflow, 3#4),
        (.illegalCommand, 4#4), (.unconstructed, 5#4), (.widthError, 6#4)] := by
      cases f <;> decide
    exact ⟨enterFault_regAt s f, fsrH_faulted _ _, fsrReserved_faulted _ _, by rwa [enterFault_fsr, fsrCause_faulted],
      rfl, rfl, rfl, rfl, rfl, rfl⟩

/-- A word is RDSR's, whatever the number of the system register, exactly when it matches RDSR's row
(48_system.md R261). -/
theorem decode_eq_rdsr_iff {w : CmdWord} :
    w &&& 0xFFFFC000#32 = 0x08000000#32 ↔ decode w = .ok (.rdsr (immField w)) := by
  have row : 0x08000000#32 = matchWord (Instr.rdsr 0).opcode := by decide
  constructor
  · intro h
    obtain ⟨hopcode, hzero⟩ := (masked_iff .y w _).mp (h.trans row)
    exact decode_of_fields (i := .rdsr 0) hopcode hzero
  · intro h
    rw [← encodeOfDecode w _ h]
    exact (encode_masked _).trans row.symm

/-- Settles O13: a legal RDSR reads its system register; every other word is refused, as an instruction or as none. -/
theorem faultedStateRefusesAllButRdsr : Obligations.FaultedStateRefusesAllButRdsr := by
  intro s hs
  refine ⟨fun hword himm => ?rdsr, fun hnot => ?refused⟩
  case rdsr =>
    obtain ⟨v, hv⟩ := systemRegister_of_le (s := s) himm
    exact ⟨v, hv, (runPort_decoded (decode_eq_rdsr_iff.mp hword)).trans (exec_rdsr_of_some hv)⟩
  case refused =>
    rcases hd : decode s.port.cmd with e | i
    · exact (runPort_rejected hd).trans (runCommand_halted hs _)
    · refine (runPort_decoded hd).trans (exec_halted hs fun imm hi => Nat.lt_of_not_le fun himm => hnot ?_)
      subst hi
      have field : immField s.port.cmd = imm := by
        rw [← encodeOfDecode _ _ hd]
        exact immField_commandWord ..
      exact ⟨decode_eq_rdsr_iff.mpr (field.symm ▸ hd), field.symm ▸ himm⟩

end Sys2Proof.Machine
end

section
/-! PROOFS. The statements of 70_reset_and_hazards.md: reset as a step (R300), what only reset does (R301), and the run
that ends FAULTED (R307); with them the steps the spec does not name (60_exceptions.md R281).

`step_cases` says once what a step can do: nothing, reset, or the next command on the port, whose outcomes are those of
60_exceptions.md R271 (`runPort_outcomes`). In the FAULTED state a command changes its response only, so from the first
fault on a run without reset stands still (`afterSteps_of_halted`). -/

namespace Sys2Proof.Machine

/-! The steps. -/

theorem step_idle {s : State} (hc : s.config.legal = true) (hp : s.pending = []) : step s = .next s := by
  rw [step, if_pos hc, hp]

theorem step_reset {s : State} (hc : s.config.legal = true) {rest : List HostEvent} (hp : s.pending = .rst :: rest) :
    step s = .next (applyReset (dropEvent s)) := by
  rw [step, if_pos hc, hp]

theorem step_illegalConfig {s : State} (hc : s.config.legal = false) : step s = .refused .illegalConfig := by
  rw [step, hc]
  rfl

/-- A step that answers a next state: an idle one, reset, or the outcome of the next command. -/
inductive StepCases (s : State) : State → Prop
  | idle (hp : s.pending = []) : StepCases s s
  | reset {rest : List HostEvent} (hp : s.pending = .rst :: rest) : StepCases s (applyReset (dropEvent s))
  | command {c : Transaction} {rest : List HostEvent} {t : State} (hp : s.pending = .command c :: rest)
      (e : runPort (presentTransaction (dropEvent s) c) = .next t)
      (h : Outcomes (presentTransaction (dropEvent s) c) t) : StepCases s t

theorem step_cases {s t : State} (e : step s = .next t) : s.config.legal = true ∧ StepCases s t := by
  rcases hc : s.config.legal with _ | _
  case false => cases (step_illegalConfig hc).symm.trans e
  case true =>
    refine ⟨rfl, ?_⟩
    rcases hp : s.pending with _ | ⟨c | _, rest⟩
    · cases (step_idle hc hp).symm.trans e
      exact .idle hp
    · rw [step_command hc hp] at e
      obtain ⟨u, eu, h⟩ := runPort_outcomes (presentTransaction (dropEvent s) c)
      cases eu.symm.trans e
      exact .command hp eu h
    · cases (step_reset hc hp).symm.trans e
      exact .reset hp

/-- Settles O9. -/
theorem idleStepAndIllegalConfiguration : Obligations.IdleStepAndIllegalConfiguration :=
  fun _ => ⟨step_idle, step_illegalConfig⟩

/-- Settles O8: the registers and the fault registers are those of the reset state; `CFG` is computed from the
configuration, which reset keeps. -/
theorem stepAppliesReset : Obligations.StepAppliesReset := by
  intro s rest hc hp
  have hcause : fsrCause 0 = 0 := by decide
  have hreserved : fsrReserved 0 = 0 := by decide
  have hpending : (applyReset (dropEvent s)).pending = rest := by
    rw [applyReset_pending, dropEvent_pending, hp, List.tail_cons]
  exact ⟨_, step_reset hc hp, rfl, hpending, rfl, fun r => by rw [applyReset_regAt, unconstructed_n], rfl, hcause,
    hreserved, rfl, rfl⟩

/-! Constructed registers and the FAULTED state. -/

/-- Writes that leave no register unconstructed keep the constructed ones constructed. -/
theorem regAt_writeAll_n_ne_zero {s : State} {ws : List (Reg × Vec)} (h : ∀ w ∈ ws, Constructible w.2) {r : Reg}
    (hr : (regAt s r).n ≠ 0) : (regAt (writeAll s ws) r).n ≠ 0 := by
  induction ws generalizing s with
  | nil => exact hr
  | cons w ws ih =>
    obtain ⟨hw, hws⟩ := List.forall_mem_cons.mp h
    refine ih hws ?_
    rw [regAt_writeVec]
    split
    · exact hw.toReg_n_ne_zero
    · exact hr

namespace Outcomes

variable {s t : State} (h : Outcomes s t)

include h

/-- No command leaves the FAULTED state (60_exceptions.md R280). -/
theorem isHalted_of_isHalted (hs : isHalted s = true) : isHalted t = true := by
  cases h with
  | faulted hs' f => exact enterFault_isHalted s f
  | refused => exact hs
  | completed h => rwa [isHalted, h.fsr_eq]

/-- No command makes a register unconstructed (10_state.md R27). -/
theorem constructed_of_constructed (hc : s.config.legal = true) {r : Reg} (hr : (regAt s r).n ≠ 0) :
    (regAt t r).n ≠ 0 := by
  cases h with
  | faulted | refused => exact hr
  | completed h =>
    obtain ⟨hws⟩ := h
    exact regAt_writeAll_n_ne_zero (hws hc) hr

/-- A command that enters the FAULTED state raised a fault. -/
theorem eq_enterFault (hs : isHalted s = false) (ht : isHalted t = true) : ∃ f, t = enterFault s f := by
  cases h with
  | faulted _ f => exact ⟨f, rfl⟩
  | refused hs' => cases hs.symm.trans hs'
  | completed h =>
    rw [isHalted, h.fsr_eq] at ht
    cases hs.symm.trans ht

theorem pending_eq : t.pending = s.pending := by
  cases h with
  | faulted | refused => rfl
  | completed h => exact h.pending_eq

end Outcomes

/-- Settles O14: an idle step changes nothing, and a command neither leaves the FAULTED state nor makes a register
unconstructed. -/
theorem onlyResetLeavesFaultedOrUnconstructs : Obligations.OnlyResetLeavesFaultedOrUnconstructs := by
  refine ⟨fun s t e h => ?onlyReset, fun s rest hc hp => ?reset⟩
  case onlyReset =>
    obtain ⟨hc, hcases⟩ := step_cases e
    cases hcases with
    | idle =>
      rcases h with ⟨hs, ht⟩ | ⟨r, hs, ht⟩
      · cases hs.symm.trans ht
      · exact absurd ht hs
    | reset hp => exact ⟨_, hp⟩
    | command hp _ outcome =>
      rcases h with ⟨hs, ht⟩ | ⟨r, hs, ht⟩
      · cases (outcome.isHalted_of_isHalted hs).symm.trans ht
      · exact absurd ht (outcome.constructed_of_constructed hc hs)
  case reset =>
    exact ⟨_, step_reset hc hp, applyReset_isHalted _, fun r => by rw [applyReset_regAt, unconstructed_n]⟩

/-! The run that ends FAULTED. -/

/-- No reset is pending. -/
abbrev NoReset (s : State) : Prop := ∀ e ∈ s.pending, e ≠ .rst

/-- In the FAULTED state a transaction changes the response only (60_exceptions.md R279). -/
theorem runPort_of_halted {s : State} (hs : isHalted s = true) :
    ∃ answer, runPort s = .next { s with response := answer } := by
  obtain ⟨rdsr, refused⟩ := faultedStateRefusesAllButRdsr s hs
  by_cases h : s.port.cmd &&& 0xFFFFC000#32 = 0x08000000#32 ∧ (immField s.port.cmd).toNat ≤ 2
  · obtain ⟨hword, himm⟩ := h
    obtain ⟨v, -, e⟩ := rdsr hword himm
    exact ⟨_, e⟩
  · exact ⟨_, refused h⟩

/-- A step without reset pending is idle, or runs a command and leaves one event less. -/
theorem NoReset.step {s t : State} (h : NoReset s) (e : step s = .next t) : NoReset t := by
  obtain ⟨-, hcases⟩ := step_cases e
  cases hcases with
  | idle => exact h
  | reset hp => exact absurd rfl (h .rst (hp ▸ List.mem_cons_self))
  | command _ _ outcome =>
    rw [NoReset, outcome.pending_eq]
    exact fun a ha => h a (List.mem_of_mem_tail ha)

/-- In the FAULTED state a step without reset changes no register. -/
theorem step_of_halted {s t : State} (hs : isHalted s = true) (h : NoReset s) (e : step s = .next t) :
    (∀ r : Reg, regAt t r = regAt s r) ∧ t.fsr = s.fsr ∧ t.fcmd = s.fcmd := by
  obtain ⟨-, hcases⟩ := step_cases e
  cases hcases with
  | idle => exact ⟨fun _ => rfl, rfl, rfl⟩
  | reset hp => exact absurd rfl (h .rst (hp ▸ List.mem_cons_self))
  | @command c _ _ _ e' _ =>
    obtain ⟨answer, ea⟩ := runPort_of_halted (s := presentTransaction (dropEvent s) c) hs
    cases ea.symm.trans e'
    exact ⟨fun _ => rfl, rfl, rfl⟩

theorem afterSteps_succ {k : Nat} {s u : State} (h : afterSteps (k + 1) s = some u) :
    ∃ t, step s = .next t ∧ afterSteps k t = some u := by
  rw [afterSteps] at h
  split at h
  · exact ⟨_, ‹_›, h⟩
  · cases h
  · cases h

/-- From the FAULTED state on, a run without reset keeps every register. -/
theorem afterSteps_of_halted {k : Nat} {s u : State} (hs : isHalted s = true) (h : NoReset s)
    (e : afterSteps k s = some u) : (∀ r : Reg, regAt u r = regAt s r) ∧ u.fsr = s.fsr ∧ u.fcmd = s.fcmd := by
  induction k generalizing s with
  | zero =>
    cases e
    exact ⟨fun _ => rfl, rfl, rfl⟩
  | succ k ih =>
    obtain ⟨t, et, eu⟩ := afterSteps_succ e
    obtain ⟨hregs, hfsr, hfcmd⟩ := step_of_halted hs h et
    have ht : isHalted t = true := by rwa [isHalted, hfsr]
    obtain ⟨kregs, kfsr, kfcmd⟩ := ih ht (h.step et) eu
    exact ⟨fun r => (kregs r).trans (hregs r), kfsr.trans hfsr, kfcmd.trans hfcmd⟩

/-- A step into the FAULTED state answers a fault and changes no register (60_exceptions.md R272). -/
theorem step_into_halted {s t : State} (hs : isHalted s = false) (ht : isHalted t = true) (e : step s = .next t) :
    (∃ f, t.response = some { status := .fault f, flag := false, rdata := 0 }) ∧
      ∀ r : Reg, regAt t r = regAt s r := by
  obtain ⟨-, hcases⟩ := step_cases e
  cases hcases with
  | idle => cases hs.symm.trans ht
  | reset => cases (applyReset_isHalted _).symm.trans ht
  | command _ _ outcome =>
    obtain ⟨f, rfl⟩ := outcome.eq_enterFault hs ht
    exact ⟨⟨f, rfl⟩, fun _ => rfl⟩

/-- Settles O15: by induction on the run; the first step that enters the FAULTED state is the one, and what follows it
keeps every register. -/
theorem firstFaultFreezesTheRun : Obligations.FirstFaultFreezesTheRun := by
  intro k s t hp hs e ht
  induction k generalizing s with
  | zero =>
    cases e
    cases hs.symm.trans ht
  | succ k ih =>
    obtain ⟨u, eu, et⟩ := afterSteps_succ e
    have hpu : NoReset u := NoReset.step hp eu
    rcases hu : isHalted u with _ | _
    case false =>
      obtain ⟨j, v, w, f, hj, hclean, ev, hv, ew, answer, frozen⟩ := ih u hpu hu et
      refine ⟨j + 1, v, w, f, Nat.succ_lt_succ hj, ?_, ?_, hv, ew, answer, frozen⟩
      · simp [runIsClean, eu, hu, hclean]
      · simp [afterSteps, eu, ev]
    case true =>
      obtain ⟨⟨f, answer⟩, hregs⟩ := step_into_halted hs hu eu
      obtain ⟨kregs, kfsr, kfcmd⟩ := afterSteps_of_halted hu hpu et
      exact ⟨0, s, u, f, Nat.succ_pos k, rfl, rfl, hs, eu, answer, fun r => (kregs r).trans (hregs r), kfsr, kfcmd⟩

end Sys2Proof.Machine
end
